-- ==== Sys2Proof/Word.lean ====
section
/-! DEFINITION. The widths of the spec (00_scope.md R11): u8, u16, u32, u64 are unsigned numbers of that many bits. -/

namespace Sys2Proof

/-- `u8`. -/
abbrev Byte := BitVec 8

/-- `u16`. -/
abbrev Half := BitVec 16

/-- `u32`: an operation word, an immediate, a frame word. -/
abbrev Word := BitVec 32

/-- `u64`: the result register and the 64-bit values handed to the transport. -/
abbrev DWord := BitVec 64

end Sys2Proof
end

