-- ==== Sys2Proof/Syntax.lean ====
section
/-! DEFINITION. The operations of the block (30_encoding.md R93), one constructor per row of opcode_table.json. -/

namespace Sys2Proof

/-- An operation with its operands. `imm` stands with the three operations that use IMM (R92): ENCODE, SEND and CSRW. -/
inductive Instr where
  /-- ENCODE, opcode 0x01, format F (R130). -/
  | encode (seq ctype len : Byte) (imm : Word)
  /-- SEND, opcode 0x02, format F (R150). -/
  | send (seq ctype len : Byte) (imm : Word)
  /-- FETCH, opcode 0x03, format N (R162). -/
  | fetch
  /-- PARSE, opcode 0x04, format N (R180). -/
  | parse
  /-- DEINIT, opcode 0x05, format N (R229). -/
  | deinit
  /-- REFRESH, opcode 0x06, format N (R243). -/
  | refresh
  /-- GET, opcode 0x07, format N (R240). -/
  | get
  /-- RD_TEMP, opcode 0x10, format I (R262). -/
  | rdTemp (index : Half)
  /-- RD_TEMP_ID, opcode 0x11, format I (R263). -/
  | rdTempId (index : Half)
  /-- RD_FREQ, opcode 0x12, format I (R264). -/
  | rdFreq (index : Half)
  /-- RD_FREQ_ID, opcode 0x13, format I (R265). -/
  | rdFreqId (index : Half)
  /-- RD_POWR, opcode 0x14, format I (R266). -/
  | rdPowr (index : Half)
  /-- RD_POWR_ID, opcode 0x15, format I (R267). -/
  | rdPowrId (index : Half)
  /-- RD_POWR_TAG, opcode 0x16, format I (R268). -/
  | rdPowrTag (index : Half)
  /-- RD_POWR_ACC, opcode 0x17, format I (R269). -/
  | rdPowrAcc (index : Half)
  /-- RD_CAPS, opcode 0x18, format I; `index` is the field number (R270). -/
  | rdCaps (index : Half)
  /-- RD_BLK, opcode 0x19, format I; `index` is the block number (R272). -/
  | rdBlk (index : Half)
  /-- RD_HDR, opcode 0x1A, format I; `index` is the header byte number (R273). -/
  | rdHdr (index : Half)
  /-- SET_POWERCAP, opcode 0x20, format I; `index` is the power-cap value (R275). -/
  | setPowercap (value : Half)
  /-- CSRR, opcode 0x30, format C (R283). -/
  | csrr (csr : Byte)
  /-- CSRW, opcode 0x31, format C (R284). -/
  | csrw (csr : Byte) (imm : Word)
  deriving DecidableEq, Repr

end Sys2Proof
end

