-- ==== Sys2Proof/Decode.lean ====
section
/-! DEFINITION. The decoder of the operation word (30_encoding.md R90 to R95), the encoder written from the same tables, and
the opcode table's match and mask values. -/

namespace Sys2Proof

/-- Why a word names no operation (R94). -/
inductive DecodeError where
  /-- The opcode is not in R93. -/
  | unknownOpcode
  /-- A field that R90 marks zero is not zero. -/
  | reservedField
  deriving DecidableEq, Repr

/-- R90: the opcode, bits 31:24 of every format. -/
def opField (opw : Word) : Byte := opw.extractLsb' 24 8
/-- R90, format F: bits 23:16. -/
def seqField (opw : Word) : Byte := opw.extractLsb' 16 8
/-- R90, format F: bits 15:8. -/
def typeField (opw : Word) : Byte := opw.extractLsb' 8 8
/-- R90, format F: bits 7:0. -/
def lenField (opw : Word) : Byte := opw.extractLsb' 0 8
/-- R90, format I: bits 15:0. -/
def indexField (opw : Word) : Half := opw.extractLsb' 0 16
/-- R90, format C: bits 7:0. -/
def csrField (opw : Word) : Byte := opw.extractLsb' 0 8

/-- Format N: bits 23:0 are zero. -/
def formatN (opw : Word) (i : Instr) : Except DecodeError Instr :=
  if opw.extractLsb' 0 24 = 0 then .ok i else .error .reservedField

/-- Format F: no zero field. -/
def formatF (opw : Word) (i : Byte → Byte → Byte → Instr) : Except DecodeError Instr :=
  .ok (i (seqField opw) (typeField opw) (lenField opw))

/-- Format I: bits 23:16 are zero. -/
def formatI (opw : Word) (i : Half → Instr) : Except DecodeError Instr :=
  if opw.extractLsb' 16 8 = 0 then .ok (i (indexField opw)) else .error .reservedField

/-- Format C: bits 23:8 are zero. -/
def formatC (opw : Word) (i : Byte → Instr) : Except DecodeError Instr :=
  if opw.extractLsb' 8 16 = 0 then .ok (i (csrField opw)) else .error .reservedField

/-- R95: look the opcode up in R93 and check the zero fields of its format. `imm` is the immediate beside the word; only
ENCODE, SEND and CSRW use it (R92). -/
def decode (opw imm : Word) : Except DecodeError Instr :=
  match (opField opw).toNat with
  | 0x01 => formatF opw fun seq ctype len => .encode seq ctype len imm
  | 0x02 => formatF opw fun seq ctype len => .send seq ctype len imm
  | 0x03 => formatN opw .fetch
  | 0x04 => formatN opw .parse
  | 0x05 => formatN opw .deinit
  | 0x06 => formatN opw .refresh
  | 0x07 => formatN opw .get
  | 0x10 => formatI opw .rdTemp
  | 0x11 => formatI opw .rdTempId
  | 0x12 => formatI opw .rdFreq
  | 0x13 => formatI opw .rdFreqId
  | 0x14 => formatI opw .rdPowr
  | 0x15 => formatI opw .rdPowrId
  | 0x16 => formatI opw .rdPowrTag
  | 0x17 => formatI opw .rdPowrAcc
  | 0x18 => formatI opw .rdCaps
  | 0x19 => formatI opw .rdBlk
  | 0x1A => formatI opw .rdHdr
  | 0x20 => formatI opw .setPowercap
  | 0x30 => formatC opw .csrr
  | 0x31 => formatC opw fun csr => .csrw csr imm
  | _ => .error .unknownOpcode

/-- R90, format F: `op seq type len`. -/
def wordF (op seq ctype len : Byte) : Word := op ++ seq ++ ctype ++ len
/-- R90, format N: `op` and 24 zero bits. -/
def wordN (op : Byte) : Word := op ++ (0 : BitVec 24)
/-- R90, format I: `op`, 8 zero bits, `index`. -/
def wordI (op : Byte) (index : Half) : Word := op ++ (0 : Byte) ++ index
/-- R90, format C: `op`, 16 zero bits, `csr`. -/
def wordC (op csr : Byte) : Word := op ++ (0 : Half) ++ csr

/-- The words `(OPW, IMM)` of an operation, from the tables of R90 and R93; IMM is 0 where the operation ignores it. -/
def encode : Instr → Word × Word
  | .encode seq ctype len imm => (wordF 0x01 seq ctype len, imm)
  | .send seq ctype len imm => (wordF 0x02 seq ctype len, imm)
  | .fetch => (wordN 0x03, 0)
  | .parse => (wordN 0x04, 0)
  | .deinit => (wordN 0x05, 0)
  | .refresh => (wordN 0x06, 0)
  | .get => (wordN 0x07, 0)
  | .rdTemp index => (wordI 0x10 index, 0)
  | .rdTempId index => (wordI 0x11 index, 0)
  | .rdFreq index => (wordI 0x12 index, 0)
  | .rdFreqId index => (wordI 0x13 index, 0)
  | .rdPowr index => (wordI 0x14 index, 0)
  | .rdPowrId index => (wordI 0x15 index, 0)
  | .rdPowrTag index => (wordI 0x16 index, 0)
  | .rdPowrAcc index => (wordI 0x17 index, 0)
  | .rdCaps index => (wordI 0x18 index, 0)
  | .rdBlk index => (wordI 0x19 index, 0)
  | .rdHdr index => (wordI 0x1A index, 0)
  | .setPowercap value => (wordI 0x20 value, 0)
  | .csrr csr => (wordC 0x30 csr, 0)
  | .csrw csr imm => (wordC 0x31 csr, imm)

/-- Whether an operation uses IMM (R92). -/
def Instr.usesImm : Instr → Bool
  | .encode _ _ _ _ | .send _ _ _ _ | .csrw _ _ => true
  | .fetch | .parse | .deinit | .refresh | .get | .rdTemp _ | .rdTempId _ | .rdFreq _ | .rdFreqId _ => false
  | .rdPowr _ | .rdPowrId _ | .rdPowrTag _ | .rdPowrAcc _ | .rdCaps _ | .rdBlk _ | .rdHdr _ => false
  | .setPowercap _ | .csrr _ => false

/-- A row of the opcode table: a word belongs to it when its bits under `mask` are `pattern`. -/
structure OpcodeRow where
  pattern : Word
  mask : Word
  deriving DecidableEq, Repr

/-- The word has the row's fixed bits. -/
def OpcodeRow.matches (r : OpcodeRow) (opw : Word) : Bool := opw &&& r.mask == r.pattern

/-- The 21 rows of opcode_table.json (match, mask), in the table's order. -/
def opcodeRows : List OpcodeRow :=
  [⟨0x01000000, 0xFF000000⟩, ⟨0x02000000, 0xFF000000⟩, ⟨0x03000000, 0xFFFFFFFF⟩, ⟨0x04000000, 0xFFFFFFFF⟩,
   ⟨0x05000000, 0xFFFFFFFF⟩, ⟨0x06000000, 0xFFFFFFFF⟩, ⟨0x07000000, 0xFFFFFFFF⟩, ⟨0x10000000, 0xFFFF0000⟩,
   ⟨0x11000000, 0xFFFF0000⟩, ⟨0x12000000, 0xFFFF0000⟩, ⟨0x13000000, 0xFFFF0000⟩, ⟨0x14000000, 0xFFFF0000⟩,
   ⟨0x15000000, 0xFFFF0000⟩, ⟨0x16000000, 0xFFFF0000⟩, ⟨0x17000000, 0xFFFF0000⟩, ⟨0x18000000, 0xFFFF0000⟩,
   ⟨0x19000000, 0xFFFF0000⟩, ⟨0x1A000000, 0xFFFF0000⟩, ⟨0x20000000, 0xFFFF0000⟩, ⟨0x30000000, 0xFFFFFF00⟩,
   ⟨0x31000000, 0xFFFFFF00⟩]

/-- The two words that a table number of `nbits` bits holds: OPW in bits 31:0, IMM in bits 63:32, every bit at or above
`nbits` zero. -/
def tableWords (nbits w : Nat) : Word × Word :=
  let v := w % 2 ^ nbits
  (BitVec.ofNat 32 v, BitVec.ofNat 32 (v / 2 ^ 32))

/-- What the decoder reads from a table number. -/
def decodeTableWord (nbits w : Nat) : Option Instr :=
  match decode (tableWords nbits w).1 (tableWords nbits w).2 with
  | .ok i => some i
  | .error _ => none

end Sys2Proof
end

