-- ==== Sys2Proof/Config.lean ====
section
/-! DEFINITION. The parameters of one chip (00_scope.md R6, R7, R8) and the four sensor types (R14). An instance's
parameters are a value of `Config`, carried in `State.cfg` (log entry 1); what the spec leaves open (R8) is, for the
machine right after reset, an opaque constant. -/

namespace Sys2Proof

/-- The four sensor types, in the fixed order of R14. -/
inductive SensorType where
  | freq | temp | powr | caps
  deriving DecidableEq, Repr, Inhabited

/-- R14: the number of a type wherever a type is encoded as a number. -/
def SensorType.number : SensorType → Nat
  | .freq => 0
  | .temp => 1
  | .powr => 2
  | .caps => 3

/-- One value for each sensor type. -/
structure PerType (α : Type) where
  freq : α
  temp : α
  powr : α
  caps : α
  deriving DecidableEq, Repr

/-- The value a family holds for type `T`. -/
def PerType.get {α : Type} (f : PerType α) : SensorType → α
  | .freq => f.freq
  | .temp => f.temp
  | .powr => f.powr
  | .caps => f.caps

/-- The family with the value for `T` replaced. -/
def PerType.set {α : Type} (f : PerType α) (T : SensorType) (a : α) : PerType α :=
  match T with
  | .freq => { f with freq := a }
  | .temp => { f with temp := a }
  | .powr => { f with powr := a }
  | .caps => { f with caps := a }

/-- The same value for every type. -/
def PerType.all {α : Type} (a : α) : PerType α := ⟨a, a, a, a⟩

/-- R6: `OCC_DATA_MAX`, the size of the raw response buffer in bytes. -/
def occDataMax : Nat := 4096
/-- R6: offset of the return-status byte. -/
def offStatus : Nat := 2
/-- R6: offset of the 16-bit data-length field. -/
def offLen : Nat := 3
/-- R6: offset of the response header. -/
def offHdr : Nat := 5
/-- R6: offset of the 6-byte eye-catcher. -/
def offMagic : Nat := 37
/-- R6: offset of the block-count byte. -/
def offNblk : Nat := 43
/-- R6: offset of the first sensor block. -/
def offBlk0 : Nat := 45
/-- R6: length of the response header. -/
def hdrBytes : Nat := 40
/-- R6: length of a block's sub-header. -/
def subhdrBytes : Nat := 8

/-- R6: `RECSIZE[T]`, the bytes decoded per record. -/
def recSize : SensorType → Nat
  | .freq => 4
  | .temp => 4
  | .powr => 12
  | .caps => 12

/-- The open parameters of R8. The document names them and gives no value. Addresses and their width are plain numbers
(calls are compared symbolically, 93_implementation_defined.md I8). `pollLen` is 0 to 2 by its type (R8). -/
structure OpenParams where
  addrW : Nat
  ctrlA : Nat
  ctrlB : Nat
  vInitA : DWord
  vInitB : DWord
  addrReg : Nat
  dataReg : Nat
  attnReg : Nat
  vCmdAddr : DWord
  vRspAddr : DWord
  vAttn : DWord
  pollSeq : Byte
  pollType : Byte
  pollLen : Fin 3
  pollPayload : Half
  capSeq : Byte
  capType : Byte
  statusInvalidValue : Byte
  deriving DecidableEq, Repr, Inhabited

/-- All parameters of one instance: the configured ones of R7 and the open ones of R8. -/
structure Config where
  maxRec : PerType Nat
  maxBlocks : Nat
  timeW : Nat
  bus : OpenParams
  deriving DecidableEq, Repr

/-- The bounds the spec puts on the parameters: R7 (`MAX_REC[T] <= 255`, `1 <= MAX_BLOCKS <= 255`) and R8 (addresses of
`ADDR_W` bits, `STATUS_INVALID_VALUE` non-zero). No meaning reads it; statements take it as a hypothesis where they need it. -/
def Config.wf (c : Config) : Bool :=
  decide (c.maxRec.freq ≤ 255) && decide (c.maxRec.temp ≤ 255) && decide (c.maxRec.powr ≤ 255) &&
  decide (c.maxRec.caps ≤ 255) && decide (1 ≤ c.maxBlocks) && decide (c.maxBlocks ≤ 255) &&
  decide (c.bus.ctrlA < 2 ^ c.bus.addrW) && decide (c.bus.ctrlB < 2 ^ c.bus.addrW) &&
  decide (c.bus.addrReg < 2 ^ c.bus.addrW) && decide (c.bus.dataReg < 2 ^ c.bus.addrW) &&
  decide (c.bus.attnReg < 2 ^ c.bus.addrW) && decide (c.bus.statusInvalidValue ≠ 0)

/-- R8: the open parameters of the instance that reset starts. No body: nothing proved of it rests on a value. -/
opaque Config.openParams : OpenParams

/-- R7: the default capacities. -/
def Config.defaultMaxRec : PerType Nat := { freq := 10, temp := 22, powr := 11, caps := 1 }

/-- R7: the default configuration around given open parameters (`MAX_BLOCKS` = 255, `TIME_W` = 32). -/
def Config.default (bus : OpenParams) : Config :=
  { maxRec := Config.defaultMaxRec, maxBlocks := 255, timeW := 32, bus := bus }

end Sys2Proof
end

