-- ==== Sys2Proof/Machine/State.lean ====
section
/-! DEFINITION. The state of one block instance (10_state.md R20 to R45), the reasons a step can stop, and the state after
reset. Plain data throughout. -/

namespace Sys2Proof.Machine

/-- The raw response buffer (R26, 20_memory.md R61): (offset, byte) pairs, offsets strictly rising, no byte 0 listed. An
unlisted offset reads 0 (log entry 9). -/
abbrev Memory := List Host.Cell

/-- `raw_len` (R26): 0 to 4096. -/
abbrev RawLen := Fin 4097

/-- One call of the transport (20_memory.md R62). -/
inductive Call where
  /-- `ScomWrite(addr, hi, lo)`. -/
  | write (addr : Nat) (hi lo : Word)
  /-- `ScomRead(addr)`. -/
  | read (addr : Nat)
  deriving DecidableEq, Repr

/-- One answer of the transport (R62): `err`, or `ok`; the eight bytes are those a read returns, and a write's `ok` ignores
them. -/
inductive Answer where
  | err
  | ok (bytes : Vector Byte 8)
  deriving DecidableEq, Repr

/-- What the host presents at the port (R21). -/
structure Request where
  opw : Word
  imm : Word
  now : Nat
  deriving DecidableEq, Repr

/-- A FREQ or TEMP record (R35). -/
structure SensorRec where
  id : Half
  value : Half
  deriving DecidableEq, Repr

/-- A POWR record (R35). -/
structure PowrRec where
  id : Half
  updateTag : Word
  accumulator : Word
  value : Half
  deriving DecidableEq, Repr

/-- A CAPS record (R35). -/
structure CapsRec where
  currCap : Half
  currReading : Half
  normCap : Half
  maxCap : Half
  minCap : Half
  userLimit : Half
  deriving DecidableEq, Repr

/-- An entry of the block table (R33). `tag` holds the four tag bytes, first byte most significant. -/
structure BlockEntry where
  tag : Word
  format : Byte
  rl : Byte
  count : Byte
  deriving DecidableEq, Repr

/-- The decoded response (R30 to R38). `nblocks` is the length of `blocks`, `rec_count[T]` the length of the store of `T`
(log entry 11). -/
structure Decoded where
  rspSeq : Byte
  rspType : Byte
  rspStatus : Byte
  rspLen : Half
  rspChecksum : Half
  hdrRaw : Vector Byte 40
  blocks : List BlockEntry
  idx : PerType (Option Nat)
  freq : List SensorRec
  temp : List SensorRec
  powr : List PowrRec
  caps : List CapsRec
  deriving DecidableEq, Repr

/-- The working registers of R22, with `cursor` and `limit` of R25. -/
structure Work where
  w1 : Word
  w2 : Word
  csum : Half
  len : Half
  total : Nat
  foff : Nat
  nb : Byte
  b : Nat
  s : Nat
  tag : Word
  fmt : Byte
  rl : Byte
  cnt : Byte
  base : Nat
  cursor : Nat
  limit : Nat
  deriving DecidableEq, Repr

/-- The poll cache (R39). Times are numbers below `2^TIME_W`. -/
structure PollCache where
  valid : Bool
  lastUpdated : Nat
  interval : Nat
  deriving DecidableEq, Repr

/-- The six fields of a CAPS record, in the order RD_CAPS numbers them (45_consumer_ops.md R270). -/
inductive CapsField where
  | currCap | currReading | normCap | maxCap | minCap | userLimit
  deriving DecidableEq, Repr

/-- The scalar a consumer read asks for (R262 to R270). -/
inductive ReadField where
  | tempValue | tempId | freqValue | freqId | powrValue | powrId | powrTag | powrAcc
  | caps (f : CapsField)
  deriving DecidableEq, Repr

/-- The operation a poll runs in. -/
inductive PollOwner where
  | refresh
  | get
  | online
  | read (f : ReadField) (i : Nat)
  deriving DecidableEq, Repr

/-- The operation a SEND procedure runs in. -/
inductive SendOwner where
  | host
  | powercap (v : Half)
  | poll (p : PollOwner)
  deriving DecidableEq, Repr

/-- The operation a FETCH procedure runs in. -/
inductive FetchOwner where
  | host
  | poll (p : PollOwner)
  deriving DecidableEq, Repr

/-- Where the operation in progress stands between two steps (00_scope.md R9; log entry 4). -/
inductive Activity where
  /-- No operation is in progress. -/
  | idle
  /-- A request has been accepted; its operation has issued no call yet. -/
  | accepted
  /-- In a Send: the last call, if any, answered `ok`. -/
  | sending (o : SendOwner)
  /-- In a Fetch: the last read, if any, answered `ok`. -/
  | fetching (o : FetchOwner)
  /-- In a Send whose call `seqStep + 1` answered `err`. -/
  | sendBroken (o : SendOwner)
  /-- In a Fetch whose last read answered `err`. -/
  | fetchBroken (o : FetchOwner)
  deriving DecidableEq, Repr

/-- One instance of the block (R20) and, in the last five fields, what the model adds: the instance's parameters, what the
host presents, what the transport will answer, the calls it has answered, and the operation in progress. -/
structure State where
  opw : Word
  imm : Word
  now : Nat
  res : DWord
  err : Word
  work : Work
  busy : Bool
  seqStep : Nat
  raw : Memory
  rawLen : RawLen
  lastStatus : Byte
  dec : Decoded
  cache : PollCache
  online : Bool
  userPowercap : Half
  cfg : Config
  requests : List Request
  answers : List Answer
  calls : List Call
  activity : Activity
  deriving DecidableEq, Repr

/-- Why the machine stops. No operation that `exec` starts from the beginning raises one of these. -/
inductive Fault where
  /-- Raised by `step` when the operation in progress issues a call and the transport gives no answer (70_reset_and_hazards.md
  R357, stuck). Safe: the block has no next step there. -/
  | transportSilent
  /-- Raised by FETCH when an 8-byte store would leave `raw[0..4095]`, an address R61 says does not exist. Safe: only a state
  no run reaches gets there (41_sequencer.md R164). -/
  | rawOverrun
  /-- Raised by `step` when BUSY is 1 and no operation is in progress. Safe: no rule gives such a state a step and no run
  reaches it. -/
  | lockWithoutOperation
  deriving DecidableEq, Repr

/-- Why an instruction has no meaning. -/
inductive Refusal where
  /-- Raised by `exec` for an instruction without a meaning, by its mnemonic. Safe: the machine stops. No arm raises it now. -/
  | notModelled (mnemonic : String)
  deriving DecidableEq, Repr

/-- What a step answers. -/
abbrev Result := Host.Outcome State Fault Refusal

/-- R45: the working registers are `unspecified` at reset; the model gives each 0 (log entry 8). -/
def Work.reset : Work :=
  { w1 := 0, w2 := 0, csum := 0, len := 0, total := 0, foff := 0, nb := 0, b := 0, s := 0, tag := 0, fmt := 0, rl := 0,
    cnt := 0, base := 0, cursor := 0, limit := 0 }

/-- R45: the decoded response at reset, empty (R38) with its scalars and header bytes 0. -/
def Decoded.reset : Decoded :=
  { rspSeq := 0, rspType := 0, rspStatus := 0, rspLen := 0, rspChecksum := 0, hdrRaw := Vector.replicate 40 0, blocks := [],
    idx := PerType.all none, freq := [], temp := [], powr := [], caps := [] }

/-- The machine right after reset with the given parameters (R45, R340). OPW, IMM and NOW are not in R45's table; the model
gives each 0 (log entry 10). R43 and 20_memory.md R64 leave what the transport will answer, and R21 what the host will present,
to the environment; that none of either is at hand at reset is the model's choice, DESIGN CHOICE (log entries 2 and 3). -/
def State.resetWith (cfg : Config) : State :=
  { opw := 0, imm := 0, now := 0, res := 0, err := 0, work := Work.reset, busy := false, seqStep := 0, raw := [], rawLen := 0,
    lastStatus := 0, dec := Decoded.reset, cache := { valid := false, lastUpdated := 0, interval := 1 }, online := false,
    userPowercap := 0, cfg := cfg, requests := [], answers := [], calls := [], activity := .idle }

/-- The machine right after reset: the default capacities of R7, the open parameters of R8 left open. -/
def State.reset : State := State.resetWith (Config.default Config.openParams)

end Sys2Proof.Machine
end

