-- ==== Sys2Proof/Machine/Flags.lean ====
section
/-! DEFINITION. The error codes and the ERR word with its two flag bits (60_exceptions.md R301, R302), and the freshness test
that the `valid` flag enters (44_poll_cache.md R241). -/

namespace Sys2Proof.Machine

/-- The errors of R302 with what each records. A block index is recorded as a byte; `0xFF` stands for "before the first block"
or "block table". -/
inductive Err where
  | invalidPayloadLength (len : Byte)
  | transportError (call : Byte)
  | protocolError (status : Byte)
  | badMagic
  | noBlocks
  | unsupportedSensorType (block : Byte)
  | truncated (block : Byte)
  | outOfMemory (block : Byte)
  | noSuchSensor
  | illegalOperation
  deriving DecidableEq, Repr

/-- R302: the code of an error. -/
def Err.code : Err → Byte
  | .invalidPayloadLength _ => 0x01
  | .transportError _ => 0x02
  | .protocolError _ => 0x03
  | .badMagic => 0x04
  | .noBlocks => 0x05
  | .unsupportedSensorType _ => 0x06
  | .truncated _ => 0x07
  | .outOfMemory _ => 0x08
  | .noSuchSensor => 0x09
  | .illegalOperation => 0x0A

/-- R302: the value recorded with an error. -/
def Err.info : Err → Byte
  | .invalidPayloadLength len => len
  | .transportError call => call
  | .protocolError status => status
  | .badMagic => 0
  | .noBlocks => 0
  | .unsupportedSensorType block => block
  | .truncated block => block
  | .outOfMemory block => block
  | .noSuchSensor => 0
  | .illegalOperation => 0

/-- R301: the ERR word: `code` in 7:0, `info` in 15:8, `UNAVAIL` in 16, `INVALID_VALUE` in 17, zero above. -/
def errWord (code info : Byte) (unavail invalidValue : Bool) : Word :=
  (0 : BitVec 14) ++ BitVec.ofBool invalidValue ++ BitVec.ofBool unavail ++ info ++ code

/-- R301, R304: `INVALID_VALUE` is 1 exactly when the error is ProtocolError with the status `STATUS_INVALID_VALUE`. -/
def Err.invalidValue (cfg : Config) : Err → Bool
  | .protocolError status => status == cfg.bus.statusInvalidValue
  | .invalidPayloadLength _ | .transportError _ | .badMagic | .noBlocks | .unsupportedSensorType _ => false
  | .truncated _ | .outOfMemory _ | .noSuchSensor | .illegalOperation => false

/-- R301: ERR for an error, with the `UNAVAIL` bit the operation gives it (R271). -/
def Err.word (cfg : Config) (unavail : Bool) (e : Err) : Word :=
  errWord e.code e.info unavail (e.invalidValue cfg)

/-- A time reduced to `TIME_W` bits (R7, R21). -/
def wrapTime (cfg : Config) (t : Nat) : Nat := t % 2 ^ cfg.timeW

/-- R241: the time since the last refresh, `(NOW - last_updated) mod 2^TIME_W`. -/
def elapsed (cfg : Config) (now lastUpdated : Nat) : Nat :=
  (now + (2 ^ cfg.timeW - lastUpdated % 2 ^ cfg.timeW)) % 2 ^ cfg.timeW

/-- R241: `Fresh(NOW)`. -/
def fresh (cfg : Config) (c : PollCache) (now : Nat) : Bool :=
  c.valid && decide (elapsed cfg now c.lastUpdated < c.interval)

end Sys2Proof.Machine
end

