-- ==== Sys2Proof/Machine/Ops.lean ====
section
/-! DEFINITION. The operations every meaning shares: bytes of the raw buffer, the outcome of a procedure, accepting a request,
completing an operation, ending it with an error (60_exceptions.md R300, the block's only form of exception), and one transport
call. -/

namespace Sys2Proof.Machine

/-! ### The raw buffer (10_state.md R26, 20_memory.md R61, R67, R69) -/

/-- One byte of the raw buffer; an unlisted offset reads 0 (log entry 9). -/
def Memory.read : Memory → Nat → Byte
  | [], _ => 0
  | (b, w) :: m, a => if a = b then w else Memory.read m a

/-- The memory without the entry for offset `a`. -/
def Memory.erase : Memory → Nat → Memory
  | [], _ => []
  | (b, w) :: m, a => if a = b then Memory.erase m a else (b, w) :: Memory.erase m a

/-- The memory with an entry put in its place among rising offsets. -/
def Memory.insert : Memory → Nat → Byte → Memory
  | [], a, v => [(a, v)]
  | (b, w) :: m, a, v => if a < b then (a, v) :: (b, w) :: m else (b, w) :: Memory.insert m a v

/-- Store one byte, keeping the canonical form: a byte that an unlisted offset reads anyway is not listed. -/
def Memory.write (m : Memory) (a : Nat) (v : Byte) : Memory :=
  if v = 0 then m.erase a else (m.erase a).insert a v

/-- R69: store bytes in order at rising offsets. -/
def Memory.writeBytes : Memory → Nat → List Byte → Memory
  | m, _, [] => m
  | m, a, v :: vs => Memory.writeBytes (m.write a v) (a + 1) vs

/-- Every offset of `m` is above `a`, offsets rise strictly, and no byte is 0. -/
def Memory.above (a : Nat) : Memory → Bool
  | [] => true
  | (b, w) :: m => decide (a < b) && decide (w ≠ 0) && Memory.above b m

/-- The canonical form: offsets strictly rising, no entry equal to what an unlisted offset reads as. -/
def Memory.wf : Memory → Bool
  | [] => true
  | (b, w) :: m => decide (w ≠ 0) && Memory.above b m

/-- R12: `BE16(o)`. -/
def be16 (m : Memory) (o : Nat) : Half := m.read o ++ m.read (o + 1)

/-- R12: `BE32(o)`. -/
def be32 (m : Memory) (o : Nat) : Word := m.read o ++ m.read (o + 1) ++ m.read (o + 2) ++ m.read (o + 3)

/-- A byte count as `raw_len` holds it. -/
def RawLen.ofNat (n : Nat) : RawLen := ⟨min n 4096, by omega⟩

/-! ### Outcomes of a procedure -/

/-- How an internal procedure (Send, Fetch, Parse, Refresh) ends: it is done; it raises an error, its own state effects applied;
it waits for an answer of the transport (R62); or it cannot go on (`Fault`). -/
inductive Proc where
  | done (s : State)
  | raised (e : Err) (s : State)
  | waiting (s : State)
  | halted (f : Fault)
  deriving Repr

/-- Go on with `k` when the procedure is done. -/
def Proc.andThen (p : Proc) (k : State → Proc) : Proc :=
  match p with
  | .done s => k s
  | .raised e s => .raised e s
  | .waiting s => .waiting s
  | .halted f => .halted f

/-- Add state effects when the procedure raised an error (R318: the error itself is passed on unchanged). -/
def Proc.onRaise (p : Proc) (h : State → State) : Proc :=
  match p with
  | .done s => .done s
  | .raised e s => .raised e (h s)
  | .waiting s => .waiting s
  | .halted f => .halted f

/-! ### Accepting and completing (10_state.md R21, 60_exceptions.md R300) -/

/-- R21: accepting a request latches OPW, IMM and NOW and sets BUSY; `rest` is what the host presents after it. -/
def State.accept (s : State) (r : Request) (rest : List Request) : State :=
  { s with opw := r.opw, imm := r.imm, now := wrapTime s.cfg r.now, busy := true, requests := rest, activity := .accepted }

/-- R21: completing writes RES and ERR together, then clears BUSY; R24, R300: `step` is 0 when an operation ends. -/
def State.complete (s : State) (res : DWord) (err : Word) : State :=
  { s with res := res, err := err, busy := false, seqStep := 0, activity := .idle }

/-- RES from its two halves (R21). -/
def resWords (hi lo : Word) : DWord := hi ++ lo

/-- The operation ends with `ERR = OK` and the given RES. -/
def succeed (s : State) (hi lo : Word) : Result := .next (s.complete (resWords hi lo) 0)

/-- R300, R316: taking an error. The operation ends; RES and ERR are published; nothing is saved and control goes nowhere. -/
def raise (s : State) (e : Err) (resLo : Word) (unavail : Bool) : Result :=
  .next (s.complete (resWords 0 resLo) (e.word s.cfg unavail))

/-- R311: IllegalOperation changes nothing but RES and ERR. -/
def raiseIllegal (s : State) : Result := raise s .illegalOperation 0 false

/-- The end of an operation whose last procedure is `p`: `ok` completes it, `err` publishes an error, and an operation that waits
stays in progress. -/
def Proc.finish (p : Proc) (ok : State → Result) (err : Err → State → Result) : Result :=
  match p with
  | .done s => ok s
  | .raised e s => err e s
  | .waiting s => .next s
  | .halted f => .fault f

/-! ### One transport call (20_memory.md R62, R72, R76) -/

/-- The call has been answered: it joins the ordered record of calls, and the remaining answers are `rest` (log entry 5). -/
def State.answered (s : State) (c : Call) (rest : List Answer) : State :=
  { s with calls := s.calls ++ [c], answers := rest }

/-- R340, R343, R344: the reset of an instance in use, which ends its session and starts a new one: offered only while BUSY = 0; it issues
no transport call (R342), and what the environment holds stays. No operation does it (log entry 18). -/
def State.restart (s : State) : Option State :=
  if s.busy then none
  else some { State.resetWith s.cfg with requests := s.requests, answers := s.answers, calls := s.calls }

/-- 43_buffer_manager.md R229, 42_parser.md R199: the poll cache is marked `Stale`. -/
def State.invalidate (s : State) : State := { s with cache := { s.cache with valid := false } }

end Sys2Proof.Machine
end

