-- ==== Sys2Proof/Machine/Operands.lean ====
section
/-! DEFINITION. Where an operation's operands and results come from: the payload bytes in IMM (30_encoding.md R92), the named views
of the decoded response (10_state.md R32 to R36), the scalar a consumer read selects (45_consumer_ops.md R262 to R270), and the
control and status registers (R41). -/

namespace Sys2Proof.Machine

/-- R92: `payload[0] = IMM[15:8]`. -/
def payload0 (imm : Word) : Byte := imm.extractLsb' 8 8
/-- R92: `payload[1] = IMM[7:0]`. -/
def payload1 (imm : Word) : Byte := imm.extractLsb' 0 8
/-- R8, R276: the first payload byte of a 16-bit payload, bits 15:8. -/
def highByte (v : Half) : Byte := v.extractLsb' 8 8
/-- R8, R276: the second payload byte of a 16-bit payload, bits 7:0. -/
def lowByte (v : Half) : Byte := v.extractLsb' 0 8
/-- R8: `hi32` of a 64-bit value handed to the transport. -/
def hi32 (v : DWord) : Word := v.extractLsb' 32 32
/-- R8: `lo32` of a 64-bit value handed to the transport. -/
def lo32 (v : DWord) : Word := v.extractLsb' 0 32

/-! ### Sensor types and their stores -/

/-- R12, R106: the four tag bytes of a type, first byte most significant. -/
def SensorType.tag : SensorType → Word
  | .freq => 0x46524551
  | .temp => 0x54454D50
  | .powr => 0x504F5752
  | .caps => 0x43415053

/-- R106, R192: the type whose tag is exactly `tag`. -/
def typeOfTag (tag : Word) : Option SensorType :=
  if tag = SensorType.tag .freq then some .freq
  else if tag = SensorType.tag .temp then some .temp
  else if tag = SensorType.tag .powr then some .powr
  else if tag = SensorType.tag .caps then some .caps
  else none

/-- R33: `nblocks`. -/
def Decoded.nblocks (d : Decoded) : Nat := d.blocks.length

/-- R35: `rec_count[T]`. -/
def Decoded.recCount (d : Decoded) : SensorType → Nat
  | .freq => d.freq.length
  | .temp => d.temp.length
  | .powr => d.powr.length
  | .caps => d.caps.length

/-- A fresh FREQ or TEMP record, `unspecified` until written (43_buffer_manager.md R227). -/
def SensorRec.blank : SensorRec := ⟨0, 0⟩
/-- A fresh POWR record, `unspecified` until written. -/
def PowrRec.blank : PowrRec := ⟨0, 0, 0, 0⟩
/-- A fresh CAPS record, `unspecified` until written. -/
def CapsRec.blank : CapsRec := ⟨0, 0, 0, 0, 0, 0⟩
/-- A fresh block table entry, `unspecified` until written (42_parser.md R188). -/
def BlockEntry.blank : BlockEntry := ⟨0, 0, 0, 0⟩

/-- The store of `T` with exactly `n` fresh records; `n = 0` releases it (R222, R223). -/
def Decoded.allocate (d : Decoded) (T : SensorType) (n : Nat) : Decoded :=
  match T with
  | .freq => { d with freq := List.replicate n SensorRec.blank }
  | .temp => { d with temp := List.replicate n SensorRec.blank }
  | .powr => { d with powr := List.replicate n PowrRec.blank }
  | .caps => { d with caps := List.replicate n CapsRec.blank }

/-- R107: the FREQ or TEMP record at offset `r`. -/
def sensorRecAt (m : Memory) (r : Nat) : SensorRec := ⟨be16 m r, be16 m (r + 2)⟩

/-- R108: the POWR record at offset `r`. -/
def powrRecAt (m : Memory) (r : Nat) : PowrRec :=
  ⟨be16 m r, be32 m (r + 2), be32 m (r + 6), be16 m (r + 10)⟩

/-- R109: the CAPS record at offset `r`. -/
def capsRecAt (m : Memory) (r : Nat) : CapsRec :=
  ⟨be16 m r, be16 m (r + 2), be16 m (r + 4), be16 m (r + 6), be16 m (r + 8), be16 m (r + 10)⟩

/-- R194: record `i` of type `T` written with the fields decoded at offset `r`. -/
def Decoded.storeRecord (d : Decoded) (m : Memory) (T : SensorType) (i r : Nat) : Decoded :=
  match T with
  | .freq => { d with freq := d.freq.set i (sensorRecAt m r) }
  | .temp => { d with temp := d.temp.set i (sensorRecAt m r) }
  | .powr => { d with powr := d.powr.set i (powrRecAt m r) }
  | .caps => { d with caps := d.caps.set i (capsRecAt m r) }

/-! ### Views of the stored header (10_state.md R32, 30_encoding.md R104)

The positions 5 to 31 rest on outside knowledge in the spec itself; no operation but RD_HDR reads them (log entry 17). -/

/-- `hdr_raw[k]`; there is no byte above 39. -/
def Decoded.hdrByte (d : Decoded) (k : Nat) : Byte := d.hdrRaw.toList.getD k 0
def Decoded.hdrStatus (d : Decoded) : Byte := d.hdrByte 0
def Decoded.hdrExtStatus (d : Decoded) : Byte := d.hdrByte 1
def Decoded.hdrOccsPresent (d : Decoded) : Byte := d.hdrByte 2
def Decoded.hdrConfig (d : Decoded) : Byte := d.hdrByte 3
def Decoded.hdrOccState (d : Decoded) : Byte := d.hdrByte 4
def Decoded.hdrErrLogId (d : Decoded) : Byte := d.hdrByte 7
/-- Big-endian, bytes 8 to 11. -/
def Decoded.hdrErrLogAddr (d : Decoded) : Word := d.hdrByte 8 ++ d.hdrByte 9 ++ d.hdrByte 10 ++ d.hdrByte 11
/-- Big-endian, bytes 12 and 13. -/
def Decoded.hdrErrLogLen (d : Decoded) : Half := d.hdrByte 12 ++ d.hdrByte 13
/-- The 16 bytes of the firmware code-level string. -/
def Decoded.hdrCodeLevel (d : Decoded) : List Byte := (List.range 16).map fun k => d.hdrByte (16 + k)
/-- The 6 bytes of the eye-catcher. -/
def Decoded.hdrEyeCatcher (d : Decoded) : List Byte := (List.range 6).map fun k => d.hdrByte (32 + k)
def Decoded.hdrBlockCount (d : Decoded) : Byte := d.hdrByte 38
def Decoded.hdrDataVersion (d : Decoded) : Byte := d.hdrByte 39

/-- The records of a store, whatever its type (R36). -/
inductive RecordList where
  | sensors (l : List SensorRec)
  | powers (l : List PowrRec)
  | caps (l : List CapsRec)
  | nothing
  deriving DecidableEq, Repr

/-- R36: the document's `SensorBlock.records` of block `i`: the whole store when `idx[T]` names this block, else nothing. -/
def Decoded.recordsOf (d : Decoded) (i : Nat) : RecordList :=
  match d.blocks[i]? with
  | none => .nothing
  | some e =>
    match typeOfTag e.tag with
    | none => .nothing
    | some T =>
      if d.idx.get T = some i then
        match T with
        | .freq => .sensors d.freq
        | .temp => .sensors d.temp
        | .powr => .powers d.powr
        | .caps => .caps d.caps
      else .nothing

/-! ### Consumer reads -/

/-- The type a consumer read looks in (R262 to R270). -/
def ReadField.sensor : ReadField → SensorType
  | .tempValue | .tempId => .temp
  | .freqValue | .freqId => .freq
  | .powrValue | .powrId | .powrTag | .powrAcc => .powr
  | .caps _ => .caps

/-- R270: the field number of RD_CAPS, in the document's order. -/
def capsFieldOf (f : Half) : Option CapsField :=
  match f.toNat with
  | 0 => some .currCap
  | 1 => some .currReading
  | 2 => some .normCap
  | 3 => some .maxCap
  | 4 => some .minCap
  | 5 => some .userLimit
  | _ => none

/-- One field of a CAPS record. -/
def CapsRec.field (r : CapsRec) : CapsField → Half
  | .currCap => r.currCap
  | .currReading => r.currReading
  | .normCap => r.normCap
  | .maxCap => r.maxCap
  | .minCap => r.minCap
  | .userLimit => r.userLimit

/-- R262: milli-degree, `value * 1000` in 32 bits. -/
def milliDegree (v : Half) : Word := v.setWidth 32 * 1000

/-- The scalar of record `i` of a store, zero-extended to 32 bits; none at or above `rec_count[T]` (R261). -/
def Decoded.scalar (d : Decoded) (f : ReadField) (i : Nat) : Option Word :=
  match f with
  | .tempValue => d.temp[i]?.map fun r => milliDegree r.value
  | .tempId => d.temp[i]?.map fun r => r.id.setWidth 32
  | .freqValue => d.freq[i]?.map fun r => r.value.setWidth 32
  | .freqId => d.freq[i]?.map fun r => r.id.setWidth 32
  | .powrValue => d.powr[i]?.map fun r => r.value.setWidth 32
  | .powrId => d.powr[i]?.map fun r => r.id.setWidth 32
  | .powrTag => d.powr[i]?.map fun r => r.updateTag
  | .powrAcc => d.powr[i]?.map fun r => r.accumulator
  | .caps c => d.caps[i]?.map fun r => (r.field c).setWidth 32

/-- R261: the lookup of a consumer read: none when `idx[T]` is absent or `i >= rec_count[T]`. -/
def Decoded.lookup (d : Decoded) (f : ReadField) (i : Nat) : Option Word :=
  if d.idx.get f.sensor = none then none else d.scalar f i

/-! ### Control and status registers (R41) -/

/-- R34, R41: an index as a byte, `0xFF` for absent. -/
def indexByte (i : Option Nat) : Byte :=
  match i with
  | none => 0xFF
  | some b => BitVec.ofNat 8 b

/-- R41: byte `T` in bits `8T+7 : 8T`. -/
def packByType (f : SensorType → Byte) : Word := f .caps ++ f .powr ++ f .temp ++ f .freq

/-- A flag as a 32-bit value, bits 31:1 zero. -/
def flagWord (b : Bool) : Word := (BitVec.ofBool b).setWidth 32

/-- R41: the 32-bit read value of register `n`; numbers 12 to 255 are reserved. -/
def csrValue (s : State) (n : Nat) : Option Word :=
  match n with
  | 0 => some (BitVec.ofNat 32 s.cache.interval)
  | 1 => some (flagWord s.online)
  | 2 => some (flagWord s.cache.valid)
  | 3 => some (BitVec.ofNat 32 s.cache.lastUpdated)
  | 4 => some (s.userPowercap.setWidth 32)
  | 5 => some (s.lastStatus.setWidth 32)
  | 6 => some (BitVec.ofNat 32 s.rawLen.val)
  | 7 => some ((BitVec.ofNat 8 s.dec.nblocks).setWidth 32)
  | 8 => some (packByType fun T => indexByte (s.dec.idx.get T))
  | 9 => some (packByType fun T => BitVec.ofNat 8 (s.dec.recCount T))
  | 10 => some (s.dec.rspSeq ++ s.dec.rspType ++ s.dec.rspStatus ++ (0 : Byte))
  | 11 => some (s.dec.rspLen ++ s.dec.rspChecksum)
  | _ => none

end Sys2Proof.Machine
end

