-- ==== Sys2Proof/Machine/BufferManager.lean ====
section
/-! DEFINITION. The Sensor Buffer Manager (43_buffer_manager.md): the procedures `Renew` and `Deinit` and the operation DEINIT. -/

namespace Sys2Proof.Machine

/-- The three answers of `Renew` (R220), with the decoded response it leaves. -/
inductive RenewResult where
  | ok (d : Decoded)
  | noSensors (d : Decoded)
  | outOfMemory
  deriving DecidableEq, Repr

/-- R220: `Renew(T, rl, n, b)`. The block number is in the document's signature and no clause reads it (R221). On `outOfMemory`
nothing is written (R226). -/
def renew (maxRec : PerType Nat) (T : SensorType) (rl n : Byte) (_b : Nat) (d : Decoded) : RenewResult :=
  if n = 0 ∨ rl = 0 then .noSensors (d.allocate T 0)
  else if d.recCount T = n.toNat then .ok d
  else if maxRec.get T < n.toNat then .outOfMemory
  else .ok (d.allocate T n.toNat)

/-- R228: `Deinit()`. Every store is released, every index absent, no block held; the envelope scalars and the header stay. -/
def Decoded.deinit (d : Decoded) : Decoded :=
  { d with blocks := [], idx := PerType.all none, freq := [], temp := [], powr := [], caps := [] }

/-- `Deinit()` on the state. -/
def State.deinit (s : State) : State := { s with dec := s.dec.deinit }

/-- R38: the decoded response is empty. -/
def Decoded.isEmpty (d : Decoded) : Bool :=
  d.blocks == [] && d.idx == PerType.all none && d.freq == [] && d.temp == [] && d.powr == [] && d.caps == []

/-- DEINIT (R229). -/
def execDeinit (s : State) : Result := succeed s.deinit.invalidate 0 0

end Sys2Proof.Machine
end

