-- ==== Sys2Proof/Machine/Parser.lean ====
section
/-! DEFINITION. The Response Parser and block iterator (42_parser.md): the procedure `Parse` and the operation PARSE. -/

namespace Sys2Proof.Machine

/-- What PARSE writes while it runs: the working registers and the decoded response. -/
structure ParseState where
  work : Work
  dec : Decoded
  deriving DecidableEq, Repr

/-- How a part of PARSE ends. -/
inductive ParseResult where
  | ok (p : ParseState)
  | fail (e : Err) (p : ParseState)
  deriving DecidableEq, Repr

/-- R184: `"SENSOR"`. -/
def magic : List Byte := [0x53, 0x45, 0x4E, 0x53, 0x4F, 0x52]

/-- R184: `raw[37..42]` is the eye-catcher. -/
def magicPresent (m : Memory) : Bool :=
  (List.range 6).map (fun k => m.read (offMagic + k)) == magic

/-- R182: `limit = min(raw_len, 5 + L)`. 41_sequencer.md R166 (c) says that PARSE sees 4096 for every `L >= 4089`, where this gives 4094
and 4095 for 4089 and 4090; following R182 is the model's choice, DESIGN CHOICE (log entry 21). -/
def parseLimit (rawLen : Nat) (len : Half) : Nat := min rawLen (offHdr + len.toNat)

/-- R181 to R186: the tests before the commit point, each before the bytes it guards; nothing of the decoded response is
written. -/
def parseHead (m : Memory) (rawLen : Nat) (p : ParseState) : ParseResult :=
  if rawLen < offHdr then .fail (.truncated 0xFF) p
  else
    let len := be16 m offLen
    let limit := parseLimit rawLen len
    let p := { p with work := { p.work with len := len, limit := limit } }
    if limit < offNblk then .fail (.truncated 0xFF) p
    else if !magicPresent m then .fail .badMagic p
    else if limit < offNblk + 1 then .fail (.truncated 0xFF) p
    else
      let nb := m.read offNblk
      let p := { p with work := { p.work with nb := nb } }
      if nb = 0 then .fail .noBlocks p
      else if limit < offBlk0 then .fail (.truncated 0xFF) p
      else .ok p

/-- R187: `hdr_raw[k] <- raw[5 + k]`. -/
def headerBytes (m : Memory) : Vector Byte 40 :=
  ⟨⟨(List.range 40).map fun k => m.read (offHdr + k)⟩, by simp⟩

/-- R187: the response's own checksum at `5 + L`, 0 when its two bytes are not in the buffer. -/
def storedChecksum (m : Memory) (rawLen : Nat) (len : Half) : Half :=
  if len.toNat + 7 ≤ rawLen then be16 m (offHdr + len.toNat) else 0

/-- R187: the envelope scalars and the header. -/
def copyHeader (m : Memory) (rawLen : Nat) (len : Half) (d : Decoded) : Decoded :=
  { d with rspSeq := m.read 0, rspType := m.read 1, rspStatus := m.read offStatus, rspLen := len,
           rspChecksum := storedChecksum m rawLen len, hdrRaw := headerBytes m }

/-- R188: the lifecycle of the block table. A different block count releases everything and allocates afresh; an equal one keeps
the table and the stores and sets the four indices absent. -/
def prepareTable (cfg : Config) (p : ParseState) : ParseResult :=
  if p.work.nb.toNat ≠ p.dec.nblocks then
    let d := p.dec.deinit
    if cfg.maxBlocks < p.work.nb.toNat then .fail (.outOfMemory 0xFF) { p with dec := d }
    else .ok { p with dec := { d with blocks := List.replicate p.work.nb.toNat BlockEntry.blank } }
  else .ok { p with dec := { p.dec with idx := PerType.all none } }

/-- R190, R191: the sub-header at `cursor`, its entry in the block table, and the cursor past it. The reserved byte is not read. -/
def readSubHeader (m : Memory) (p : ParseState) : ParseState :=
  let c := p.work.cursor
  let tag := be32 m c
  let fmt := m.read (c + 5)
  let rl := m.read (c + 6)
  let cnt := m.read (c + 7)
  { work := { p.work with tag := tag, fmt := fmt, rl := rl, cnt := cnt, cursor := c + subhdrBytes },
    dec := { p.dec with blocks := p.dec.blocks.set p.work.b ⟨tag, fmt, rl, cnt⟩ } }

/-- `rl * cnt` of the current block (R195). -/
def Work.extent (w : Work) : Nat := w.rl.toNat * w.cnt.toNat

/-- The index of the current block as an error records it. -/
def Work.blockByte (w : Work) : Byte := BitVec.ofNat 8 w.b

/-- R194, R197 (c): decode `n` more records of type `T`, from record `s` on, with stride `rl`; each is tested before it is read. -/
def recordLoop (m : Memory) (T : SensorType) : Nat → ParseState → ParseResult
  | 0, p => .ok p
  | n + 1, p =>
    let base := p.work.cursor + p.work.s * p.work.rl.toNat
    let p := { p with work := { p.work with base := base } }
    if p.work.limit < base + recSize T then .fail (.truncated p.work.blockByte) p
    else recordLoop m T n
      { work := { p.work with s := p.work.s + 1 }, dec := p.dec.storeRecord m T p.work.s base }

/-- R193 to R196 for a block whose storage stands ready: the extent test, the records, the cached index, the cursor. -/
def decodeBlock (m : Memory) (T : SensorType) (p : ParseState) : ParseResult :=
  if p.work.limit < p.work.cursor + p.work.extent then .fail (.truncated p.work.blockByte) p
  else
    match recordLoop m T p.work.cnt.toNat { p with work := { p.work with s := 0 } } with
    | .fail e p => .fail e p
    | .ok p =>
      .ok { work := { p.work with cursor := p.work.cursor + p.work.extent },
            dec := { p.dec with idx := p.dec.idx.set T (some p.work.b) } }

/-- R190 to R197: one iteration of the block loop, for block `b` at `cursor`. -/
def parseBlock (cfg : Config) (m : Memory) (p : ParseState) : ParseResult :=
  if p.work.limit < p.work.cursor + subhdrBytes then .fail (.truncated p.work.blockByte) p
  else
    let p := readSubHeader m p
    match typeOfTag p.work.tag with
    | none => .fail (.unsupportedSensorType p.work.blockByte) p
    | some T =>
      match renew cfg.maxRec T p.work.rl p.work.cnt p.work.b p.dec with
      | .outOfMemory => .fail (.outOfMemory p.work.blockByte) p
      | .noSensors d => .ok { work := { p.work with cursor := p.work.cursor + p.work.extent }, dec := d }
      | .ok d => decodeBlock m T { p with dec := d }

/-- R189: `n` more blocks. -/
def blockLoop (cfg : Config) (m : Memory) : Nat → ParseState → ParseResult
  | 0, p => .ok p
  | n + 1, p =>
    match parseBlock cfg m p with
    | .fail e p => .fail e p
    | .ok p => blockLoop cfg m n { p with work := { p.work with b := p.work.b + 1 } }

/-- One type at the end of a successful parse (R198). -/
def Decoded.dropIfUnseen (d : Decoded) (T : SensorType) : Decoded :=
  if d.idx.get T = none then d.allocate T 0 else d

/-- R198: a type without an index keeps no records. -/
def Decoded.dropUnseen (d : Decoded) : Decoded :=
  (((d.dropIfUnseen .freq).dropIfUnseen .temp).dropIfUnseen .powr).dropIfUnseen .caps

/-- R186 to R198: everything after the commit point, but for the release on failure. -/
def parseBody (cfg : Config) (m : Memory) (rawLen : Nat) (p : ParseState) : ParseResult :=
  match prepareTable cfg { p with dec := copyHeader m rawLen p.work.len p.dec } with
  | .fail e p => .fail e p
  | .ok p =>
    match blockLoop cfg m p.work.nb.toNat { p with work := { p.work with cursor := offBlk0, b := 0 } } with
    | .fail e p => .fail e p
    | .ok p => .ok { p with dec := p.dec.dropUnseen }

/-- R180: PARSE on its inputs. A failure before the commit point leaves the decoded response (R200); one after it empties it
(R199). -/
def parseCore (cfg : Config) (m : Memory) (rawLen : Nat) (p : ParseState) : ParseResult :=
  match parseHead m rawLen p with
  | .fail e p => .fail e p
  | .ok p =>
    match parseBody cfg m rawLen p with
    | .fail e p => .fail e { p with dec := p.dec.deinit }
    | .ok p => .ok p

/-- The state with what PARSE wrote. -/
def State.withParse (s : State) (p : ParseState) : State := { s with work := p.work, dec := p.dec }

/-- The procedure `Parse()`: every failure also clears `valid` (R199, R200). -/
def parseProc (s : State) : Proc :=
  match parseCore s.cfg s.raw s.rawLen.val ⟨s.work, s.dec⟩ with
  | .ok p => .done (s.withParse p)
  | .fail e p => .raised e (s.withParse p).invalidate

/-- PARSE (R180, R201): on success RES is the final cursor and the block count. -/
def execParse (s : State) : Result :=
  (parseProc s).finish
    (fun s => succeed s (BitVec.ofNat 32 s.work.cursor) (BitVec.ofNat 32 s.dec.nblocks))
    (fun e s => raise s e 0 false)

end Sys2Proof.Machine
end

