-- ==== Sys2Proof/Machine/Encoder.lean ====
section
/-! DEFINITION. The Command Encoder (40_encoder.md): the procedure `Encode` and the operation ENCODE. -/

namespace Sys2Proof.Machine

/-- R131: the length check; `len > 2` is refused before anything is computed. -/
def legalLen (len : Byte) : Option (Fin 3) :=
  if h : len.toNat < 3 then some ⟨len.toNat, h⟩ else none

/-- R132: `W1 = (seq << 24) | (type << 16) | len`. -/
def frameW1 (seq ctype : Byte) (len : Fin 3) : Word :=
  (seq.setWidth 32 <<< 24) ||| (ctype.setWidth 32 <<< 16) ||| BitVec.ofNat 32 len.val

/-- R133: `W2` before the checksum; payload bytes at positions `>= len` do not enter it. -/
def payloadW2 (len : Fin 3) (p0 p1 : Byte) : Word :=
  match len.val with
  | 0 => 0
  | 1 => p0.setWidth 32 <<< 24
  | _ => (p0.setWidth 32 <<< 24) ||| (p1.setWidth 32 <<< 16)

/-- Byte `k` of a 32-bit word, most significant first, in 16 bits (20_memory.md R68). -/
def wordByte (w : Word) (k : Nat) : Half := (w.extractLsb' (24 - 8 * k) 8).setWidth 16

/-- R134: the sum of the eight bytes of `w1` and of `w2` before the insertion, mod 2^16. -/
def checksum (w1 w2 : Word) : Half :=
  wordByte w1 0 + wordByte w1 1 + wordByte w1 2 + wordByte w1 3 +
  wordByte w2 0 + wordByte w2 1 + wordByte w2 2 + wordByte w2 3

/-- R135: the checksum inserted right after the payload. -/
def insertChecksum (len : Fin 3) (w2 : Word) (csum : Half) : Word :=
  w2 ||| (csum.setWidth 32 <<< (8 * (2 - len.val)))

/-- R131 to R136, after the length check: `Encode` writes `W1`, `W2` and `CSUM`. -/
def encodeFrame (seq ctype : Byte) (len : Fin 3) (p0 p1 : Byte) (w : Work) : Work :=
  let w1 := frameW1 seq ctype len
  let w2 := payloadW2 len p0 p1
  let csum := checksum w1 w2
  { w with w1 := w1, w2 := insertChecksum len w2 csum, csum := csum }

/-- ENCODE (R130). -/
def execEncode (seq ctype len : Byte) (imm : Word) (s : State) : Result :=
  match legalLen len with
  | none => raise s (.invalidPayloadLength len) 0 false
  | some n =>
    let s := { s with work := encodeFrame seq ctype n (payload0 imm) (payload1 imm) s.work }
    succeed s s.work.w1 s.work.w2

end Sys2Proof.Machine
end

