-- ==== Sys2Proof/Machine/Sequencer.lean ====
section
/-! DEFINITION. The Command Driver (41_sequencer.md): the procedures `Send` and `Fetch`, each resumable at the transport call it waits
at, and the operations SEND and FETCH. -/

namespace Sys2Proof.Machine

/-! ### Send -/

/-- R130 to R136, R152: the frame is encoded, `raw_len` and `step` become 0, and the calls begin. -/
def sendBegin (o : SendOwner) (seq ctype : Byte) (len : Fin 3) (p0 p1 : Byte) (s : State) : State :=
  { s with work := encodeFrame seq ctype len p0 p1 s.work, rawLen := 0, seqStep := 0, activity := .sending o }

/-- A write of a 64-bit value (R8: `hi32` is the upper half). -/
def writeCall (addr : Nat) (v : DWord) : Call := .write addr (hi32 v) (lo32 v)

/-- R151: calls 1 to 7 of a SEND, in their fixed order. -/
def sendWrites (bus : OpenParams) (w1 w2 : Word) : List Call :=
  [writeCall bus.ctrlA bus.vInitA, writeCall bus.ctrlB bus.vInitB, writeCall bus.addrReg bus.vCmdAddr,
   writeCall bus.addrReg bus.vCmdAddr, .write bus.dataReg w1 w2, writeCall bus.attnReg bus.vAttn,
   writeCall bus.addrReg bus.vRspAddr]

/-- R151: call 8 of a SEND, and every call of a FETCH (R163). -/
def dataRead (bus : OpenParams) : Call := .read bus.dataReg

/-- R160: a Send whose call `seqStep + 1` answered `err` ends. -/
def sendBroken (s : State) : Proc :=
  .raised (.transportError (BitVec.ofNat 8 (s.seqStep + 1))) { s with seqStep := 0 }

/-- R160: call `seqStep + 1` is answered `err`. -/
def sendFailed (c : Call) (rest : List Answer) (s : State) : Proc := sendBroken (s.answered c rest)

/-- R153 to R157: the writes that remain, one answer each. -/
def runWrites : List Call → State → Proc
  | [], s => .done s
  | c :: cs, s =>
    match s.answers with
    | [] => .waiting s
    | .err :: rest => sendFailed c rest s
    | .ok _ :: rest => runWrites cs { s.answered c rest with seqStep := s.seqStep + 1 }

/-- R158: `MemWrite(0, 8, b)` and `raw_len <- 8`. -/
def storeHead (b : Vector Byte 8) (s : State) : State :=
  { s with raw := s.raw.writeBytes 0 b.toList, rawLen := 8, seqStep := 8 }

/-- R159: the return status. `last_status` takes it, `step` returns to 0, and a non-zero status is a ProtocolError. -/
def sendStatus (s : State) : Proc :=
  let st := s.raw.read offStatus
  let s := { s with lastStatus := st, seqStep := 0 }
  if st = 0 then .done s else .raised (.protocolError st) s

/-- R158, R160: call 8. -/
def sendRead (s : State) : Proc :=
  match s.answers with
  | [] => .waiting s
  | .err :: rest => sendFailed (dataRead s.cfg.bus) rest s
  | .ok b :: rest => sendStatus (storeHead b (s.answered (dataRead s.cfg.bus) rest))

/-- R158, R159: what follows the writes: call 8 if it is still to come, and the return status. -/
def sendTail (s : State) : Proc := if s.seqStep < 8 then sendRead s else sendStatus s

/-- R150: a SEND from call `step + 1` on. -/
def sendRun (s : State) : Proc :=
  (runWrites ((sendWrites s.cfg.bus s.work.w1 s.work.w2).drop s.seqStep) s).andThen sendTail

/-- R151: call `step + 1` of a SEND. -/
def sendCall (s : State) : Call := (sendWrites s.cfg.bus s.work.w1 s.work.w2).getD s.seqStep (dataRead s.cfg.bus)

/-- R9: one call of a SEND with its answer, and nothing after it. `step` counts the call when it is answered `ok` (10_state.md R24). -/
def sendAnswered (o : SendOwner) (a : Answer) (rest : List Answer) (s : State) : State :=
  match a with
  | .err => { s.answered (sendCall s) rest with activity := .sendBroken o }
  | .ok b =>
    if s.seqStep < 7 then { s.answered (sendCall s) rest with seqStep := s.seqStep + 1 }
    else storeHead b (s.answered (sendCall s) rest)

/-- R159, R160: what RES_LO holds when a SEND or a SET_POWERCAP ends with an error: the status of a ProtocolError, else 0. -/
def statusResult : Err → Word
  | .protocolError st => st.setWidth 32
  | .invalidPayloadLength _ | .transportError _ | .badMagic | .noBlocks | .unsupportedSensorType _ => 0
  | .truncated _ | .outOfMemory _ | .noSuchSensor | .illegalOperation => 0

/-- The end of a SEND the host issued (R159, R160). -/
def endSend (p : Proc) : Result :=
  p.finish (fun s => succeed s 0 (s.lastStatus.setWidth 32)) (fun e s => raise s e (statusResult e) false)

/-- SEND (R150). -/
def execSend (seq ctype len : Byte) (imm : Word) (s : State) : Result :=
  match legalLen len with
  | none => raise s (.invalidPayloadLength len) 0 false
  | some n => endSend (sendRun (sendBegin .host seq ctype n (payload0 imm) (payload1 imm) s))

/-! ### Fetch -/

/-- R163: `total = min(L + 7, 4096)`. -/
def fetchTotal (len : Half) : Nat := min (len.toNat + 7) occDataMax

/-- R162: `L`, `total`, `foff` and `raw_len` before the first read. -/
def fetchBegin (o : FetchOwner) (s : State) : State :=
  let len := be16 s.raw offLen
  { s with work := { s.work with len := len, total := fetchTotal len, foff := 8 }, rawLen := 8, activity := .fetching o }

/-- R164: an answer's bytes at `raw[foff .. foff+7]`; `foff` and `raw_len` advance by 8. -/
def storeChunk (b : Vector Byte 8) (s : State) : State :=
  { s with raw := s.raw.writeBytes s.work.foff b.toList, rawLen := RawLen.ofNat (s.work.foff + 8),
           work := { s.work with foff := s.work.foff + 8 } }

/-- R165: a Fetch one of whose reads answered `err` ends. -/
def fetchBroken (s : State) : Proc := .raised (.transportError 9) s

/-- R162: the reads that remain, at most `n` of them. -/
def fetchLoop : Nat → State → Proc
  | 0, s => .done s
  | n + 1, s =>
    if s.work.foff < s.work.total then
      match s.answers with
      | [] => .waiting s
      | .err :: rest => fetchBroken (s.answered (dataRead s.cfg.bus) rest)
      | .ok b :: rest =>
        if s.work.foff + 8 ≤ occDataMax then
          fetchLoop n (storeChunk b (s.answered (dataRead s.cfg.bus) rest))
        else .halted .rawOverrun
    else .done s

/-- R162: the reads of a FETCH from offset `foff` on. Each moves `foff` up, so the distance to `total` bounds their number. -/
def fetchRun (s : State) : Proc := fetchLoop (s.work.total - s.work.foff) s

/-- R9: one read of a FETCH with its answer, and nothing after it. -/
def fetchAnswered (o : FetchOwner) (a : Answer) (rest : List Answer) (s : State) : Result :=
  match a with
  | .err => .next { s.answered (dataRead s.cfg.bus) rest with activity := .fetchBroken o }
  | .ok b =>
    if s.work.foff + 8 ≤ occDataMax then .next (storeChunk b (s.answered (dataRead s.cfg.bus) rest)) else .fault .rawOverrun

/-- The end of a FETCH the host issued (R162, R165). -/
def endFetch (p : Proc) : Result :=
  p.finish (fun s => succeed s 0 (BitVec.ofNat 32 s.rawLen.val)) (fun e s => raise s e 0 false)

/-- FETCH (R162): without a response head in the buffer it is illegal (R165). -/
def execFetch (s : State) : Result :=
  if s.rawLen.val < 8 then raiseIllegal s else endFetch (fetchRun (fetchBegin .host s))

end Sys2Proof.Machine
end

