-- ==== Sys2Proof/Machine/PollCache.lean ====
section
/-! DEFINITION. The Poll Cache (44_poll_cache.md): the procedure `Refresh`, the ends of the operations that poll, what an operation
does after its Send or Fetch, and the operations REFRESH and GET. -/

namespace Sys2Proof.Machine

/-- R246: a successful refresh marks the cache fresh at the NOW latched with the request. -/
def State.markFresh (s : State) : State :=
  { s with cache := { s.cache with valid := true, lastUpdated := s.now } }

/-- R244: the effects of a failed Send or Fetch of a poll. -/
def State.pollFailed (s : State) : State := s.deinit.invalidate

/-- R243: `Parse()` and the success effects. A failed parse has its own effects and nothing is added (R245). -/
def pollParse (s : State) : Proc := (parseProc s).andThen fun s => .done s.markFresh

/-- R243 after a Fetch. -/
def afterFetch (f : Proc) : Proc := (f.onRaise State.pollFailed).andThen pollParse

/-- R243 from the Fetch on. -/
def pollFetch (s : State) : Proc := afterFetch (fetchRun s)

/-- R243 after a Send; `p` is the operation the poll runs in. -/
def afterSend (p : PollOwner) (f : Proc) : Proc :=
  (f.onRaise State.pollFailed).andThen fun s => pollFetch (fetchBegin (.poll p) s)

/-- R243 from the Send on. -/
def pollSend (p : PollOwner) (s : State) : Proc := afterSend p (sendRun s)

/-- R243: the poll command is encoded (its length is legal by R8) and its Send begins. -/
def pollBegin (p : PollOwner) (s : State) : State :=
  let bus := s.cfg.bus
  sendBegin (.poll p) bus.pollSeq bus.pollType bus.pollLen (highByte bus.pollPayload) (lowByte bus.pollPayload) s

/-- R261: the lookup that ends a consumer read; a missing record is NoSuchSensor with UNAVAIL (R271, R313). -/
def readEnd (f : ReadField) (i : Nat) (s : State) : Result :=
  match s.dec.lookup f i with
  | none => raise s .noSuchSensor 0 true
  | some w => succeed s 0 w

/-- The end of REFRESH and of a GET that missed (R240, R243): RES is 1, or 0 with the error of the poll. -/
def endRefresh (p : Proc) : Result := p.finish (fun s => succeed s 0 1) (fun e s => raise s e 0 false)

/-- The end of a consumer read that polled (R261, R271). -/
def endRead (f : ReadField) (i : Nat) (p : Proc) : Result := p.finish (readEnd f i) (fun e s => raise s e 0 true)

/-- 45_consumer_ops.md R285: the end of a write of 1 to ONLINE. -/
def endOnline (p : Proc) : Result :=
  p.finish (fun s => succeed { s with online := true } 0 1) (fun e s => raise { s with online := false } e 0 false)

/-- 45_consumer_ops.md R277, R278: the end of a SET_POWERCAP of `v`. -/
def endPowercap (v : Half) (p : Proc) : Result :=
  p.finish (fun s => succeed { s with userPowercap := v } 0 0) (fun e s => raise s e (statusResult e) false)

/-- The end of the operation a poll runs in. -/
def endPoll (o : PollOwner) (p : Proc) : Result :=
  match o with
  | .refresh => endRefresh p
  | .get => endRefresh p
  | .online => endOnline p
  | .read f i => endRead f i p

/-- A poll from its first call, as part of operation `o` (R243). -/
def runPoll (o : PollOwner) (s : State) : Result := endPoll o (pollSend o (pollBegin o s))

/-- What the operation does whose Send comes to `f` (R23: it runs to completion or to an error). -/
def closeSend (o : SendOwner) (f : Proc) : Result :=
  match o with
  | .host => endSend f
  | .powercap v => endPowercap v f
  | .poll p => endPoll p (afterSend p f)

/-- What the operation does whose Fetch comes to `f`. -/
def closeFetch (o : FetchOwner) (f : Proc) : Result :=
  match o with
  | .host => endFetch f
  | .poll p => endPoll p (afterFetch f)

/-- REFRESH (R243). -/
def execRefresh (s : State) : Result := runPoll .refresh s

/-- GET (R240): a fresh cache costs no transport call. -/
def execGet (s : State) : Result :=
  if fresh s.cfg s.cache s.now then succeed s 0 0 else runPoll .get s

end Sys2Proof.Machine
end

