-- ==== Sys2Proof/Machine/Consumer.lean ====
section
/-! DEFINITION. The consumer reads, the inspection operations and SET_POWERCAP (45_consumer_ops.md sections 1 to 3). -/

namespace Sys2Proof.Machine

/-- R261: `Read(T, i, field)`: `Get()` at the request's NOW, then the lookup. -/
def consumerRead (f : ReadField) (i : Nat) (s : State) : Result :=
  if fresh s.cfg s.cache s.now then readEnd f i s else runPoll (.read f i) s

/-- RD_TEMP (R262). -/
def execRdTemp (index : Half) (s : State) : Result := consumerRead .tempValue index.toNat s
/-- RD_TEMP_ID (R263). -/
def execRdTempId (index : Half) (s : State) : Result := consumerRead .tempId index.toNat s
/-- RD_FREQ (R264). -/
def execRdFreq (index : Half) (s : State) : Result := consumerRead .freqValue index.toNat s
/-- RD_FREQ_ID (R265). -/
def execRdFreqId (index : Half) (s : State) : Result := consumerRead .freqId index.toNat s
/-- RD_POWR (R266). -/
def execRdPowr (index : Half) (s : State) : Result := consumerRead .powrValue index.toNat s
/-- RD_POWR_ID (R267). -/
def execRdPowrId (index : Half) (s : State) : Result := consumerRead .powrId index.toNat s
/-- RD_POWR_TAG (R268). -/
def execRdPowrTag (index : Half) (s : State) : Result := consumerRead .powrTag index.toNat s
/-- RD_POWR_ACC (R269). -/
def execRdPowrAcc (index : Half) (s : State) : Result := consumerRead .powrAcc index.toNat s

/-- RD_CAPS (R270): a field number above 5 is illegal before any poll; the record read is always record 0. -/
def execRdCaps (index : Half) (s : State) : Result :=
  match capsFieldOf index with
  | none => raiseIllegal s
  | some f => consumerRead (.caps f) 0 s

/-- RD_BLK (R272): no poll, fresh or not. -/
def execRdBlk (index : Half) (s : State) : Result :=
  match s.dec.blocks[index.toNat]? with
  | none => raise s .noSuchSensor 0 true
  | some e => succeed s e.tag ((0 : Byte) ++ e.format ++ e.rl ++ e.count)

/-- RD_HDR (R273): no poll. -/
def execRdHdr (index : Half) (s : State) : Result :=
  if 39 < index.toNat then raiseIllegal s else succeed s 0 ((s.dec.hdrByte index.toNat).setWidth 32)

/-- SET_POWERCAP (R275, R276): the payload is the value, most significant byte first. -/
def execSetPowercap (value : Half) (s : State) : Result :=
  endPowercap value
    (sendRun (sendBegin (.powercap value) s.cfg.bus.capSeq s.cfg.bus.capType 2 (highByte value) (lowByte value) s))

end Sys2Proof.Machine
end

