-- ==== Sys2Proof/Machine/Registers.lean ====
section
/-! DEFINITION. CSRR and CSRW (45_consumer_ops.md section 4). -/

namespace Sys2Proof.Machine

/-- CSRR (R283): a read has no side effect; reserved numbers are illegal. -/
def execCsrr (csr : Byte) (s : State) : Result :=
  match csrValue s csr.toNat with
  | none => raiseIllegal s
  | some v => succeed s 0 v

/-- R286: `interval` takes IMM, zero-extended or truncated to `TIME_W` bits. -/
def writeInterval (imm : Word) (s : State) : Result :=
  succeed { s with cache := { s.cache with interval := wrapTime s.cfg imm.toNat } } 0 0

/-- R285: a write to ONLINE; only bit 0 of IMM counts. -/
def writeOnline (imm : Word) (s : State) : Result :=
  if imm.getLsbD 0 then runPoll .online s
  else succeed { s.deinit.invalidate with online := false } 0 0

/-- CSRW (R284): registers 0 and 1 can be written; every other number is illegal. -/
def execCsrw (csr : Byte) (imm : Word) (s : State) : Result :=
  match csr.toNat with
  | 0 => writeInterval imm s
  | 1 => writeOnline imm s
  | _ => raiseIllegal s

end Sys2Proof.Machine
end

