-- ==== Sys2Proof/Machine/Dispatch.lean ====
section
/-! DEFINITION. One arm per operation: the meaning of an accepted operation (10_state.md R21). -/

namespace Sys2Proof.Machine

def exec (i : Instr) (s : State) : Host.Outcome State Fault Refusal :=
  match i with
  | .encode seq ctype len imm => Sys2Proof.Machine.execEncode seq ctype len imm s
  | .send seq ctype len imm => Sys2Proof.Machine.execSend seq ctype len imm s
  | .fetch => Sys2Proof.Machine.execFetch s
  | .parse => Sys2Proof.Machine.execParse s
  | .deinit => Sys2Proof.Machine.execDeinit s
  | .refresh => Sys2Proof.Machine.execRefresh s
  | .get => Sys2Proof.Machine.execGet s
  | .rdTemp index => Sys2Proof.Machine.execRdTemp index s
  | .rdTempId index => Sys2Proof.Machine.execRdTempId index s
  | .rdFreq index => Sys2Proof.Machine.execRdFreq index s
  | .rdFreqId index => Sys2Proof.Machine.execRdFreqId index s
  | .rdPowr index => Sys2Proof.Machine.execRdPowr index s
  | .rdPowrId index => Sys2Proof.Machine.execRdPowrId index s
  | .rdPowrTag index => Sys2Proof.Machine.execRdPowrTag index s
  | .rdPowrAcc index => Sys2Proof.Machine.execRdPowrAcc index s
  | .rdCaps index => Sys2Proof.Machine.execRdCaps index s
  | .rdBlk index => Sys2Proof.Machine.execRdBlk index s
  | .rdHdr index => Sys2Proof.Machine.execRdHdr index s
  | .setPowercap value => Sys2Proof.Machine.execSetPowercap value s
  | .csrr csr => Sys2Proof.Machine.execCsrr csr s
  | .csrw csr imm => Sys2Proof.Machine.execCsrw csr imm s

end Sys2Proof.Machine
end

