-- ==== Sys2Proof/Machine/Fetch.lean ====
section
/-! DEFINITION. From an accepted request to its operation (30_encoding.md R94, R95), the continuation of an operation in progress, and one
transaction of it (00_scope.md R9). -/

namespace Sys2Proof.Machine

/-- The latched words are decoded and their operation executed; a word that names no operation completes with IllegalOperation (R94, R311). -/
def runLatched (s : State) : Result :=
  match decode s.opw s.imm with
  | .ok i => exec i s
  | .error _ => raiseIllegal s

/-- The operation in progress goes on from where it stands, as far as the answers at hand go (R23: to completion or to an error). -/
def resume (s : State) : Result :=
  match s.activity with
  | .idle => .fault .lockWithoutOperation
  | .accepted => runLatched s
  | .sending o => closeSend o (sendRun s)
  | .sendBroken o => closeSend o (sendBroken s)
  | .fetching o => closeFetch o (fetchRun s)
  | .fetchBroken o => closeFetch o (fetchBroken s)

/-- R9: one transaction. `r` is what the operation comes to without a further answer: it is over, and that is its completion; or its next
call is due, and the call is issued and takes the first of the answers. Without an answer the block has no next step (R357). -/
def transact (answers : List Answer) (r : Result) : Result :=
  match r with
  | .fault f => .fault f
  | .refused e => .refused e
  | .next t =>
    match t.activity, answers with
    | .sending _, [] => .fault .transportSilent
    | .fetching _, [] => .fault .transportSilent
    | .sending o, a :: rest => .next (sendAnswered o a rest t)
    | .fetching o, a :: rest => fetchAnswered o a rest t
    | .idle, _ => .next { t with answers := answers }
    | .accepted, _ => .next { t with answers := answers }
    | .sendBroken _, _ => .next { t with answers := answers }
    | .fetchBroken _, _ => .next { t with answers := answers }

/-- R9: one transaction of the operation in progress. -/
def advance (s : State) : Result := transact s.answers (resume { s with answers := [] })

end Sys2Proof.Machine
end

