-- ==== Sys2Proof/Machine/Step.lean ====
section
/-! DEFINITION. One step of the machine (00_scope.md R9): accepting a request, one transport call with its answer, or completing; with no
request the block waits in IDLE. -/

namespace Sys2Proof.Machine

/-- One step (00_scope.md R9, 10_state.md R21). -/
def step (s : State) : Host.Outcome State Fault Refusal :=
  if s.busy then advance s
  else
    match s.requests with
    | [] => .next s
    | r :: rest => .next (s.accept r rest)

/-- The state in which the given word has just been accepted, so that the next step runs its operation. An operation that begins with a
transport call takes an answer for it: where none is at hand the call is answered `ok` (log entry 3). -/
def State.withFetchWord (s : State) (nbits w : Nat) : State :=
  { s with opw := (tableWords nbits w).1, imm := (tableWords nbits w).2, busy := true, activity := .accepted,
           answers := if s.answers = [] then [.ok (Vector.replicate 8 0)] else s.answers }

end Sys2Proof.Machine
end

