-- ==== Sys2Proof/Safety.lean ====
section
/-! DEFINITION. The terms claims use: the invariants of the spec (10_state.md R37 and the ranges of R24 to R26, R33, R39), and what a
parse leaves stated without the loop (42_parser.md R203). -/

namespace Sys2Proof.Machine

/-! ### Invariants -/

/-- R37 (a) to (e), with the size of the block table (R33). -/
structure Decoded.Consistent (cfg : Config) (d : Decoded) : Prop where
  emptyTable : d.nblocks = 0 → ∀ T, d.idx.get T = none ∧ d.recCount T = 0
  indexNames : ∀ T i, d.idx.get T = some i → ∃ e, d.blocks[i]? = some e ∧ e.tag = SensorType.tag T
  countsAgree : ∀ T i e, d.idx.get T = some i → d.blocks[i]? = some e → 0 < d.recCount T → d.recCount T = e.count.toNat
  absentEmpty : ∀ T, d.idx.get T = none → d.recCount T = 0
  storesFit : ∀ T, d.recCount T ≤ cfg.maxRec.get T
  tableFits : d.nblocks ≤ cfg.maxBlocks ∧ d.nblocks ≤ 255

/-- The decoded response is consistent, and a cache marked valid holds a snapshot with at least one block. -/
structure State.SnapshotOk (s : State) : Prop where
  consistent : s.dec.Consistent s.cfg
  validHolds : s.cache.valid = true → 0 < s.dec.nblocks

/-- R26, R61: the raw buffer is in its canonical form and lists nothing outside `raw[0..4095]`. -/
structure State.RawOk (s : State) : Prop where
  canonical : s.raw.wf = true
  inside : ∀ a, 4096 ≤ a → s.raw.read a = 0

/-- R23 to R26: the lock is held exactly while an operation is in progress, `step` counts the calls of a SEND, and a FETCH in progress
stands at a multiple of 8, at most one chunk past `total`. -/
structure State.Sequenced (s : State) : Prop where
  lock : s.busy = true ↔ s.activity ≠ .idle
  restStep : s.activity = .idle ∨ s.activity = .accepted → s.seqStep = 0
  sending : ∀ o, s.activity = .sending o → s.seqStep ≤ 8 ∧ s.rawLen.val = if s.seqStep = 8 then 8 else 0
  sendBroken : ∀ o, s.activity = .sendBroken o → s.seqStep ≤ 7 ∧ s.rawLen = 0
  fetching : ∀ o, s.activity = .fetching o ∨ s.activity = .fetchBroken o →
    s.seqStep = 0 ∧ 8 ≤ s.work.foff ∧ s.work.foff % 8 = 0 ∧ s.work.foff < s.work.total + 8 ∧ s.work.total ≤ 4096 ∧
      s.rawLen.val = s.work.foff
  fetchBroken : ∀ o, s.activity = .fetchBroken o → s.work.foff < s.work.total

/-- R21, R39: the three time-valued registers fit in `TIME_W` bits. -/
structure State.TimesFit (s : State) : Prop where
  now : s.now < 2 ^ s.cfg.timeW
  lastUpdated : s.cache.lastUpdated < 2 ^ s.cfg.timeW
  interval : s.cache.interval < 2 ^ s.cfg.timeW

/-- The operation is over: its result is published and BUSY is 0. -/
def State.finished (s : State) : Prop := s.activity = .idle ∧ s.busy = false

/-- `n` steps, one after another (R9). -/
def runSteps : Nat → State → Result
  | 0, s => .next s
  | n + 1, s =>
    match step s with
    | .next t => runSteps n t
    | .fault f => .fault f
    | .refused r => .refused r

/-! ### Words and registers, field by field -/

/-- R94: the legal operation words, by opcode, zero fields and operand range. -/
def legalWord (opw : Word) : Bool :=
  match (opw.extractLsb' 24 8).toNat with
  | 0x01 | 0x02 => true
  | 0x03 | 0x04 | 0x05 | 0x06 | 0x07 => opw.extractLsb' 0 24 == 0
  | 0x10 | 0x11 | 0x12 | 0x13 | 0x14 | 0x15 | 0x16 | 0x17 | 0x19 | 0x20 => opw.extractLsb' 16 8 == 0
  | 0x18 => opw.extractLsb' 16 8 == 0 && decide ((opw.extractLsb' 0 16).toNat ≤ 5)
  | 0x1A => opw.extractLsb' 16 8 == 0 && decide ((opw.extractLsb' 0 16).toNat ≤ 39)
  | 0x30 => opw.extractLsb' 8 16 == 0 && decide ((opw.extractLsb' 0 8).toNat ≤ 11)
  | 0x31 => opw.extractLsb' 8 16 == 0 && decide ((opw.extractLsb' 0 8).toNat ≤ 1)
  | _ => false

/-- R301: ERR as flags, `info`, `code`; bit 0 of the flags is `UNAVAIL`, bit 1 is `INVALID_VALUE`. -/
def errReg (flags : Half) (info code : Byte) : Word := flags ++ info ++ code

/-- R301, R304: the flags of a ProtocolError with the given status. -/
def statusFlags (cfg : Config) (status : Byte) : Half := if status = cfg.bus.statusInvalidValue then 2 else 0

/-! ### Command frames (R98) -/

/-- R137 (a): the sum of the bytes of a frame, payload bytes counted only below `len`. -/
def frameSum (seq ctype len p0 p1 : Byte) : Nat :=
  seq.toNat + ctype.toNat + len.toNat + (if 0 < len.toNat then p0.toNat else 0) + (if 1 < len.toNat then p1.toNat else 0)

/-- R98: bytes 0 to 3 of the frame. -/
def frameHead (seq ctype len : Byte) : Word := seq ++ ctype ++ (0 : Byte) ++ len

/-- R98: bytes 4 to 7 of the frame, by its three layouts. -/
def frameTail (seq ctype len p0 p1 : Byte) : Word :=
  let c : Half := BitVec.ofNat 16 (frameSum seq ctype len p0 p1)
  if len = 0 then c ++ (0 : Half) else if len = 1 then p0 ++ c ++ (0 : Byte) else p0 ++ p1 ++ c

/-- The state with the frame in `W1`, `W2` and its checksum in `CSUM` (R130, R136). -/
def State.framed (s : State) (seq ctype len p0 p1 : Byte) : State :=
  { s with work := { s.work with w1 := frameHead seq ctype len, w2 := frameTail seq ctype len p0 p1,
                                 csum := BitVec.ofNat 16 (frameSum seq ctype len p0 p1) } }

/-- R276: the state with the frame of a SET_POWERCAP of `v`. -/
def State.framedPowercap (s : State) (v : Half) : State :=
  s.framed s.cfg.bus.capSeq s.cfg.bus.capType 2 (v.extractLsb' 8 8) (v.extractLsb' 0 8)

/-- R243: the state with the frame of the poll command. -/
def State.framedPoll (s : State) : State :=
  s.framed s.cfg.bus.pollSeq s.cfg.bus.pollType (BitVec.ofNat 8 s.cfg.bus.pollLen.val)
    (s.cfg.bus.pollPayload.extractLsb' 8 8) (s.cfg.bus.pollPayload.extractLsb' 0 8)

/-! ### Frames sent, responses fetched, polls, in closed form -/

/-- R151: the eight transport calls of a SEND of the frame `(w1, w2)`. -/
def commandCalls (bus : OpenParams) (w1 w2 : Word) : List Call :=
  [.write bus.ctrlA (bus.vInitA.extractLsb' 32 32) (bus.vInitA.extractLsb' 0 32),
   .write bus.ctrlB (bus.vInitB.extractLsb' 32 32) (bus.vInitB.extractLsb' 0 32),
   .write bus.addrReg (bus.vCmdAddr.extractLsb' 32 32) (bus.vCmdAddr.extractLsb' 0 32),
   .write bus.addrReg (bus.vCmdAddr.extractLsb' 32 32) (bus.vCmdAddr.extractLsb' 0 32),
   .write bus.dataReg w1 w2,
   .write bus.attnReg (bus.vAttn.extractLsb' 32 32) (bus.vAttn.extractLsb' 0 32),
   .write bus.addrReg (bus.vRspAddr.extractLsb' 32 32) (bus.vRspAddr.extractLsb' 0 32),
   .read bus.dataReg]

/-- Seven writes answered `ok`, the read answered `b`, then `rest` (R150). -/
def State.answersSend (s : State) (oks : List (Vector Byte 8)) (b : Vector Byte 8) (rest : List Answer) : Prop :=
  oks.length = 7 ∧ s.answers = oks.map .ok ++ .ok b :: rest

/-- R150 to R159: the state after the eight calls of a SEND of the frame in `W1`, `W2`. -/
def State.sent (s : State) (b : Vector Byte 8) (rest : List Answer) : State :=
  { s with calls := s.calls ++ commandCalls s.cfg.bus s.work.w1 s.work.w2, answers := rest,
           raw := s.raw.writeBytes 0 b.toList, rawLen := 8, lastStatus := b[2] }

/-- R160: the state when call `n + 1` of a SEND of the frame in `W1`, `W2` answered `err`. -/
def State.sendAborted (s : State) (n : Nat) (rest : List Answer) : State :=
  { s with calls := s.calls ++ (commandCalls s.cfg.bus s.work.w1 s.work.w2).take (n + 1), answers := rest, rawLen := 0 }

/-- R163: the number of reads of a FETCH for a declared length `L`, `max(0, ceil(total / 8) - 1)`. -/
def fetchReads (len : Half) : Nat := (min (len.toNat + 7) 4096 + 7) / 8 - 1

/-- R162 to R164: the state after the first reads of a FETCH, which answered `chunks`; `extra` further calls were answered `err`. -/
def State.fetched (s : State) (chunks : List (Vector Byte 8)) (extra : Nat) (rest : List Answer) : State :=
  { s with calls := s.calls ++ List.replicate (chunks.length + extra) (.read s.cfg.bus.dataReg), answers := rest,
           raw := s.raw.writeBytes 8 (chunks.flatMap fun b => b.toList),
           rawLen := RawLen.ofNat (8 + 8 * chunks.length),
           work := { s.work with len := be16 s.raw 3, total := min ((be16 s.raw 3).toNat + 7) 4096,
                                 foff := 8 + 8 * chunks.length } }

/-- The answers of a poll: seven writes answered `ok`, the head `b` with status 0, and every chunk the declared length asks for. -/
def State.answersPoll (s : State) (oks : List (Vector Byte 8)) (b : Vector Byte 8) (chunks : List (Vector Byte 8))
    (rest : List Answer) : Prop :=
  s.answersSend oks b (chunks.map .ok ++ rest) ∧ b[2] = 0 ∧ chunks.length = fetchReads (b[3] ++ b[4])

/-- R243: the state in which a poll starts its Parse, after `Send` and `Fetch`. -/
def State.polled (s : State) (b : Vector Byte 8) (chunks : List (Vector Byte 8)) (rest : List Answer) : State :=
  (s.framedPoll.sent b (chunks.map .ok ++ rest)).fetched chunks 0 rest

/-! ### Kinds of operation -/

/-- R262 to R270: the consumer reads, with the scalar and the record each asks for; an RD_CAPS of a field above 5 is none. -/
def readOf : Instr → Option (ReadField × Nat)
  | .rdTemp i => some (.tempValue, i.toNat)
  | .rdTempId i => some (.tempId, i.toNat)
  | .rdFreq i => some (.freqValue, i.toNat)
  | .rdFreqId i => some (.freqId, i.toNat)
  | .rdPowr i => some (.powrValue, i.toNat)
  | .rdPowrId i => some (.powrId, i.toNat)
  | .rdPowrTag i => some (.powrTag, i.toNat)
  | .rdPowrAcc i => some (.powrAcc, i.toNat)
  | .rdCaps i => (capsFieldOf i).map fun c => (.caps c, 0)
  | .encode _ _ _ _ | .send _ _ _ _ | .fetch | .parse | .deinit | .refresh | .get | .rdBlk _ | .rdHdr _ => none
  | .setPowercap _ | .csrr _ | .csrw _ _ => none

/-- R363: the operations that may issue transport calls: SEND, FETCH, SET_POWERCAP and the ones that may poll. -/
def mayCall (s : State) (i : Instr) : Bool :=
  match i with
  | .send _ _ _ _ | .fetch | .refresh | .setPowercap _ => true
  | .get => !fresh s.cfg s.cache s.now
  | .csrw csr imm => csr == 1 && imm.getLsbD 0
  | .encode _ _ _ _ | .parse | .deinit | .rdBlk _ | .rdHdr _ | .csrr _ => false
  | .rdTemp _ | .rdTempId _ | .rdFreq _ | .rdFreqId _ | .rdPowr _ | .rdPowrId _ | .rdPowrTag _ | .rdPowrAcc _ | .rdCaps _ =>
    (readOf i).isSome && !fresh s.cfg s.cache s.now

/-! ### What a response declares (R110, R203) -/

/-- The sub-header at offset `c` (30_encoding.md R105). -/
def entryAt (m : Memory) (c : Nat) : BlockEntry := ⟨be32 m c, m.read (c + 5), m.read (c + 6), m.read (c + 7)⟩

/-- `c_b` of R203: `c_0 = 45`, `c_(b+1) = c_b + 8 + rl_b * cnt_b`. -/
def blockStart (m : Memory) : Nat → Nat
  | 0 => offBlk0
  | b + 1 =>
    blockStart m b + subhdrBytes + (entryAt m (blockStart m b)).rl.toNat * (entryAt m (blockStart m b)).count.toNat

/-- The entry of block `b`. -/
def declared (m : Memory) (b : Nat) : BlockEntry := entryAt m (blockStart m b)

/-- R203: a block is non-empty when its record length and its count are not 0. -/
def BlockEntry.nonEmpty (e : BlockEntry) : Bool := e.rl != 0 && e.count != 0

/-- R203: the largest `b < n` whose tag is that of `T` and that is non-empty. -/
def lastNonEmpty (m : Memory) (T : SensorType) : Nat → Option Nat
  | 0 => none
  | n + 1 =>
    if (declared m n).tag = SensorType.tag T ∧ (declared m n).nonEmpty = true then some n else lastNonEmpty m T n

/-- R203: the store of `T` is exactly the records decoded at `c + 8 + s * rl`, `s` below the count of `e`. -/
def Decoded.storeHolds (d : Decoded) (m : Memory) (T : SensorType) (c : Nat) (e : BlockEntry) : Prop :=
  match T with
  | .freq => d.freq = (List.range e.count.toNat).map fun s => sensorRecAt m (c + subhdrBytes + s * e.rl.toNat)
  | .temp => d.temp = (List.range e.count.toNat).map fun s => sensorRecAt m (c + subhdrBytes + s * e.rl.toNat)
  | .powr => d.powr = (List.range e.count.toNat).map fun s => powrRecAt m (c + subhdrBytes + s * e.rl.toNat)
  | .caps => d.caps = (List.range e.count.toNat).map fun s => capsRecAt m (c + subhdrBytes + s * e.rl.toNat)

/-- The tests PARSE makes on block `b` (R190 to R197), with the bound `limit`. -/
structure BlockFits (cfg : Config) (m : Memory) (limit b : Nat) : Prop where
  subHeader : blockStart m b + subhdrBytes ≤ limit
  known : typeOfTag (declared m b).tag ≠ none
  capacity : ∀ T, typeOfTag (declared m b).tag = some T → (declared m b).nonEmpty = true →
    (declared m b).count.toNat ≤ cfg.maxRec.get T
  extent : (declared m b).nonEmpty = true → blockStart m (b + 1) ≤ limit
  records : ∀ T, typeOfTag (declared m b).tag = some T → (declared m b).nonEmpty = true →
    ∀ s, s < (declared m b).count.toNat →
      blockStart m b + subhdrBytes + s * (declared m b).rl.toNat + recSize T ≤ limit

/-- What PARSE tests before its commit point (R181 to R186). -/
structure HeaderAccepted (m : Memory) (rawLen : Nat) : Prop where
  reach : 45 ≤ parseLimit rawLen (be16 m offLen)
  eyeCatcher : magicPresent m = true
  someBlock : m.read offNblk ≠ 0

/-- Everything PARSE tests on a response (R180). -/
structure Accepted (cfg : Config) (m : Memory) (rawLen : Nat) : Prop where
  header : HeaderAccepted m rawLen
  table : (m.read offNblk).toNat ≤ cfg.maxBlocks
  blocks : ∀ b, b < (m.read offNblk).toNat → BlockFits cfg m (parseLimit rawLen (be16 m offLen)) b

/-- R187: the envelope scalars and the header are those of the response in `m`. -/
structure Decoded.EnvelopeOf (d : Decoded) (m : Memory) (rawLen : Nat) : Prop where
  seq : d.rspSeq = m.read 0
  ctype : d.rspType = m.read 1
  status : d.rspStatus = m.read 2
  len : d.rspLen = be16 m 3
  checksum : d.rspChecksum = if (be16 m 3).toNat + 7 ≤ rawLen then be16 m (5 + (be16 m 3).toNat) else 0
  header : ∀ k, k < 40 → d.hdrByte k = m.read (5 + k)

/-- R203: the decoded response is exactly what the response in `m` declares. -/
structure Decoded.ParsedFrom (d : Decoded) (m : Memory) (rawLen : Nat) : Prop where
  envelope : d.EnvelopeOf m rawLen
  table : d.blocks = (List.range (m.read offNblk).toNat).map (declared m)
  index : ∀ T, d.idx.get T = lastNonEmpty m T (m.read offNblk).toNat
  records : ∀ T i, lastNonEmpty m T (m.read offNblk).toNat = some i →
    (∀ j, i < j → j < (m.read offNblk).toNat → (declared m j).tag ≠ SensorType.tag T) →
    d.storeHolds m T (blockStart m i) (declared m i)
  released : ∀ T i j, lastNonEmpty m T (m.read offNblk).toNat = some i → i < j → j < (m.read offNblk).toNat →
    (declared m j).tag = SensorType.tag T → d.recCount T = 0
  absent : ∀ T, lastNonEmpty m T (m.read offNblk).toNat = none → d.recCount T = 0

/-- R31, R34: the envelope scalars and the header of two responses agree. -/
structure Decoded.SameEnvelope (d e : Decoded) : Prop where
  seq : d.rspSeq = e.rspSeq
  ctype : d.rspType = e.rspType
  status : d.rspStatus = e.rspStatus
  len : d.rspLen = e.rspLen
  checksum : d.rspChecksum = e.rspChecksum
  header : d.hdrRaw = e.hdrRaw

/-- The store of one type of two responses agrees. -/
def Decoded.SameStore (d e : Decoded) (T : SensorType) : Prop :=
  match T with
  | .freq => d.freq = e.freq
  | .temp => d.temp = e.temp
  | .powr => d.powr = e.powr
  | .caps => d.caps = e.caps

/-- The state with the decoded response emptied (R38, R228) and the cache marked `Stale`; all else as it was. -/
def State.emptied (s : State) : State :=
  { s with dec := { s.dec with blocks := [], idx := ⟨none, none, none, none⟩, freq := [], temp := [], powr := [], caps := [] },
           cache := { s.cache with valid := false } }

end Sys2Proof.Machine
end

