-- ==== Sys2Proof/WellFormed.lean ====
section
/-! DEFINITION. Which operations are legal words (30_encoding.md R94): the operand ranges that the format's zero fields do
not already settle. An ill-formed operation still has its meaning: it completes with IllegalOperation (R311). -/

namespace Sys2Proof

/-- R94: RD_CAPS with index at most 5, RD_HDR with index at most 39, CSRR with a register number at most 11, CSRW of a
register that can be written (0 and 1, 10_state.md R41). A length above 2 is a legal word that fails when executed (R91). -/
def Instr.wellFormed : Instr → Bool
  | .rdCaps index => decide (index.toNat ≤ 5)
  | .rdHdr index => decide (index.toNat ≤ 39)
  | .csrr csr => decide (csr.toNat ≤ 11)
  | .csrw csr _ => decide (csr.toNat ≤ 1)
  | .encode _ _ _ _ | .send _ _ _ _ | .fetch | .parse | .deinit | .refresh | .get => true
  | .rdTemp _ | .rdTempId _ | .rdFreq _ | .rdFreqId _ | .rdPowr _ | .rdPowrId _ => true
  | .rdPowrTag _ | .rdPowrAcc _ | .rdBlk _ | .setPowercap _ => true

end Sys2Proof
end

