-- ==== Sys2Proof/Certificates/Slice0/Obligations.lean ====
section
/-! DEFINITION. The statements about the model, one `def Obligations.<Name> : Prop` each. They come from the numbered rules of the spec;
OBLIGATIONS.json says which rule each formalises. A completed operation is written as `State.complete`: RES, ERR, BUSY = 0, `step` = 0,
no operation in progress, everything else as in the state before it. -/

open Sys2Proof Sys2Proof.Machine

/-! ### Operation words (30_encoding.md) -/

/-- R90, R93: every operation, with every operand, is read back from its words. -/
def Obligations.DecodeEncodeRoundTrip : Prop :=
  ∀ i : Instr, decode (encode i).1 (encode i).2 = .ok i

/-- R90, R92, R95: a word that decodes to an operation is that operation's word, and IMM matters to ENCODE, SEND and CSRW only. -/
def Obligations.DecodedWordIsTheEncoding : Prop :=
  ∀ (i : Instr) (opw imm : Word), decode opw imm = .ok i → opw = (encode i).1 ∧ (i.usesImm = true → imm = (encode i).2)

/-- R93, R95: the decoder accepts exactly the words of the 21 rows of the opcode table. -/
def Obligations.DecoderFollowsOpcodeTable : Prop :=
  ∀ opw imm : Word, (∃ i, decode opw imm = .ok i) ↔ ∃ r ∈ opcodeRows, r.matches opw = true

/-- R94: a word is legal exactly when it decodes to an operation whose operand is in range. -/
def Obligations.LegalWordsAreWellFormedOperations : Prop :=
  ∀ opw imm : Word, legalWord opw = true ↔ ∃ i, decode opw imm = .ok i ∧ i.wellFormed = true

/-- R90, R92, R93: words of each format, written out. -/
def Obligations.SampleWordsDecode : Prop :=
  decode 0x01002202 0x00000010 = .ok (.encode 0x00 0x22 0x02 0x00000010) ∧
  decode 0x02AB2201 0x00001000 = .ok (.send 0xAB 0x22 0x01 0x00001000) ∧
  decode 0x03000000 0 = .ok .fetch ∧
  decode 0x07000000 0xFFFFFFFF = .ok .get ∧
  decode 0x10000102 0 = .ok (.rdTemp 0x0102) ∧
  decode 0x2000012C 0 = .ok (.setPowercap 300) ∧
  decode 0x30000008 0 = .ok (.csrr 8) ∧
  decode 0x31000001 0x00000001 = .ok (.csrw 1 1) ∧
  decode 0 0 = .error .unknownOpcode ∧
  decode 0x04000001 0 = .error .reservedField

/-! ### Steps (10_state.md R21, 60_exceptions.md, 70_reset_and_hazards.md) -/

/-- R21: while BUSY is 0 the request presented is accepted: it latches OPW, IMM and NOW (`TIME_W` bits) and sets BUSY; then the operation
its words decode to runs, one transaction a step (R9; log entry 4): as far as it needs no answer, and if it ends there its result is
published, else its first call takes the first answer. With no request presented the block does nothing (R320; log entry 7). -/
def Obligations.StepRunsTheDecodedOperation : Prop :=
  (∀ (s : State) (r : Request) (rest : List Request), s.busy = false → s.requests = r :: rest →
    step s = .next { s with opw := r.opw, imm := r.imm, now := r.now % 2 ^ s.cfg.timeW, busy := true, requests := rest,
                            activity := .accepted }) ∧
  (∀ (s : State) (i : Instr), s.busy = true → s.activity = .accepted → decode s.opw s.imm = .ok i →
    step s = transact s.answers (exec i { s with answers := [] }) ∧
    ∀ t, exec i { s with answers := [] } = .next t →
      (t.activity = .idle → step s = .next { t with answers := s.answers }) ∧
      (∀ o a rest, t.activity = .sending o → s.answers = a :: rest → step s = .next (sendAnswered o a rest t)) ∧
      ∀ o a rest, t.activity = .fetching o → s.answers = a :: rest → step s = fetchAnswered o a rest t) ∧
  ∀ s : State, s.busy = false → s.requests = [] → step s = .next s

/-- R94: an accepted request with an illegal word completes with IllegalOperation and no other effect. -/
def Obligations.IllegalWordRaises : Prop :=
  ∀ s : State, s.busy = true → s.activity = .accepted → legalWord s.opw = false →
    step s = .next (s.complete 0 (errReg 0 0 0x0A))

/-- R21, R23: while BUSY is 1 no request is accepted: those presented wait, the latched words stay, and the step does not depend on what
waits. That they wait in a list is the model's choice (log entry 3). -/
def Obligations.BusyHoldsRequestsBack : Prop :=
  ∀ (s t : State) (q : List Request), s.busy = true → step s = .next t →
    t.requests = s.requests ∧ t.opw = s.opw ∧ t.imm = s.imm ∧ t.now = s.now ∧
    step { s with requests := q } = .next { t with requests := q }

/-- R346: every operation is legal in every state: it always answers a next state, in which it has completed, or waits with no answer left
and BUSY as it was. The waiting states are the model's choice (log entry 4). -/
def Obligations.EveryOperationRuns : Prop :=
  ∀ (i : Instr) (s : State), ∃ t, exec i s = .next t ∧ (t.finished ∨ (t.activity ≠ .idle ∧ t.answers = [] ∧ t.busy = s.busy))

/-- R357: an operation whose next call the transport never answers has no next step (log entry 6), and in a state in sequence that is the
only way a step can stop. -/
def Obligations.StepStopsOnlyOnSilence : Prop :=
  (∀ s : State, s.busy = true → s.answers = [] →
    ((∃ o, s.activity = .sending o) ∧ s.seqStep < 8 ∨ (∃ o, s.activity = .fetching o) ∧ s.work.foff < s.work.total) →
    step s = .fault .transportSilent) ∧
  ∀ s : State, s.Sequenced → (∀ r, step s ≠ .refused r) ∧
    (∀ f, step s = .fault f → f = .transportSilent ∧ s.busy = true ∧ s.answers = [])

/-- R9, R23, R76: an accepted operation runs in steps as `exec` runs it at once: one step for each call, one for its completion, and the
same result; without the answers it needs it stops (R357; log entry 6). And how its answers are split changes nothing: one that waited goes
on with the answers `b` as if all had been at hand, and one that ended leaves those it did not need. How `exec` and `step` divide the work
is the model's choice (log entry 4). -/
def Obligations.StepsRunTheOperation : Prop :=
  (∀ (i : Instr) (s t : State), s.busy = true → s.activity = .accepted → decode s.opw s.imm = .ok i → exec i s = .next t →
    let n := t.calls.length - s.calls.length
    (t.finished → runSteps (n + 1) s = .next t) ∧ (¬ t.finished → runSteps (n + 1) s = .fault .transportSilent)) ∧
  ∀ (i : Instr) (s t : State) (a b : List Answer), exec i { s with answers := a } = .next t →
    (t.activity = .idle → exec i { s with answers := a ++ b } = .next { t with answers := t.answers ++ b }) ∧
    (t.activity ≠ .idle → exec i { s with answers := a ++ b } = resume { t with answers := b })

/-- R9: a step accepts the request presented, or issues one transport call and receives its answer, or completes the request and publishes
its result. (Nothing in progress and no request presented: log entry 7.) -/
def Obligations.StepIsOneTransaction : Prop :=
  ∀ s t : State, s.busy = true ∨ s.requests ≠ [] → step s = .next t →
    (s.busy = false ∧ (∃ r, s.requests = r :: t.requests ∧ t = s.accept r t.requests) ∧ t.busy = true ∧ t.calls = s.calls ∧
      t.answers = s.answers ∧ t.res = s.res ∧ t.err = s.err) ∨
    (s.busy = true ∧ t.busy = true ∧ (∃ a c, s.answers = a :: t.answers ∧ t.calls = s.calls ++ [c]) ∧ t.res = s.res ∧ t.err = s.err) ∨
    (s.busy = true ∧ t.finished ∧ t.calls = s.calls ∧ t.answers = s.answers)

/-- Operations that cannot need the transport issue no call, and no operation issues more than 519: the table of R363, which the spec marks
as its own inference. -/
def Obligations.CallsPerOperation : Prop :=
  ∀ (i : Instr) (s t : State), exec i s = .next t →
    (mayCall s i = false → t.calls = s.calls ∧ t.answers = s.answers) ∧ t.calls.length ≤ s.calls.length + 519

/-! ### Reset (10_state.md R45) -/

/-- R45: every element the table gives a value, for any parameters. -/
def Obligations.ResetValues : Prop :=
  ∀ cfg : Config,
    let s := State.resetWith cfg
    s.busy = false ∧ s.seqStep = 0 ∧ s.res = 0 ∧ s.err = 0 ∧ s.rawLen = 0 ∧ s.lastStatus = 0 ∧
    s.dec.rspSeq = 0 ∧ s.dec.rspType = 0 ∧ s.dec.rspStatus = 0 ∧ s.dec.rspLen = 0 ∧ s.dec.rspChecksum = 0 ∧
    (∀ k, k < 40 → s.dec.hdrByte k = 0) ∧ s.dec.nblocks = 0 ∧ s.dec.blocks = [] ∧
    s.dec.idx = ⟨none, none, none, none⟩ ∧ (∀ T, s.dec.recCount T = 0) ∧
    s.cache.valid = false ∧ s.cache.lastUpdated = 0 ∧ s.cache.interval = 1 ∧ s.online = false ∧ s.userPowercap = 0 ∧
    s.activity = .idle

/-- The state after reset satisfies the invariants of every step: R37, which the spec marks as its own inference, and the model's own (log
entries 4 and 9). `State.reset` is the case of the default capacities of R7, which is the model's choice (log entry 1). -/
def Obligations.ResetMeetsInvariants : Prop :=
  (∀ cfg : Config, 0 < cfg.timeW → (State.resetWith cfg).SnapshotOk ∧ (State.resetWith cfg).RawOk ∧
    (State.resetWith cfg).Sequenced ∧ (State.resetWith cfg).TimesFit) ∧
  ∃ bus : OpenParams, State.reset =
    State.resetWith { maxRec := ⟨10, 22, 11, 1⟩, maxBlocks := 255, timeW := 32, bus := bus }

/-! ### Invariants of every step -/

/-- The decoded response stays consistent (R37, which the spec marks as its own inference), and a cache marked valid keeps holding a
snapshot. -/
def Obligations.StepKeepsSnapshotConsistent : Prop :=
  ∀ s t : State, s.SnapshotOk → step s = .next t → t.SnapshotOk

/-- R26, R61: the raw buffer stays inside its 4096 bytes and in canonical form, which is the model's choice (log entry 9). -/
def Obligations.StepKeepsRawBuffer : Prop :=
  ∀ s t : State, s.RawOk → step s = .next t → t.RawOk

/-- R21, R23, R24, R164: the lock is held exactly while an operation is in progress, and the counters stay where their rules put them. The
waiting states are the model's choice (log entry 4). -/
def Obligations.StepKeepsSequence : Prop :=
  ∀ s t : State, s.Sequenced → step s = .next t → t.Sequenced

/-- R21, R39: time values stay within `TIME_W` bits. -/
def Obligations.StepKeepsTimesInWidth : Prop :=
  ∀ s t : State, s.TimesFit → step s = .next t → t.TimesFit

/-! ### The raw buffer -/

/-- R69: storing bytes: the stored bytes read back in order, and every other offset reads as before. -/
def Obligations.RawReadAfterWrite : Prop :=
  ∀ (m : Memory) (a : Nat) (bytes : List Byte) (x : Nat),
    (∀ k, (h : k < bytes.length) → (m.writeBytes a bytes).read (a + k) = bytes[k]) ∧
    ((x < a ∨ a + bytes.length ≤ x) → (m.writeBytes a bytes).read x = m.read x)

/-- R26: which bytes of the raw buffer an operation may change. SEND and SET_POWERCAP store at offsets 0 to 7; FETCH at offsets 8 to
`raw_len - 1` of its final `raw_len`; the operations that poll below the larger of 8 and the final `raw_len`; every other operation, and
ENCODE and PARSE among them, stores nothing. -/
def Obligations.RawBufferFrame : Prop :=
  ∀ (i : Instr) (s t : State), exec i s = .next t → ∀ a : Nat,
    (match i with
      | .send _ _ _ _ | .setPowercap _ => 8 ≤ a
      | .fetch => a < 8 ∨ t.rawLen.val ≤ a
      | .refresh | .get | .csrw _ _ | .rdTemp _ | .rdTempId _ | .rdFreq _ | .rdFreqId _ | .rdPowr _ | .rdPowrId _
      | .rdPowrTag _ | .rdPowrAcc _ | .rdCaps _ => 8 ≤ a ∧ t.rawLen.val ≤ a
      | .encode _ _ _ _ | .parse | .deinit | .rdBlk _ | .rdHdr _ | .csrr _ => True) →
    t.raw.read a = s.raw.read a

/-! ### ENCODE and SEND -/

/-- R98, R134: ENCODE of a payload of at most 2 bytes. -/
def Obligations.EncodeBuildsFrame : Prop :=
  ∀ (seq ctype len : Byte) (imm : Word) (s : State), len.toNat ≤ 2 →
    exec (.encode seq ctype len imm) s =
      .next ((s.framed seq ctype len (imm.extractLsb' 8 8) (imm.extractLsb' 0 8)).complete
        (frameHead seq ctype len ++ frameTail seq ctype len (imm.extractLsb' 8 8) (imm.extractLsb' 0 8)) 0)

/-- R305: a payload length above 2 is refused by ENCODE and SEND before anything else happens. -/
def Obligations.LongPayloadRefused : Prop :=
  ∀ (seq ctype len : Byte) (imm : Word) (s : State), 2 < len.toNat →
    exec (.encode seq ctype len imm) s = .next (s.complete 0 (errReg 0 len 0x01)) ∧
    exec (.send seq ctype len imm) s = .next (s.complete 0 (errReg 0 len 0x01))

/-- R151, R158, R159, R304: a SEND whose eight calls are answered `ok`: the calls in their order, the head stored, the status in
`last_status` and RES; a status that is not 0 is a ProtocolError with that status. -/
def Obligations.SendCompletes : Prop :=
  ∀ (seq ctype len : Byte) (imm : Word) (s : State) (oks : List (Vector Byte 8)) (b : Vector Byte 8) (rest : List Answer),
    len.toNat ≤ 2 → s.answersSend oks b rest →
    exec (.send seq ctype len imm) s =
      .next (((s.framed seq ctype len (imm.extractLsb' 8 8) (imm.extractLsb' 0 8)).sent b rest).complete
        (BitVec.setWidth 64 b[2]) (if b[2] = 0 then 0 else errReg (statusFlags s.cfg b[2]) b[2] 0x03))

/-- R160: a SEND whose call `n + 1` is answered `err`: later calls are not issued, no byte is stored, `raw_len` is 0. -/
def Obligations.SendStopsAtTransportError : Prop :=
  ∀ (seq ctype len : Byte) (imm : Word) (s : State) (oks : List (Vector Byte 8)) (rest : List Answer),
    len.toNat ≤ 2 → oks.length ≤ 7 → s.answers = oks.map .ok ++ .err :: rest →
    exec (.send seq ctype len imm) s =
      .next (((s.framed seq ctype len (imm.extractLsb' 8 8) (imm.extractLsb' 0 8)).sendAborted oks.length rest).complete 0
        (errReg 0 (BitVec.ofNat 8 (oks.length + 1)) 0x02))

/-- R24: a SEND that has `n` answers, all `ok`, stands at `step = n` after the first `n` calls. Log entry 4. -/
def Obligations.SendWaitsAtItsStep : Prop :=
  ∀ (seq ctype len : Byte) (imm : Word) (s : State) (oks : List (Vector Byte 8)),
    len.toNat ≤ 2 → oks.length ≤ 7 → s.answers = oks.map .ok →
    exec (.send seq ctype len imm) s =
      .next { s.framed seq ctype len (imm.extractLsb' 8 8) (imm.extractLsb' 0 8) with
        calls := s.calls ++ (commandCalls s.cfg.bus (frameHead seq ctype len)
          (frameTail seq ctype len (imm.extractLsb' 8 8) (imm.extractLsb' 0 8))).take oks.length,
        answers := [], rawLen := 0, seqStep := oks.length, activity := .sending .host }

/-! ### FETCH -/

/-- R162 to R164: a FETCH after a response head, every read answered. -/
def Obligations.FetchCompletes : Prop :=
  ∀ (s : State) (chunks : List (Vector Byte 8)) (rest : List Answer), 8 ≤ s.rawLen.val →
    chunks.length = fetchReads (be16 s.raw 3) → s.answers = chunks.map .ok ++ rest →
    exec .fetch s = .next ((s.fetched chunks 0 rest).complete (BitVec.ofNat 64 (8 + 8 * chunks.length)) 0)

/-- R165: without a response head in the buffer FETCH is illegal and issues no call; a FETCH one of whose reads is answered `err` ends
there, and the chunks before it stay. -/
def Obligations.FetchErrors : Prop :=
  (∀ s : State, s.rawLen.val < 8 → exec .fetch s = .next (s.complete 0 (errReg 0 0 0x0A))) ∧
  ∀ (s : State) (chunks : List (Vector Byte 8)) (rest : List Answer), 8 ≤ s.rawLen.val →
    chunks.length < fetchReads (be16 s.raw 3) → s.answers = chunks.map .ok ++ .err :: rest →
    exec .fetch s = .next ((s.fetched chunks 1 rest).complete 0 (errReg 0 9 0x02))

/-- How many reads a FETCH that completes issues, and `raw_len` against `total` then: R164 and R166, which the spec marks as its own
inferences from R163. No read exactly when `L` is at most 1, and 511 exactly when `L` is at least 4082. -/
def Obligations.FetchLengthLaw : Prop :=
  ∀ s t : State, exec .fetch s = .next t → t.finished → t.err = 0 →
    let len := (be16 s.raw 3).toNat
    ∃ n : Nat, t.calls = s.calls ++ List.replicate n (.read s.cfg.bus.dataReg) ∧ n ≤ 511 ∧
      t.work.total = min (len + 7) 4096 ∧ t.rawLen.val = 8 + 8 * n ∧
      t.work.total ≤ t.rawLen.val ∧ t.rawLen.val ≤ max 8 (t.work.total + 7) ∧ t.rawLen.val ≤ 4096 ∧
      (n = 0 ↔ len ≤ 1) ∧ (n = 511 ↔ 4082 ≤ len)

/-! ### PARSE -/

/-- R203, which the spec marks as its own inference from R180 to R198: a response that passes every test. The decoded response is what the
response declares, RES is the final cursor and the block count, and nothing else changes but the working registers. -/
def Obligations.ParseRecoversResponse : Prop :=
  ∀ s : State, s.dec.Consistent s.cfg → Accepted s.cfg s.raw s.rawLen.val →
    ∃ (w : Work) (d : Decoded), d.ParsedFrom s.raw s.rawLen.val ∧
      exec .parse s = .next ({ s with work := w, dec := d }.complete
        (BitVec.ofNat 32 (blockStart s.raw (s.raw.read 43).toNat) ++ BitVec.ofNat 32 (s.raw.read 43).toNat) 0)

/-- R181 to R186, R200: failures before the commit point. The decoded response is left unchanged, `valid` is cleared. -/
def Obligations.ParseRejectsBeforeCommit : Prop :=
  ∀ s : State,
    let limit := min s.rawLen.val (5 + (be16 s.raw 3).toNat)
    let fails := fun err : Word => ∃ w : Work,
      exec .parse s = .next ({ s with work := w, cache := { s.cache with valid := false } }.complete 0 err)
    let eye := s.raw.read 37 = 0x53 ∧ s.raw.read 38 = 0x45 ∧ s.raw.read 39 = 0x4E ∧ s.raw.read 40 = 0x53 ∧
      s.raw.read 41 = 0x4F ∧ s.raw.read 42 = 0x52
    (limit < 43 → fails (errReg 0 0xFF 0x07)) ∧
    (43 ≤ limit → ¬ eye → fails (errReg 0 0 0x04)) ∧
    (limit = 43 → eye → fails (errReg 0 0xFF 0x07)) ∧
    (44 ≤ limit → eye → s.raw.read 43 = 0 → fails (errReg 0 0 0x05)) ∧
    (limit = 44 → eye → s.raw.read 43 ≠ 0 → fails (errReg 0 0xFF 0x07))

/-- R190 to R197, R199, R202: failures after the commit point. The first block that fails decides the error; the decoded response is
emptied but for its envelope and header, which are the new response's; `valid` is cleared. -/
def Obligations.ParseFailsAtFirstBadBlock : Prop :=
  ∀ (s : State) (b : Nat), s.dec.Consistent s.cfg → HeaderAccepted s.raw s.rawLen.val →
    let m := s.raw
    let limit := min s.rawLen.val (5 + (be16 m 3).toNat)
    let fails := fun err : Word => ∃ (w : Work) (d : Decoded),
      d.isEmpty = true ∧ d.EnvelopeOf m s.rawLen.val ∧
      exec .parse s = .next ({ s with work := w, dec := d, cache := { s.cache with valid := false } }.complete 0 err)
    let cnt := (declared m b).count.toNat
    let rl := (declared m b).rl.toNat
    (s.cfg.maxBlocks < (m.read 43).toNat → fails (errReg 0 0xFF 0x08)) ∧
    ((m.read 43).toNat ≤ s.cfg.maxBlocks → b < (m.read 43).toNat → (∀ j, j < b → BlockFits s.cfg m limit j) →
      (limit < blockStart m b + 8 → fails (errReg 0 (BitVec.ofNat 8 b) 0x07)) ∧
      (blockStart m b + 8 ≤ limit →
        ((∀ T, (declared m b).tag ≠ SensorType.tag T) → fails (errReg 0 (BitVec.ofNat 8 b) 0x06)) ∧
        (∀ T, (declared m b).tag = SensorType.tag T → (declared m b).nonEmpty = true →
          (s.cfg.maxRec.get T < cnt → fails (errReg 0 (BitVec.ofNat 8 b) 0x08)) ∧
          (cnt ≤ s.cfg.maxRec.get T →
            ((limit < blockStart m b + 8 + rl * cnt ∨
              ∃ k, k < cnt ∧ limit < blockStart m b + 8 + k * rl + recSize T) →
              fails (errReg 0 (BitVec.ofNat 8 b) 0x07))))))

/-- R203, which the spec marks as its own inference: the outcome of PARSE does not depend on the decoded response before it, except that a
response rejected before the commit point leaves that response in place. -/
def Obligations.ParseIgnoresOldResponse : Prop :=
  ∀ s t s' t' : State, s.dec.Consistent s.cfg → s'.dec.Consistent s'.cfg → s.cfg = s'.cfg → s.raw = s'.raw → s.rawLen = s'.rawLen →
    exec .parse s = .next t → exec .parse s' = .next t' →
    t.res = t'.res ∧ t.err = t'.err ∧ (t.dec = t'.dec ∨ (t.dec = s.dec ∧ t'.dec = s'.dec ∧ t.err ≠ 0))

/-- R26, R183: PARSE reads no byte at or above `raw_len`. -/
def Obligations.ParseReadsOnlyReceivedBytes : Prop :=
  ∀ (s t : State) (m : Memory), (∀ a, a < s.rawLen.val → m.read a = s.raw.read a) → exec .parse s = .next t →
    exec .parse { s with raw := m } = .next { t with raw := m }

/-- R205: the document's scenario, whatever the other bytes are: two blocks, their records, the final cursor, and a read of temperature
record 0 while the cache is fresh. -/
def Obligations.ParseDocumentScenario : Prop :=
  ∀ s : State, s.dec.Consistent s.cfg → 2 ≤ s.cfg.maxBlocks → 3 ≤ s.cfg.maxRec.temp → 1 ≤ s.cfg.maxRec.powr → 85 ≤ s.rawLen.val →
    be16 s.raw 3 = 80 → s.raw.read 43 = 2 →
    (List.range 6).map (fun k => s.raw.read (37 + k)) = [0x53, 0x45, 0x4E, 0x53, 0x4F, 0x52] →
    (List.range 40).map (fun k => s.raw.read (45 + k)) =
      [0x54, 0x45, 0x4D, 0x50, 0x00, 0x01, 0x04, 0x03, 0x00, 0x01, 0x00, 0xFA, 0x00, 0x02, 0x01, 0x2C, 0x00, 0x03, 0x01, 0x13,
       0x50, 0x4F, 0x57, 0x52, 0x00, 0x01, 0x0C, 0x01, 0x00, 0x0A, 0x00, 0x00, 0x00, 0x05, 0x00, 0x00, 0x03, 0xE8, 0x00, 0x2A] →
    ∃ t, exec .parse s = .next t ∧ t.err = 0 ∧ t.res = BitVec.ofNat 32 85 ++ BitVec.ofNat 32 2 ∧ t.dec.nblocks = 2 ∧
      t.dec.blocks = [⟨0x54454D50, 1, 4, 3⟩, ⟨0x504F5752, 1, 12, 1⟩] ∧
      t.dec.idx.temp = some 0 ∧ t.dec.idx.powr = some 1 ∧ t.dec.idx.freq = none ∧ t.dec.idx.caps = none ∧
      t.dec.temp = [⟨1, 250⟩, ⟨2, 300⟩, ⟨3, 275⟩] ∧ t.dec.powr = [⟨10, 5, 1000, 42⟩] ∧
      (fresh t.cfg t.cache t.now = true → exec (.rdTemp 0) t = .next (t.complete 250000 0))

/-! ### The Sensor Buffer Manager -/

/-- R220: `Renew`, case by case, on the store of `T`; the store of every other type, the indices, the block table, the envelope scalars and
the header stay. -/
def Obligations.RenewCases : Prop :=
  ∀ (maxRec : PerType Nat) (T : SensorType) (rl n : Byte) (b : Nat) (d : Decoded),
    let onlyStore := fun e : Decoded => (∀ U, U ≠ T → e.SameStore d U) ∧ e.idx = d.idx ∧ e.blocks = d.blocks ∧ e.SameEnvelope d
    ((n = 0 ∨ rl = 0) → ∃ e, renew maxRec T rl n b d = .noSensors e ∧ e.recCount T = 0 ∧ onlyStore e) ∧
    (n ≠ 0 → rl ≠ 0 → d.recCount T = n.toNat → renew maxRec T rl n b d = .ok d) ∧
    (n ≠ 0 → rl ≠ 0 → d.recCount T ≠ n.toNat → maxRec.get T < n.toNat → renew maxRec T rl n b d = .outOfMemory) ∧
    (n ≠ 0 → rl ≠ 0 → d.recCount T ≠ n.toNat → n.toNat ≤ maxRec.get T → ∃ e, renew maxRec T rl n b d = .ok e ∧
      e.recCount T = n.toNat ∧ onlyStore e)

/-- R229, R230: DEINIT always completes; it empties the decoded response and clears `valid`, and changes nothing else; issued twice it
leaves the same state as issued once. -/
def Obligations.DeinitEmptiesResponse : Prop :=
  ∀ s : State, exec .deinit s = .next (s.emptied.complete 0 0) ∧ s.emptied.dec.isEmpty = true ∧
    exec .deinit (s.emptied.complete 0 0) = .next (s.emptied.complete 0 0)

/-! ### The Poll Cache -/

/-- R241: the freshness test, with the difference taken modulo `2^TIME_W`. -/
def Obligations.FreshIsModularDifference : Prop :=
  ∀ (cfg : Config) (c : PollCache) (now : Nat),
    fresh cfg c now = true ↔
      c.valid = true ∧ ((now : Int) - (c.lastUpdated : Int)) % (2 ^ cfg.timeW : Int) < (c.interval : Int)

/-- R240, R242: a GET while the cache is fresh issues no call and writes nothing but RES and ERR; a GET while it is not fresh ends as a
REFRESH does. -/
def Obligations.GetHitsOrRefreshes : Prop :=
  (∀ s : State, fresh s.cfg s.cache s.now = true → exec .get s = .next (s.complete 0 0)) ∧
  ∀ s u : State, fresh s.cfg s.cache s.now = false → exec .refresh s = .next u → u.finished → exec .get s = .next u

/-- R243 to R246: REFRESH is the SEND of the poll command, FETCH and PARSE, in that order; a failure of the first two empties the decoded
response, a failure of the third adds nothing, and success marks the cache fresh at the latched NOW. -/
def Obligations.RefreshIsSendFetchParse : Prop :=
  ∀ s s1 : State,
    exec (.send s.cfg.bus.pollSeq s.cfg.bus.pollType (BitVec.ofNat 8 s.cfg.bus.pollLen.val) ((0 : Half) ++ s.cfg.bus.pollPayload)) s =
      .next s1 → s1.finished →
    (s1.err ≠ 0 → exec .refresh s = .next (s1.emptied.complete 0 s1.err)) ∧
    (s1.err = 0 → ∀ s2 : State, exec .fetch s1 = .next s2 → s2.finished →
      (s2.err ≠ 0 → exec .refresh s = .next (s2.emptied.complete 0 s2.err)) ∧
      (s2.err = 0 → ∀ s3 : State, exec .parse s2 = .next s3 →
        (s3.err ≠ 0 → exec .refresh s = .next s3) ∧
        (s3.err = 0 → exec .refresh s =
          .next ({ s3 with cache := { s3.cache with valid := true, lastUpdated := s.now } }.complete 1 0))))

/-- R243, R246, R203: a REFRESH whose poll is answered and whose response passes every test. -/
def Obligations.RefreshCompletes : Prop :=
  ∀ (s : State) (oks : List (Vector Byte 8)) (b : Vector Byte 8) (chunks : List (Vector Byte 8)) (rest : List Answer),
    s.dec.Consistent s.cfg → s.answersPoll oks b chunks rest →
    let p := s.polled b chunks rest
    Accepted s.cfg p.raw p.rawLen.val →
    ∃ (w : Work) (d : Decoded), d.ParsedFrom p.raw p.rawLen.val ∧
      exec .refresh s = .next ({ p with work := w, dec := d, cache := { s.cache with valid := true, lastUpdated := s.now } }.complete 1 0)

/-- R244: a poll whose command fails: by a transport error at call `n + 1`, by a non-zero status, or by a transport error of a read. The
decoded response is emptied and the cache marked stale. -/
def Obligations.PollFailureEmptiesResponse : Prop :=
  ∀ (s : State) (oks : List (Vector Byte 8)) (b : Vector Byte 8) (chunks : List (Vector Byte 8)) (rest : List Answer),
    (oks.length ≤ 7 → s.answers = oks.map .ok ++ .err :: rest →
      exec .refresh s = .next ((s.framedPoll.sendAborted oks.length rest).emptied.complete 0
        (errReg 0 (BitVec.ofNat 8 (oks.length + 1)) 0x02))) ∧
    (s.answersSend oks b rest → b[2] ≠ 0 →
      exec .refresh s = .next ((s.framedPoll.sent b rest).emptied.complete 0 (errReg (statusFlags s.cfg b[2]) b[2] 0x03))) ∧
    (s.answersSend oks b (chunks.map .ok ++ .err :: rest) → b[2] = 0 → chunks.length < fetchReads (b[3] ++ b[4]) →
      exec .refresh s = .next (((s.framedPoll.sent b (chunks.map .ok ++ .err :: rest)).fetched chunks 1 rest).emptied.complete 0
        (errReg 0 9 0x02)))

/-- R247, which the spec marks as its own inference from the rules it names: what writes `valid`. ENCODE, SEND, FETCH, SET_POWERCAP, RD_BLK,
RD_HDR and CSRR never; PARSE and DEINIT only clear it; a completed operation that sets it stamps the latched NOW and reports success. -/
def Obligations.ValidFlagWriters : Prop :=
  ∀ (i : Instr) (s t : State), exec i s = .next t →
    (match i with
      | .encode _ _ _ _ | .send _ _ _ _ | .fetch | .setPowercap _ | .rdBlk _ | .rdHdr _ | .csrr _ => t.cache.valid = s.cache.valid
      | .parse => t.cache.valid = true → s.cache.valid = true ∧ t.err = 0
      | .deinit => t.cache.valid = false
      | .refresh => t.finished → (t.cache.valid = true ↔ t.err = 0) ∧ (t.err = 0 → t.cache.lastUpdated = s.now)
      | .get | .csrw _ _ | .rdTemp _ | .rdTempId _ | .rdFreq _ | .rdFreqId _ | .rdPowr _ | .rdPowrId _ | .rdPowrTag _ | .rdPowrAcc _
      | .rdCaps _ => t.cache.valid = true → s.cache.valid = false → t.cache.lastUpdated = s.now) ∧
    (t.cache.lastUpdated ≠ s.cache.lastUpdated → t.cache.valid = true ∧ t.cache.lastUpdated = s.now)

/-! ### Consumer reads and inspection -/

/-- R262 to R265: temperature (milli-degree) and frequency reads from a fresh cache. -/
def Obligations.TemperatureAndFrequencyReads : Prop :=
  ∀ (s : State) (i : Half) (r : SensorRec), fresh s.cfg s.cache s.now = true →
    (s.dec.idx.temp ≠ none → s.dec.temp[i.toNat]? = some r →
      exec (.rdTemp i) s = .next (s.complete (BitVec.ofNat 64 (r.value.toNat * 1000)) 0) ∧
      exec (.rdTempId i) s = .next (s.complete (r.id.setWidth 64) 0)) ∧
    (s.dec.idx.freq ≠ none → s.dec.freq[i.toNat]? = some r →
      exec (.rdFreq i) s = .next (s.complete (r.value.setWidth 64) 0) ∧
      exec (.rdFreqId i) s = .next (s.complete (r.id.setWidth 64) 0))

/-- R266 to R269: power reads from a fresh cache. -/
def Obligations.PowerReads : Prop :=
  ∀ (s : State) (i : Half) (r : PowrRec), fresh s.cfg s.cache s.now = true → s.dec.idx.powr ≠ none → s.dec.powr[i.toNat]? = some r →
    exec (.rdPowr i) s = .next (s.complete (r.value.setWidth 64) 0) ∧
    exec (.rdPowrId i) s = .next (s.complete (r.id.setWidth 64) 0) ∧
    exec (.rdPowrTag i) s = .next (s.complete (r.updateTag.setWidth 64) 0) ∧
    exec (.rdPowrAcc i) s = .next (s.complete (r.accumulator.setWidth 64) 0)

/-- R270: capping reads from a fresh cache: record 0, the six fields in order; a field number above 5 is illegal, fresh or not. -/
def Obligations.CappingReads : Prop :=
  (∀ (s : State) (r : CapsRec), fresh s.cfg s.cache s.now = true → s.dec.idx.caps ≠ none → s.dec.caps[0]? = some r →
    exec (.rdCaps 0) s = .next (s.complete (r.currCap.setWidth 64) 0) ∧
    exec (.rdCaps 1) s = .next (s.complete (r.currReading.setWidth 64) 0) ∧
    exec (.rdCaps 2) s = .next (s.complete (r.normCap.setWidth 64) 0) ∧
    exec (.rdCaps 3) s = .next (s.complete (r.maxCap.setWidth 64) 0) ∧
    exec (.rdCaps 4) s = .next (s.complete (r.minCap.setWidth 64) 0) ∧
    exec (.rdCaps 5) s = .next (s.complete (r.userLimit.setWidth 64) 0)) ∧
  ∀ (s : State) (f : Half), 5 < f.toNat → exec (.rdCaps f) s = .next (s.complete 0 (errReg 0 0 0x0A))

/-- R271, R313: a read from a fresh cache of a type without a tracked block, or of a record at or above the count, is NoSuchSensor with
UNAVAIL set. -/
def Obligations.MissingSensorIsUnavailable : Prop :=
  ∀ (s : State) (i : Instr) (f : ReadField) (n : Nat), readOf i = some (f, n) → fresh s.cfg s.cache s.now = true →
    (s.dec.idx.get f.sensor = none ∨ s.dec.recCount f.sensor ≤ n) → exec i s = .next (s.complete 0 (errReg 1 0 0x09))

/-- R261: a consumer read takes a fresh cache as it is and otherwise polls first; an error of the poll is passed on with UNAVAIL set, else
the record is looked up in the response that is then stored. -/
def Obligations.ReadRunsGetThenLooksUp : Prop :=
  ∀ (s : State) (i : Instr) (f : ReadField) (n : Nat), readOf i = some (f, n) →
    let looksUp := fun u : State => (∀ w, u.dec.lookup f n = some w → exec i s = .next (u.complete (w.setWidth 64) 0)) ∧
      (u.dec.lookup f n = none → exec i s = .next (u.complete 0 (errReg 1 0 0x09)))
    (fresh s.cfg s.cache s.now = true → looksUp s) ∧
    (fresh s.cfg s.cache s.now = false → ∀ u : State, exec .refresh s = .next u → u.finished →
      (u.err ≠ 0 → exec i s = .next (u.complete 0 (u.err ||| 0x00010000))) ∧ (u.err = 0 → looksUp u))

/-- R272: RD_BLK returns the entry of an existing block and reports NoSuchSensor for any other number. -/
def Obligations.RdBlkReturnsEntry : Prop :=
  ∀ (s : State) (i : Half),
    (∀ e, s.dec.blocks[i.toNat]? = some e →
      exec (.rdBlk i) s = .next (s.complete (e.tag ++ (0 : Byte) ++ e.format ++ e.rl ++ e.count) 0)) ∧
    (s.dec.nblocks ≤ i.toNat → exec (.rdBlk i) s = .next (s.complete 0 (errReg 1 0 0x09)))

/-- R273: RD_HDR returns a byte of the stored header; a byte number above 39 is illegal. -/
def Obligations.RdHdrReturnsByte : Prop :=
  ∀ (s : State) (k : Half),
    ((h : k.toNat < 40) → exec (.rdHdr k) s = .next (s.complete (s.dec.hdrRaw[k.toNat].setWidth 64) 0)) ∧
    (39 < k.toNat → exec (.rdHdr k) s = .next (s.complete 0 (errReg 0 0 0x0A)))

/-- R274: the inspection operations always complete, whatever the number, and change nothing but RES and ERR. -/
def Obligations.InspectionOnlyWritesResult : Prop :=
  ∀ (s : State) (i : Half) (n : Byte), ∀ op ∈ [Instr.rdBlk i, Instr.rdHdr i, Instr.csrr n],
    ∃ res err, exec op s = .next (s.complete res err)

/-! ### SET_POWERCAP and the registers -/

/-- R275 to R277: a SET_POWERCAP whose eight calls are answered `ok` with status 0 stores the value. -/
def Obligations.SetPowercapCompletes : Prop :=
  ∀ (v : Half) (s : State) (oks : List (Vector Byte 8)) (b : Vector Byte 8) (rest : List Answer), s.answersSend oks b rest → b[2] = 0 →
    exec (.setPowercap v) s = .next ({ (s.framedPowercap v).sent b rest with userPowercap := v }.complete 0 0)

/-- R278: a SET_POWERCAP that the device rejects or the transport fails changes no `user_powercap`, decoded response or cache. -/
def Obligations.SetPowercapFailureKeepsRegister : Prop :=
  ∀ (v : Half) (s : State) (oks : List (Vector Byte 8)) (b : Vector Byte 8) (rest : List Answer),
    (s.answersSend oks b rest → b[2] ≠ 0 → exec (.setPowercap v) s =
      .next (((s.framedPowercap v).sent b rest).complete (BitVec.setWidth 64 b[2]) (errReg (statusFlags s.cfg b[2]) b[2] 0x03))) ∧
    (oks.length ≤ 7 → s.answers = oks.map .ok ++ .err :: rest → exec (.setPowercap v) s =
      .next (((s.framedPowercap v).sendAborted oks.length rest).complete 0 (errReg 0 (BitVec.ofNat 8 (oks.length + 1)) 0x02)))

/-- R277: `user_powercap` is written in one place only: by a SET_POWERCAP, at the step in which it completes with status 0. -/
def Obligations.UserPowercapHasOneWriter : Prop :=
  (∀ s t : State, step s = .next t →
    (t.userPowercap ≠ s.userPowercap →
      s.busy = true ∧ s.activity = .sending (.powercap t.userPowercap) ∧ 8 ≤ s.seqStep ∧ t.finished ∧ t.err = 0 ∧ t.lastStatus = 0) ∧
    ∀ v, t.activity = .sending (.powercap v) → s.activity ≠ .sending (.powercap v) →
      s.activity = .accepted ∧ decode s.opw s.imm = .ok (.setPowercap v)) ∧
  ∀ (i : Instr) (s t : State), exec i s = .next t → t.userPowercap ≠ s.userPowercap →
    i = .setPowercap t.userPowercap ∧ t.finished ∧ t.err = 0 ∧ t.lastStatus = 0

/-- R283, R41: CSRR of each register, and of the reserved numbers. -/
def Obligations.CsrrReadsRegisters : Prop :=
  ∀ s : State,
    let reads := fun (n : Byte) (v : Word) => exec (.csrr n) s = .next (s.complete (v.setWidth 64) 0)
    reads 0 (BitVec.ofNat 32 s.cache.interval) ∧ reads 1 (if s.online then 1 else 0) ∧ reads 2 (if s.cache.valid then 1 else 0) ∧
    reads 3 (BitVec.ofNat 32 s.cache.lastUpdated) ∧ reads 4 ((0 : Half) ++ s.userPowercap) ∧
    reads 5 ((0 : BitVec 24) ++ s.lastStatus) ∧ reads 6 (BitVec.ofNat 32 s.rawLen.val) ∧
    reads 7 ((0 : BitVec 24) ++ BitVec.ofNat 8 s.dec.nblocks) ∧
    reads 8 (indexByte s.dec.idx.caps ++ indexByte s.dec.idx.powr ++ indexByte s.dec.idx.temp ++ indexByte s.dec.idx.freq) ∧
    reads 9 (BitVec.ofNat 8 s.dec.caps.length ++ BitVec.ofNat 8 s.dec.powr.length ++ BitVec.ofNat 8 s.dec.temp.length ++
      BitVec.ofNat 8 s.dec.freq.length) ∧
    reads 10 (s.dec.rspSeq ++ s.dec.rspType ++ s.dec.rspStatus ++ (0 : Byte)) ∧
    reads 11 (s.dec.rspLen ++ s.dec.rspChecksum) ∧
    ∀ n : Byte, 11 < n.toNat → exec (.csrr n) s = .next (s.complete 0 (errReg 0 0 0x0A))

/-- R286, R284: CSRW of INTERVAL writes the interval, in `TIME_W` bits, and nothing else; a register that is read-only or reserved is
refused and nothing changes. -/
def Obligations.CsrwIntervalAndRefusals : Prop :=
  ∀ (s : State) (imm : Word),
    exec (.csrw 0 imm) s = .next ({ s with cache := { s.cache with interval := imm.toNat % 2 ^ s.cfg.timeW } }.complete 0 0) ∧
    ∀ n : Byte, 1 < n.toNat → exec (.csrw n imm) s = .next (s.complete 0 (errReg 0 0 0x0A))

/-- R285: CSRW of ONLINE. Bit 0 of IMM alone decides: 0 tears down, 1 refreshes and `online` follows the outcome. -/
def Obligations.CsrwOnline : Prop :=
  ∀ (s : State) (imm : Word),
    (imm.getLsbD 0 = false → exec (.csrw 1 imm) s = .next ({ s.emptied with online := false }.complete 0 0)) ∧
    (imm.getLsbD 0 = true → ∀ u, exec .refresh s = .next u → u.finished →
      exec (.csrw 1 imm) s = .next { u with online := decide (u.err = 0) })

/-- R285: `online` gates nothing: every operation but a read or a write of the register ONLINE does the same whatever the flag is, and
leaves it. -/
def Obligations.OnlineGatesNothing : Prop :=
  ∀ (i : Instr) (s t : State) (b : Bool), i ≠ .csrr 1 → (∀ imm, i ≠ .csrw 1 imm) → exec i s = .next t →
    exec i { s with online := b } = .next { t with online := b }

/-! ### Errors (60_exceptions.md) -/

/-- R301, R302, R304: the ERR word of a completed operation: zero bits above 17, a code of the list, all 0 on success; INVALID_VALUE
exactly for a ProtocolError with that status; UNAVAIL exactly for an error other than IllegalOperation of a consumer read or RD_BLK. -/
def Obligations.ErrWordLayout : Prop :=
  ∀ (i : Instr) (s t : State), exec i s = .next t → t.finished →
    t.err.extractLsb' 18 14 = 0 ∧ (t.err.extractLsb' 0 8).toNat ≤ 10 ∧ (t.err.extractLsb' 0 8 = 0 → t.err = 0) ∧
    (t.err.getLsbD 17 = true ↔ t.err.extractLsb' 0 8 = 3 ∧ t.err.extractLsb' 8 8 = s.cfg.bus.statusInvalidValue) ∧
    (t.err.getLsbD 16 = true ↔ t.err ≠ 0 ∧ ((readOf i).isSome = true ∨ ∃ n, i = .rdBlk n))

/-- R312: which state an error leaves alone: every operation but PARSE, DEINIT, CSRW and the ones that poll keeps the decoded response and
the poll cache, whatever its outcome; an error other than of CSRW keeps `online` and the interval. -/
def Obligations.SnapshotFrame : Prop :=
  ∀ (i : Instr) (s t : State), exec i s = .next t →
    (match i with
      | .encode _ _ _ _ | .send _ _ _ _ | .fetch | .setPowercap _ | .rdBlk _ | .rdHdr _ | .csrr _ => t.dec = s.dec ∧ t.cache = s.cache
      | .parse | .deinit | .refresh | .get | .rdTemp _ | .rdTempId _ | .rdFreq _ | .rdFreqId _ | .rdPowr _ | .rdPowrId _
      | .rdPowrTag _ | .rdPowrAcc _ | .rdCaps _ | .csrw _ _ => True) ∧
    (match i with
      | .csrw _ _ => True
      | .encode _ _ _ _ | .send _ _ _ _ | .fetch | .parse | .deinit | .refresh | .get | .rdTemp _ | .rdTempId _ | .rdFreq _
      | .rdFreqId _ | .rdPowr _ | .rdPowrId _ | .rdPowrTag _ | .rdPowrAcc _ | .rdCaps _ | .rdBlk _ | .rdHdr _ | .setPowercap _
      | .csrr _ => t.online = s.online ∧ t.cache.interval = s.cache.interval)
end

