-- ==== Sys2Proof/Laws/State.lean ====
section
/-! SUPPORT. One lemma per field per update of the state, each true by definition, so that no proof unfolds a record update. -/

namespace Sys2Proof.Machine

@[simp] theorem State.accept_opw (s : State) (r : Request) (rest : List Request) :
    (s.accept r rest).opw = r.opw := rfl
@[simp] theorem State.accept_imm (s : State) (r : Request) (rest : List Request) :
    (s.accept r rest).imm = r.imm := rfl
@[simp] theorem State.accept_now (s : State) (r : Request) (rest : List Request) :
    (s.accept r rest).now = wrapTime s.cfg r.now := rfl
@[simp] theorem State.accept_res (s : State) (r : Request) (rest : List Request) :
    (s.accept r rest).res = s.res := rfl
@[simp] theorem State.accept_err (s : State) (r : Request) (rest : List Request) :
    (s.accept r rest).err = s.err := rfl
@[simp] theorem State.accept_work (s : State) (r : Request) (rest : List Request) :
    (s.accept r rest).work = s.work := rfl
@[simp] theorem State.accept_busy (s : State) (r : Request) (rest : List Request) :
    (s.accept r rest).busy = true := rfl
@[simp] theorem State.accept_seqStep (s : State) (r : Request) (rest : List Request) :
    (s.accept r rest).seqStep = s.seqStep := rfl
@[simp] theorem State.accept_raw (s : State) (r : Request) (rest : List Request) :
    (s.accept r rest).raw = s.raw := rfl
@[simp] theorem State.accept_rawLen (s : State) (r : Request) (rest : List Request) :
    (s.accept r rest).rawLen = s.rawLen := rfl
@[simp] theorem State.accept_lastStatus (s : State) (r : Request) (rest : List Request) :
    (s.accept r rest).lastStatus = s.lastStatus := rfl
@[simp] theorem State.accept_dec (s : State) (r : Request) (rest : List Request) :
    (s.accept r rest).dec = s.dec := rfl
@[simp] theorem State.accept_cache (s : State) (r : Request) (rest : List Request) :
    (s.accept r rest).cache = s.cache := rfl
@[simp] theorem State.accept_online (s : State) (r : Request) (rest : List Request) :
    (s.accept r rest).online = s.online := rfl
@[simp] theorem State.accept_userPowercap (s : State) (r : Request) (rest : List Request) :
    (s.accept r rest).userPowercap = s.userPowercap := rfl
@[simp] theorem State.accept_cfg (s : State) (r : Request) (rest : List Request) :
    (s.accept r rest).cfg = s.cfg := rfl
@[simp] theorem State.accept_requests (s : State) (r : Request) (rest : List Request) :
    (s.accept r rest).requests = rest := rfl
@[simp] theorem State.accept_answers (s : State) (r : Request) (rest : List Request) :
    (s.accept r rest).answers = s.answers := rfl
@[simp] theorem State.accept_calls (s : State) (r : Request) (rest : List Request) :
    (s.accept r rest).calls = s.calls := rfl
@[simp] theorem State.accept_activity (s : State) (r : Request) (rest : List Request) :
    (s.accept r rest).activity = .accepted := rfl

@[simp] theorem State.complete_opw (s : State) (res : DWord) (err : Word) :
    (s.complete res err).opw = s.opw := rfl
@[simp] theorem State.complete_imm (s : State) (res : DWord) (err : Word) :
    (s.complete res err).imm = s.imm := rfl
@[simp] theorem State.complete_now (s : State) (res : DWord) (err : Word) :
    (s.complete res err).now = s.now := rfl
@[simp] theorem State.complete_res (s : State) (res : DWord) (err : Word) :
    (s.complete res err).res = res := rfl
@[simp] theorem State.complete_err (s : State) (res : DWord) (err : Word) :
    (s.complete res err).err = err := rfl
@[simp] theorem State.complete_work (s : State) (res : DWord) (err : Word) :
    (s.complete res err).work = s.work := rfl
@[simp] theorem State.complete_busy (s : State) (res : DWord) (err : Word) :
    (s.complete res err).busy = false := rfl
@[simp] theorem State.complete_seqStep (s : State) (res : DWord) (err : Word) :
    (s.complete res err).seqStep = 0 := rfl
@[simp] theorem State.complete_raw (s : State) (res : DWord) (err : Word) :
    (s.complete res err).raw = s.raw := rfl
@[simp] theorem State.complete_rawLen (s : State) (res : DWord) (err : Word) :
    (s.complete res err).rawLen = s.rawLen := rfl
@[simp] theorem State.complete_lastStatus (s : State) (res : DWord) (err : Word) :
    (s.complete res err).lastStatus = s.lastStatus := rfl
@[simp] theorem State.complete_dec (s : State) (res : DWord) (err : Word) :
    (s.complete res err).dec = s.dec := rfl
@[simp] theorem State.complete_cache (s : State) (res : DWord) (err : Word) :
    (s.complete res err).cache = s.cache := rfl
@[simp] theorem State.complete_online (s : State) (res : DWord) (err : Word) :
    (s.complete res err).online = s.online := rfl
@[simp] theorem State.complete_userPowercap (s : State) (res : DWord) (err : Word) :
    (s.complete res err).userPowercap = s.userPowercap := rfl
@[simp] theorem State.complete_cfg (s : State) (res : DWord) (err : Word) :
    (s.complete res err).cfg = s.cfg := rfl
@[simp] theorem State.complete_requests (s : State) (res : DWord) (err : Word) :
    (s.complete res err).requests = s.requests := rfl
@[simp] theorem State.complete_answers (s : State) (res : DWord) (err : Word) :
    (s.complete res err).answers = s.answers := rfl
@[simp] theorem State.complete_calls (s : State) (res : DWord) (err : Word) :
    (s.complete res err).calls = s.calls := rfl
@[simp] theorem State.complete_activity (s : State) (res : DWord) (err : Word) :
    (s.complete res err).activity = .idle := rfl

@[simp] theorem State.answered_opw (s : State) (c : Call) (rest : List Answer) :
    (s.answered c rest).opw = s.opw := rfl
@[simp] theorem State.answered_imm (s : State) (c : Call) (rest : List Answer) :
    (s.answered c rest).imm = s.imm := rfl
@[simp] theorem State.answered_now (s : State) (c : Call) (rest : List Answer) :
    (s.answered c rest).now = s.now := rfl
@[simp] theorem State.answered_res (s : State) (c : Call) (rest : List Answer) :
    (s.answered c rest).res = s.res := rfl
@[simp] theorem State.answered_err (s : State) (c : Call) (rest : List Answer) :
    (s.answered c rest).err = s.err := rfl
@[simp] theorem State.answered_work (s : State) (c : Call) (rest : List Answer) :
    (s.answered c rest).work = s.work := rfl
@[simp] theorem State.answered_busy (s : State) (c : Call) (rest : List Answer) :
    (s.answered c rest).busy = s.busy := rfl
@[simp] theorem State.answered_seqStep (s : State) (c : Call) (rest : List Answer) :
    (s.answered c rest).seqStep = s.seqStep := rfl
@[simp] theorem State.answered_raw (s : State) (c : Call) (rest : List Answer) :
    (s.answered c rest).raw = s.raw := rfl
@[simp] theorem State.answered_rawLen (s : State) (c : Call) (rest : List Answer) :
    (s.answered c rest).rawLen = s.rawLen := rfl
@[simp] theorem State.answered_lastStatus (s : State) (c : Call) (rest : List Answer) :
    (s.answered c rest).lastStatus = s.lastStatus := rfl
@[simp] theorem State.answered_dec (s : State) (c : Call) (rest : List Answer) :
    (s.answered c rest).dec = s.dec := rfl
@[simp] theorem State.answered_cache (s : State) (c : Call) (rest : List Answer) :
    (s.answered c rest).cache = s.cache := rfl
@[simp] theorem State.answered_online (s : State) (c : Call) (rest : List Answer) :
    (s.answered c rest).online = s.online := rfl
@[simp] theorem State.answered_userPowercap (s : State) (c : Call) (rest : List Answer) :
    (s.answered c rest).userPowercap = s.userPowercap := rfl
@[simp] theorem State.answered_cfg (s : State) (c : Call) (rest : List Answer) :
    (s.answered c rest).cfg = s.cfg := rfl
@[simp] theorem State.answered_requests (s : State) (c : Call) (rest : List Answer) :
    (s.answered c rest).requests = s.requests := rfl
@[simp] theorem State.answered_answers (s : State) (c : Call) (rest : List Answer) :
    (s.answered c rest).answers = rest := rfl
@[simp] theorem State.answered_calls (s : State) (c : Call) (rest : List Answer) :
    (s.answered c rest).calls = s.calls ++ [c] := rfl
@[simp] theorem State.answered_activity (s : State) (c : Call) (rest : List Answer) :
    (s.answered c rest).activity = s.activity := rfl

@[simp] theorem State.invalidate_opw (s : State) :
    (s.invalidate).opw = s.opw := rfl
@[simp] theorem State.invalidate_imm (s : State) :
    (s.invalidate).imm = s.imm := rfl
@[simp] theorem State.invalidate_now (s : State) :
    (s.invalidate).now = s.now := rfl
@[simp] theorem State.invalidate_res (s : State) :
    (s.invalidate).res = s.res := rfl
@[simp] theorem State.invalidate_err (s : State) :
    (s.invalidate).err = s.err := rfl
@[simp] theorem State.invalidate_work (s : State) :
    (s.invalidate).work = s.work := rfl
@[simp] theorem State.invalidate_busy (s : State) :
    (s.invalidate).busy = s.busy := rfl
@[simp] theorem State.invalidate_seqStep (s : State) :
    (s.invalidate).seqStep = s.seqStep := rfl
@[simp] theorem State.invalidate_raw (s : State) :
    (s.invalidate).raw = s.raw := rfl
@[simp] theorem State.invalidate_rawLen (s : State) :
    (s.invalidate).rawLen = s.rawLen := rfl
@[simp] theorem State.invalidate_lastStatus (s : State) :
    (s.invalidate).lastStatus = s.lastStatus := rfl
@[simp] theorem State.invalidate_dec (s : State) :
    (s.invalidate).dec = s.dec := rfl
@[simp] theorem State.invalidate_cache (s : State) :
    (s.invalidate).cache = { s.cache with valid := false } := rfl
@[simp] theorem State.invalidate_online (s : State) :
    (s.invalidate).online = s.online := rfl
@[simp] theorem State.invalidate_userPowercap (s : State) :
    (s.invalidate).userPowercap = s.userPowercap := rfl
@[simp] theorem State.invalidate_cfg (s : State) :
    (s.invalidate).cfg = s.cfg := rfl
@[simp] theorem State.invalidate_requests (s : State) :
    (s.invalidate).requests = s.requests := rfl
@[simp] theorem State.invalidate_answers (s : State) :
    (s.invalidate).answers = s.answers := rfl
@[simp] theorem State.invalidate_calls (s : State) :
    (s.invalidate).calls = s.calls := rfl
@[simp] theorem State.invalidate_activity (s : State) :
    (s.invalidate).activity = s.activity := rfl

@[simp] theorem State.deinit_opw (s : State) :
    (s.deinit).opw = s.opw := rfl
@[simp] theorem State.deinit_imm (s : State) :
    (s.deinit).imm = s.imm := rfl
@[simp] theorem State.deinit_now (s : State) :
    (s.deinit).now = s.now := rfl
@[simp] theorem State.deinit_res (s : State) :
    (s.deinit).res = s.res := rfl
@[simp] theorem State.deinit_err (s : State) :
    (s.deinit).err = s.err := rfl
@[simp] theorem State.deinit_work (s : State) :
    (s.deinit).work = s.work := rfl
@[simp] theorem State.deinit_busy (s : State) :
    (s.deinit).busy = s.busy := rfl
@[simp] theorem State.deinit_seqStep (s : State) :
    (s.deinit).seqStep = s.seqStep := rfl
@[simp] theorem State.deinit_raw (s : State) :
    (s.deinit).raw = s.raw := rfl
@[simp] theorem State.deinit_rawLen (s : State) :
    (s.deinit).rawLen = s.rawLen := rfl
@[simp] theorem State.deinit_lastStatus (s : State) :
    (s.deinit).lastStatus = s.lastStatus := rfl
@[simp] theorem State.deinit_dec (s : State) :
    (s.deinit).dec = s.dec.deinit := rfl
@[simp] theorem State.deinit_cache (s : State) :
    (s.deinit).cache = s.cache := rfl
@[simp] theorem State.deinit_online (s : State) :
    (s.deinit).online = s.online := rfl
@[simp] theorem State.deinit_userPowercap (s : State) :
    (s.deinit).userPowercap = s.userPowercap := rfl
@[simp] theorem State.deinit_cfg (s : State) :
    (s.deinit).cfg = s.cfg := rfl
@[simp] theorem State.deinit_requests (s : State) :
    (s.deinit).requests = s.requests := rfl
@[simp] theorem State.deinit_answers (s : State) :
    (s.deinit).answers = s.answers := rfl
@[simp] theorem State.deinit_calls (s : State) :
    (s.deinit).calls = s.calls := rfl
@[simp] theorem State.deinit_activity (s : State) :
    (s.deinit).activity = s.activity := rfl

@[simp] theorem State.markFresh_opw (s : State) :
    (s.markFresh).opw = s.opw := rfl
@[simp] theorem State.markFresh_imm (s : State) :
    (s.markFresh).imm = s.imm := rfl
@[simp] theorem State.markFresh_now (s : State) :
    (s.markFresh).now = s.now := rfl
@[simp] theorem State.markFresh_res (s : State) :
    (s.markFresh).res = s.res := rfl
@[simp] theorem State.markFresh_err (s : State) :
    (s.markFresh).err = s.err := rfl
@[simp] theorem State.markFresh_work (s : State) :
    (s.markFresh).work = s.work := rfl
@[simp] theorem State.markFresh_busy (s : State) :
    (s.markFresh).busy = s.busy := rfl
@[simp] theorem State.markFresh_seqStep (s : State) :
    (s.markFresh).seqStep = s.seqStep := rfl
@[simp] theorem State.markFresh_raw (s : State) :
    (s.markFresh).raw = s.raw := rfl
@[simp] theorem State.markFresh_rawLen (s : State) :
    (s.markFresh).rawLen = s.rawLen := rfl
@[simp] theorem State.markFresh_lastStatus (s : State) :
    (s.markFresh).lastStatus = s.lastStatus := rfl
@[simp] theorem State.markFresh_dec (s : State) :
    (s.markFresh).dec = s.dec := rfl
@[simp] theorem State.markFresh_cache (s : State) :
    (s.markFresh).cache = { s.cache with valid := true, lastUpdated := s.now } := rfl
@[simp] theorem State.markFresh_online (s : State) :
    (s.markFresh).online = s.online := rfl
@[simp] theorem State.markFresh_userPowercap (s : State) :
    (s.markFresh).userPowercap = s.userPowercap := rfl
@[simp] theorem State.markFresh_cfg (s : State) :
    (s.markFresh).cfg = s.cfg := rfl
@[simp] theorem State.markFresh_requests (s : State) :
    (s.markFresh).requests = s.requests := rfl
@[simp] theorem State.markFresh_answers (s : State) :
    (s.markFresh).answers = s.answers := rfl
@[simp] theorem State.markFresh_calls (s : State) :
    (s.markFresh).calls = s.calls := rfl
@[simp] theorem State.markFresh_activity (s : State) :
    (s.markFresh).activity = s.activity := rfl

@[simp] theorem State.pollFailed_opw (s : State) :
    (s.pollFailed).opw = s.opw := rfl
@[simp] theorem State.pollFailed_imm (s : State) :
    (s.pollFailed).imm = s.imm := rfl
@[simp] theorem State.pollFailed_now (s : State) :
    (s.pollFailed).now = s.now := rfl
@[simp] theorem State.pollFailed_res (s : State) :
    (s.pollFailed).res = s.res := rfl
@[simp] theorem State.pollFailed_err (s : State) :
    (s.pollFailed).err = s.err := rfl
@[simp] theorem State.pollFailed_work (s : State) :
    (s.pollFailed).work = s.work := rfl
@[simp] theorem State.pollFailed_busy (s : State) :
    (s.pollFailed).busy = s.busy := rfl
@[simp] theorem State.pollFailed_seqStep (s : State) :
    (s.pollFailed).seqStep = s.seqStep := rfl
@[simp] theorem State.pollFailed_raw (s : State) :
    (s.pollFailed).raw = s.raw := rfl
@[simp] theorem State.pollFailed_rawLen (s : State) :
    (s.pollFailed).rawLen = s.rawLen := rfl
@[simp] theorem State.pollFailed_lastStatus (s : State) :
    (s.pollFailed).lastStatus = s.lastStatus := rfl
@[simp] theorem State.pollFailed_dec (s : State) :
    (s.pollFailed).dec = s.dec.deinit := rfl
@[simp] theorem State.pollFailed_cache (s : State) :
    (s.pollFailed).cache = { s.cache with valid := false } := rfl
@[simp] theorem State.pollFailed_online (s : State) :
    (s.pollFailed).online = s.online := rfl
@[simp] theorem State.pollFailed_userPowercap (s : State) :
    (s.pollFailed).userPowercap = s.userPowercap := rfl
@[simp] theorem State.pollFailed_cfg (s : State) :
    (s.pollFailed).cfg = s.cfg := rfl
@[simp] theorem State.pollFailed_requests (s : State) :
    (s.pollFailed).requests = s.requests := rfl
@[simp] theorem State.pollFailed_answers (s : State) :
    (s.pollFailed).answers = s.answers := rfl
@[simp] theorem State.pollFailed_calls (s : State) :
    (s.pollFailed).calls = s.calls := rfl
@[simp] theorem State.pollFailed_activity (s : State) :
    (s.pollFailed).activity = s.activity := rfl

@[simp] theorem State.withParse_opw (s : State) (p : ParseState) :
    (s.withParse p).opw = s.opw := rfl
@[simp] theorem State.withParse_imm (s : State) (p : ParseState) :
    (s.withParse p).imm = s.imm := rfl
@[simp] theorem State.withParse_now (s : State) (p : ParseState) :
    (s.withParse p).now = s.now := rfl
@[simp] theorem State.withParse_res (s : State) (p : ParseState) :
    (s.withParse p).res = s.res := rfl
@[simp] theorem State.withParse_err (s : State) (p : ParseState) :
    (s.withParse p).err = s.err := rfl
@[simp] theorem State.withParse_work (s : State) (p : ParseState) :
    (s.withParse p).work = p.work := rfl
@[simp] theorem State.withParse_busy (s : State) (p : ParseState) :
    (s.withParse p).busy = s.busy := rfl
@[simp] theorem State.withParse_seqStep (s : State) (p : ParseState) :
    (s.withParse p).seqStep = s.seqStep := rfl
@[simp] theorem State.withParse_raw (s : State) (p : ParseState) :
    (s.withParse p).raw = s.raw := rfl
@[simp] theorem State.withParse_rawLen (s : State) (p : ParseState) :
    (s.withParse p).rawLen = s.rawLen := rfl
@[simp] theorem State.withParse_lastStatus (s : State) (p : ParseState) :
    (s.withParse p).lastStatus = s.lastStatus := rfl
@[simp] theorem State.withParse_dec (s : State) (p : ParseState) :
    (s.withParse p).dec = p.dec := rfl
@[simp] theorem State.withParse_cache (s : State) (p : ParseState) :
    (s.withParse p).cache = s.cache := rfl
@[simp] theorem State.withParse_online (s : State) (p : ParseState) :
    (s.withParse p).online = s.online := rfl
@[simp] theorem State.withParse_userPowercap (s : State) (p : ParseState) :
    (s.withParse p).userPowercap = s.userPowercap := rfl
@[simp] theorem State.withParse_cfg (s : State) (p : ParseState) :
    (s.withParse p).cfg = s.cfg := rfl
@[simp] theorem State.withParse_requests (s : State) (p : ParseState) :
    (s.withParse p).requests = s.requests := rfl
@[simp] theorem State.withParse_answers (s : State) (p : ParseState) :
    (s.withParse p).answers = s.answers := rfl
@[simp] theorem State.withParse_calls (s : State) (p : ParseState) :
    (s.withParse p).calls = s.calls := rfl
@[simp] theorem State.withParse_activity (s : State) (p : ParseState) :
    (s.withParse p).activity = s.activity := rfl

@[simp] theorem sendBegin_opw (o : SendOwner) (seq ctype : Byte) (len : Fin 3) (p0 p1 : Byte) (s : State) :
    (sendBegin o seq ctype len p0 p1 s).opw = s.opw := rfl
@[simp] theorem sendBegin_imm (o : SendOwner) (seq ctype : Byte) (len : Fin 3) (p0 p1 : Byte) (s : State) :
    (sendBegin o seq ctype len p0 p1 s).imm = s.imm := rfl
@[simp] theorem sendBegin_now (o : SendOwner) (seq ctype : Byte) (len : Fin 3) (p0 p1 : Byte) (s : State) :
    (sendBegin o seq ctype len p0 p1 s).now = s.now := rfl
@[simp] theorem sendBegin_res (o : SendOwner) (seq ctype : Byte) (len : Fin 3) (p0 p1 : Byte) (s : State) :
    (sendBegin o seq ctype len p0 p1 s).res = s.res := rfl
@[simp] theorem sendBegin_err (o : SendOwner) (seq ctype : Byte) (len : Fin 3) (p0 p1 : Byte) (s : State) :
    (sendBegin o seq ctype len p0 p1 s).err = s.err := rfl
@[simp] theorem sendBegin_work (o : SendOwner) (seq ctype : Byte) (len : Fin 3) (p0 p1 : Byte) (s : State) :
    (sendBegin o seq ctype len p0 p1 s).work = encodeFrame seq ctype len p0 p1 s.work := rfl
@[simp] theorem sendBegin_busy (o : SendOwner) (seq ctype : Byte) (len : Fin 3) (p0 p1 : Byte) (s : State) :
    (sendBegin o seq ctype len p0 p1 s).busy = s.busy := rfl
@[simp] theorem sendBegin_seqStep (o : SendOwner) (seq ctype : Byte) (len : Fin 3) (p0 p1 : Byte) (s : State) :
    (sendBegin o seq ctype len p0 p1 s).seqStep = 0 := rfl
@[simp] theorem sendBegin_raw (o : SendOwner) (seq ctype : Byte) (len : Fin 3) (p0 p1 : Byte) (s : State) :
    (sendBegin o seq ctype len p0 p1 s).raw = s.raw := rfl
@[simp] theorem sendBegin_rawLen (o : SendOwner) (seq ctype : Byte) (len : Fin 3) (p0 p1 : Byte) (s : State) :
    (sendBegin o seq ctype len p0 p1 s).rawLen = 0 := rfl
@[simp] theorem sendBegin_lastStatus (o : SendOwner) (seq ctype : Byte) (len : Fin 3) (p0 p1 : Byte) (s : State) :
    (sendBegin o seq ctype len p0 p1 s).lastStatus = s.lastStatus := rfl
@[simp] theorem sendBegin_dec (o : SendOwner) (seq ctype : Byte) (len : Fin 3) (p0 p1 : Byte) (s : State) :
    (sendBegin o seq ctype len p0 p1 s).dec = s.dec := rfl
@[simp] theorem sendBegin_cache (o : SendOwner) (seq ctype : Byte) (len : Fin 3) (p0 p1 : Byte) (s : State) :
    (sendBegin o seq ctype len p0 p1 s).cache = s.cache := rfl
@[simp] theorem sendBegin_online (o : SendOwner) (seq ctype : Byte) (len : Fin 3) (p0 p1 : Byte) (s : State) :
    (sendBegin o seq ctype len p0 p1 s).online = s.online := rfl
@[simp] theorem sendBegin_userPowercap (o : SendOwner) (seq ctype : Byte) (len : Fin 3) (p0 p1 : Byte) (s : State) :
    (sendBegin o seq ctype len p0 p1 s).userPowercap = s.userPowercap := rfl
@[simp] theorem sendBegin_cfg (o : SendOwner) (seq ctype : Byte) (len : Fin 3) (p0 p1 : Byte) (s : State) :
    (sendBegin o seq ctype len p0 p1 s).cfg = s.cfg := rfl
@[simp] theorem sendBegin_requests (o : SendOwner) (seq ctype : Byte) (len : Fin 3) (p0 p1 : Byte) (s : State) :
    (sendBegin o seq ctype len p0 p1 s).requests = s.requests := rfl
@[simp] theorem sendBegin_answers (o : SendOwner) (seq ctype : Byte) (len : Fin 3) (p0 p1 : Byte) (s : State) :
    (sendBegin o seq ctype len p0 p1 s).answers = s.answers := rfl
@[simp] theorem sendBegin_calls (o : SendOwner) (seq ctype : Byte) (len : Fin 3) (p0 p1 : Byte) (s : State) :
    (sendBegin o seq ctype len p0 p1 s).calls = s.calls := rfl
@[simp] theorem sendBegin_activity (o : SendOwner) (seq ctype : Byte) (len : Fin 3) (p0 p1 : Byte) (s : State) :
    (sendBegin o seq ctype len p0 p1 s).activity = .sending o := rfl

@[simp] theorem storeHead_opw (b : Vector Byte 8) (s : State) :
    (storeHead b s).opw = s.opw := rfl
@[simp] theorem storeHead_imm (b : Vector Byte 8) (s : State) :
    (storeHead b s).imm = s.imm := rfl
@[simp] theorem storeHead_now (b : Vector Byte 8) (s : State) :
    (storeHead b s).now = s.now := rfl
@[simp] theorem storeHead_res (b : Vector Byte 8) (s : State) :
    (storeHead b s).res = s.res := rfl
@[simp] theorem storeHead_err (b : Vector Byte 8) (s : State) :
    (storeHead b s).err = s.err := rfl
@[simp] theorem storeHead_work (b : Vector Byte 8) (s : State) :
    (storeHead b s).work = s.work := rfl
@[simp] theorem storeHead_busy (b : Vector Byte 8) (s : State) :
    (storeHead b s).busy = s.busy := rfl
@[simp] theorem storeHead_seqStep (b : Vector Byte 8) (s : State) :
    (storeHead b s).seqStep = 8 := rfl
@[simp] theorem storeHead_raw (b : Vector Byte 8) (s : State) :
    (storeHead b s).raw = s.raw.writeBytes 0 b.toList := rfl
@[simp] theorem storeHead_rawLen (b : Vector Byte 8) (s : State) :
    (storeHead b s).rawLen = 8 := rfl
@[simp] theorem storeHead_lastStatus (b : Vector Byte 8) (s : State) :
    (storeHead b s).lastStatus = s.lastStatus := rfl
@[simp] theorem storeHead_dec (b : Vector Byte 8) (s : State) :
    (storeHead b s).dec = s.dec := rfl
@[simp] theorem storeHead_cache (b : Vector Byte 8) (s : State) :
    (storeHead b s).cache = s.cache := rfl
@[simp] theorem storeHead_online (b : Vector Byte 8) (s : State) :
    (storeHead b s).online = s.online := rfl
@[simp] theorem storeHead_userPowercap (b : Vector Byte 8) (s : State) :
    (storeHead b s).userPowercap = s.userPowercap := rfl
@[simp] theorem storeHead_cfg (b : Vector Byte 8) (s : State) :
    (storeHead b s).cfg = s.cfg := rfl
@[simp] theorem storeHead_requests (b : Vector Byte 8) (s : State) :
    (storeHead b s).requests = s.requests := rfl
@[simp] theorem storeHead_answers (b : Vector Byte 8) (s : State) :
    (storeHead b s).answers = s.answers := rfl
@[simp] theorem storeHead_calls (b : Vector Byte 8) (s : State) :
    (storeHead b s).calls = s.calls := rfl
@[simp] theorem storeHead_activity (b : Vector Byte 8) (s : State) :
    (storeHead b s).activity = s.activity := rfl

@[simp] theorem fetchBegin_opw (o : FetchOwner) (s : State) :
    (fetchBegin o s).opw = s.opw := rfl
@[simp] theorem fetchBegin_imm (o : FetchOwner) (s : State) :
    (fetchBegin o s).imm = s.imm := rfl
@[simp] theorem fetchBegin_now (o : FetchOwner) (s : State) :
    (fetchBegin o s).now = s.now := rfl
@[simp] theorem fetchBegin_res (o : FetchOwner) (s : State) :
    (fetchBegin o s).res = s.res := rfl
@[simp] theorem fetchBegin_err (o : FetchOwner) (s : State) :
    (fetchBegin o s).err = s.err := rfl
@[simp] theorem fetchBegin_work (o : FetchOwner) (s : State) :
    (fetchBegin o s).work = { s.work with len := be16 s.raw offLen, total := fetchTotal (be16 s.raw offLen), foff := 8 } := rfl
@[simp] theorem fetchBegin_busy (o : FetchOwner) (s : State) :
    (fetchBegin o s).busy = s.busy := rfl
@[simp] theorem fetchBegin_seqStep (o : FetchOwner) (s : State) :
    (fetchBegin o s).seqStep = s.seqStep := rfl
@[simp] theorem fetchBegin_raw (o : FetchOwner) (s : State) :
    (fetchBegin o s).raw = s.raw := rfl
@[simp] theorem fetchBegin_rawLen (o : FetchOwner) (s : State) :
    (fetchBegin o s).rawLen = 8 := rfl
@[simp] theorem fetchBegin_lastStatus (o : FetchOwner) (s : State) :
    (fetchBegin o s).lastStatus = s.lastStatus := rfl
@[simp] theorem fetchBegin_dec (o : FetchOwner) (s : State) :
    (fetchBegin o s).dec = s.dec := rfl
@[simp] theorem fetchBegin_cache (o : FetchOwner) (s : State) :
    (fetchBegin o s).cache = s.cache := rfl
@[simp] theorem fetchBegin_online (o : FetchOwner) (s : State) :
    (fetchBegin o s).online = s.online := rfl
@[simp] theorem fetchBegin_userPowercap (o : FetchOwner) (s : State) :
    (fetchBegin o s).userPowercap = s.userPowercap := rfl
@[simp] theorem fetchBegin_cfg (o : FetchOwner) (s : State) :
    (fetchBegin o s).cfg = s.cfg := rfl
@[simp] theorem fetchBegin_requests (o : FetchOwner) (s : State) :
    (fetchBegin o s).requests = s.requests := rfl
@[simp] theorem fetchBegin_answers (o : FetchOwner) (s : State) :
    (fetchBegin o s).answers = s.answers := rfl
@[simp] theorem fetchBegin_calls (o : FetchOwner) (s : State) :
    (fetchBegin o s).calls = s.calls := rfl
@[simp] theorem fetchBegin_activity (o : FetchOwner) (s : State) :
    (fetchBegin o s).activity = .fetching o := rfl

@[simp] theorem storeChunk_opw (b : Vector Byte 8) (s : State) :
    (storeChunk b s).opw = s.opw := rfl
@[simp] theorem storeChunk_imm (b : Vector Byte 8) (s : State) :
    (storeChunk b s).imm = s.imm := rfl
@[simp] theorem storeChunk_now (b : Vector Byte 8) (s : State) :
    (storeChunk b s).now = s.now := rfl
@[simp] theorem storeChunk_res (b : Vector Byte 8) (s : State) :
    (storeChunk b s).res = s.res := rfl
@[simp] theorem storeChunk_err (b : Vector Byte 8) (s : State) :
    (storeChunk b s).err = s.err := rfl
@[simp] theorem storeChunk_work (b : Vector Byte 8) (s : State) :
    (storeChunk b s).work = { s.work with foff := s.work.foff + 8 } := rfl
@[simp] theorem storeChunk_busy (b : Vector Byte 8) (s : State) :
    (storeChunk b s).busy = s.busy := rfl
@[simp] theorem storeChunk_seqStep (b : Vector Byte 8) (s : State) :
    (storeChunk b s).seqStep = s.seqStep := rfl
@[simp] theorem storeChunk_raw (b : Vector Byte 8) (s : State) :
    (storeChunk b s).raw = s.raw.writeBytes s.work.foff b.toList := rfl
@[simp] theorem storeChunk_rawLen (b : Vector Byte 8) (s : State) :
    (storeChunk b s).rawLen = RawLen.ofNat (s.work.foff + 8) := rfl
@[simp] theorem storeChunk_lastStatus (b : Vector Byte 8) (s : State) :
    (storeChunk b s).lastStatus = s.lastStatus := rfl
@[simp] theorem storeChunk_dec (b : Vector Byte 8) (s : State) :
    (storeChunk b s).dec = s.dec := rfl
@[simp] theorem storeChunk_cache (b : Vector Byte 8) (s : State) :
    (storeChunk b s).cache = s.cache := rfl
@[simp] theorem storeChunk_online (b : Vector Byte 8) (s : State) :
    (storeChunk b s).online = s.online := rfl
@[simp] theorem storeChunk_userPowercap (b : Vector Byte 8) (s : State) :
    (storeChunk b s).userPowercap = s.userPowercap := rfl
@[simp] theorem storeChunk_cfg (b : Vector Byte 8) (s : State) :
    (storeChunk b s).cfg = s.cfg := rfl
@[simp] theorem storeChunk_requests (b : Vector Byte 8) (s : State) :
    (storeChunk b s).requests = s.requests := rfl
@[simp] theorem storeChunk_answers (b : Vector Byte 8) (s : State) :
    (storeChunk b s).answers = s.answers := rfl
@[simp] theorem storeChunk_calls (b : Vector Byte 8) (s : State) :
    (storeChunk b s).calls = s.calls := rfl
@[simp] theorem storeChunk_activity (b : Vector Byte 8) (s : State) :
    (storeChunk b s).activity = s.activity := rfl

@[simp] theorem State.framed_opw (s : State) (seq ctype len p0 p1 : Byte) :
    (s.framed seq ctype len p0 p1).opw = s.opw := rfl
@[simp] theorem State.framed_imm (s : State) (seq ctype len p0 p1 : Byte) :
    (s.framed seq ctype len p0 p1).imm = s.imm := rfl
@[simp] theorem State.framed_now (s : State) (seq ctype len p0 p1 : Byte) :
    (s.framed seq ctype len p0 p1).now = s.now := rfl
@[simp] theorem State.framed_res (s : State) (seq ctype len p0 p1 : Byte) :
    (s.framed seq ctype len p0 p1).res = s.res := rfl
@[simp] theorem State.framed_err (s : State) (seq ctype len p0 p1 : Byte) :
    (s.framed seq ctype len p0 p1).err = s.err := rfl
@[simp] theorem State.framed_work (s : State) (seq ctype len p0 p1 : Byte) :
    (s.framed seq ctype len p0 p1).work = { s.work with w1 := frameHead seq ctype len, w2 := frameTail seq ctype len p0 p1, csum := BitVec.ofNat 16 (frameSum seq ctype len p0 p1) } := rfl
@[simp] theorem State.framed_busy (s : State) (seq ctype len p0 p1 : Byte) :
    (s.framed seq ctype len p0 p1).busy = s.busy := rfl
@[simp] theorem State.framed_seqStep (s : State) (seq ctype len p0 p1 : Byte) :
    (s.framed seq ctype len p0 p1).seqStep = s.seqStep := rfl
@[simp] theorem State.framed_raw (s : State) (seq ctype len p0 p1 : Byte) :
    (s.framed seq ctype len p0 p1).raw = s.raw := rfl
@[simp] theorem State.framed_rawLen (s : State) (seq ctype len p0 p1 : Byte) :
    (s.framed seq ctype len p0 p1).rawLen = s.rawLen := rfl
@[simp] theorem State.framed_lastStatus (s : State) (seq ctype len p0 p1 : Byte) :
    (s.framed seq ctype len p0 p1).lastStatus = s.lastStatus := rfl
@[simp] theorem State.framed_dec (s : State) (seq ctype len p0 p1 : Byte) :
    (s.framed seq ctype len p0 p1).dec = s.dec := rfl
@[simp] theorem State.framed_cache (s : State) (seq ctype len p0 p1 : Byte) :
    (s.framed seq ctype len p0 p1).cache = s.cache := rfl
@[simp] theorem State.framed_online (s : State) (seq ctype len p0 p1 : Byte) :
    (s.framed seq ctype len p0 p1).online = s.online := rfl
@[simp] theorem State.framed_userPowercap (s : State) (seq ctype len p0 p1 : Byte) :
    (s.framed seq ctype len p0 p1).userPowercap = s.userPowercap := rfl
@[simp] theorem State.framed_cfg (s : State) (seq ctype len p0 p1 : Byte) :
    (s.framed seq ctype len p0 p1).cfg = s.cfg := rfl
@[simp] theorem State.framed_requests (s : State) (seq ctype len p0 p1 : Byte) :
    (s.framed seq ctype len p0 p1).requests = s.requests := rfl
@[simp] theorem State.framed_answers (s : State) (seq ctype len p0 p1 : Byte) :
    (s.framed seq ctype len p0 p1).answers = s.answers := rfl
@[simp] theorem State.framed_calls (s : State) (seq ctype len p0 p1 : Byte) :
    (s.framed seq ctype len p0 p1).calls = s.calls := rfl
@[simp] theorem State.framed_activity (s : State) (seq ctype len p0 p1 : Byte) :
    (s.framed seq ctype len p0 p1).activity = s.activity := rfl

@[simp] theorem State.sent_opw (s : State) (b : Vector Byte 8) (rest : List Answer) :
    (s.sent b rest).opw = s.opw := rfl
@[simp] theorem State.sent_imm (s : State) (b : Vector Byte 8) (rest : List Answer) :
    (s.sent b rest).imm = s.imm := rfl
@[simp] theorem State.sent_now (s : State) (b : Vector Byte 8) (rest : List Answer) :
    (s.sent b rest).now = s.now := rfl
@[simp] theorem State.sent_res (s : State) (b : Vector Byte 8) (rest : List Answer) :
    (s.sent b rest).res = s.res := rfl
@[simp] theorem State.sent_err (s : State) (b : Vector Byte 8) (rest : List Answer) :
    (s.sent b rest).err = s.err := rfl
@[simp] theorem State.sent_work (s : State) (b : Vector Byte 8) (rest : List Answer) :
    (s.sent b rest).work = s.work := rfl
@[simp] theorem State.sent_busy (s : State) (b : Vector Byte 8) (rest : List Answer) :
    (s.sent b rest).busy = s.busy := rfl
@[simp] theorem State.sent_seqStep (s : State) (b : Vector Byte 8) (rest : List Answer) :
    (s.sent b rest).seqStep = s.seqStep := rfl
@[simp] theorem State.sent_raw (s : State) (b : Vector Byte 8) (rest : List Answer) :
    (s.sent b rest).raw = s.raw.writeBytes 0 b.toList := rfl
@[simp] theorem State.sent_rawLen (s : State) (b : Vector Byte 8) (rest : List Answer) :
    (s.sent b rest).rawLen = 8 := rfl
@[simp] theorem State.sent_lastStatus (s : State) (b : Vector Byte 8) (rest : List Answer) :
    (s.sent b rest).lastStatus = b[2] := rfl
@[simp] theorem State.sent_dec (s : State) (b : Vector Byte 8) (rest : List Answer) :
    (s.sent b rest).dec = s.dec := rfl
@[simp] theorem State.sent_cache (s : State) (b : Vector Byte 8) (rest : List Answer) :
    (s.sent b rest).cache = s.cache := rfl
@[simp] theorem State.sent_online (s : State) (b : Vector Byte 8) (rest : List Answer) :
    (s.sent b rest).online = s.online := rfl
@[simp] theorem State.sent_userPowercap (s : State) (b : Vector Byte 8) (rest : List Answer) :
    (s.sent b rest).userPowercap = s.userPowercap := rfl
@[simp] theorem State.sent_cfg (s : State) (b : Vector Byte 8) (rest : List Answer) :
    (s.sent b rest).cfg = s.cfg := rfl
@[simp] theorem State.sent_requests (s : State) (b : Vector Byte 8) (rest : List Answer) :
    (s.sent b rest).requests = s.requests := rfl
@[simp] theorem State.sent_answers (s : State) (b : Vector Byte 8) (rest : List Answer) :
    (s.sent b rest).answers = rest := rfl
@[simp] theorem State.sent_calls (s : State) (b : Vector Byte 8) (rest : List Answer) :
    (s.sent b rest).calls = s.calls ++ commandCalls s.cfg.bus s.work.w1 s.work.w2 := rfl
@[simp] theorem State.sent_activity (s : State) (b : Vector Byte 8) (rest : List Answer) :
    (s.sent b rest).activity = s.activity := rfl

@[simp] theorem State.sendAborted_opw (s : State) (n : Nat) (rest : List Answer) :
    (s.sendAborted n rest).opw = s.opw := rfl
@[simp] theorem State.sendAborted_imm (s : State) (n : Nat) (rest : List Answer) :
    (s.sendAborted n rest).imm = s.imm := rfl
@[simp] theorem State.sendAborted_now (s : State) (n : Nat) (rest : List Answer) :
    (s.sendAborted n rest).now = s.now := rfl
@[simp] theorem State.sendAborted_res (s : State) (n : Nat) (rest : List Answer) :
    (s.sendAborted n rest).res = s.res := rfl
@[simp] theorem State.sendAborted_err (s : State) (n : Nat) (rest : List Answer) :
    (s.sendAborted n rest).err = s.err := rfl
@[simp] theorem State.sendAborted_work (s : State) (n : Nat) (rest : List Answer) :
    (s.sendAborted n rest).work = s.work := rfl
@[simp] theorem State.sendAborted_busy (s : State) (n : Nat) (rest : List Answer) :
    (s.sendAborted n rest).busy = s.busy := rfl
@[simp] theorem State.sendAborted_seqStep (s : State) (n : Nat) (rest : List Answer) :
    (s.sendAborted n rest).seqStep = s.seqStep := rfl
@[simp] theorem State.sendAborted_raw (s : State) (n : Nat) (rest : List Answer) :
    (s.sendAborted n rest).raw = s.raw := rfl
@[simp] theorem State.sendAborted_rawLen (s : State) (n : Nat) (rest : List Answer) :
    (s.sendAborted n rest).rawLen = 0 := rfl
@[simp] theorem State.sendAborted_lastStatus (s : State) (n : Nat) (rest : List Answer) :
    (s.sendAborted n rest).lastStatus = s.lastStatus := rfl
@[simp] theorem State.sendAborted_dec (s : State) (n : Nat) (rest : List Answer) :
    (s.sendAborted n rest).dec = s.dec := rfl
@[simp] theorem State.sendAborted_cache (s : State) (n : Nat) (rest : List Answer) :
    (s.sendAborted n rest).cache = s.cache := rfl
@[simp] theorem State.sendAborted_online (s : State) (n : Nat) (rest : List Answer) :
    (s.sendAborted n rest).online = s.online := rfl
@[simp] theorem State.sendAborted_userPowercap (s : State) (n : Nat) (rest : List Answer) :
    (s.sendAborted n rest).userPowercap = s.userPowercap := rfl
@[simp] theorem State.sendAborted_cfg (s : State) (n : Nat) (rest : List Answer) :
    (s.sendAborted n rest).cfg = s.cfg := rfl
@[simp] theorem State.sendAborted_requests (s : State) (n : Nat) (rest : List Answer) :
    (s.sendAborted n rest).requests = s.requests := rfl
@[simp] theorem State.sendAborted_answers (s : State) (n : Nat) (rest : List Answer) :
    (s.sendAborted n rest).answers = rest := rfl
@[simp] theorem State.sendAborted_calls (s : State) (n : Nat) (rest : List Answer) :
    (s.sendAborted n rest).calls = s.calls ++ (commandCalls s.cfg.bus s.work.w1 s.work.w2).take (n + 1) := rfl
@[simp] theorem State.sendAborted_activity (s : State) (n : Nat) (rest : List Answer) :
    (s.sendAborted n rest).activity = s.activity := rfl

@[simp] theorem State.fetched_opw (s : State) (chunks : List (Vector Byte 8)) (extra : Nat) (rest : List Answer) :
    (s.fetched chunks extra rest).opw = s.opw := rfl
@[simp] theorem State.fetched_imm (s : State) (chunks : List (Vector Byte 8)) (extra : Nat) (rest : List Answer) :
    (s.fetched chunks extra rest).imm = s.imm := rfl
@[simp] theorem State.fetched_now (s : State) (chunks : List (Vector Byte 8)) (extra : Nat) (rest : List Answer) :
    (s.fetched chunks extra rest).now = s.now := rfl
@[simp] theorem State.fetched_res (s : State) (chunks : List (Vector Byte 8)) (extra : Nat) (rest : List Answer) :
    (s.fetched chunks extra rest).res = s.res := rfl
@[simp] theorem State.fetched_err (s : State) (chunks : List (Vector Byte 8)) (extra : Nat) (rest : List Answer) :
    (s.fetched chunks extra rest).err = s.err := rfl
@[simp] theorem State.fetched_work (s : State) (chunks : List (Vector Byte 8)) (extra : Nat) (rest : List Answer) :
    (s.fetched chunks extra rest).work = { s.work with len := be16 s.raw 3, total := min ((be16 s.raw 3).toNat + 7) 4096, foff := 8 + 8 * chunks.length } := rfl
@[simp] theorem State.fetched_busy (s : State) (chunks : List (Vector Byte 8)) (extra : Nat) (rest : List Answer) :
    (s.fetched chunks extra rest).busy = s.busy := rfl
@[simp] theorem State.fetched_seqStep (s : State) (chunks : List (Vector Byte 8)) (extra : Nat) (rest : List Answer) :
    (s.fetched chunks extra rest).seqStep = s.seqStep := rfl
@[simp] theorem State.fetched_raw (s : State) (chunks : List (Vector Byte 8)) (extra : Nat) (rest : List Answer) :
    (s.fetched chunks extra rest).raw = s.raw.writeBytes 8 (chunks.flatMap fun b => b.toList) := rfl
@[simp] theorem State.fetched_rawLen (s : State) (chunks : List (Vector Byte 8)) (extra : Nat) (rest : List Answer) :
    (s.fetched chunks extra rest).rawLen = RawLen.ofNat (8 + 8 * chunks.length) := rfl
@[simp] theorem State.fetched_lastStatus (s : State) (chunks : List (Vector Byte 8)) (extra : Nat) (rest : List Answer) :
    (s.fetched chunks extra rest).lastStatus = s.lastStatus := rfl
@[simp] theorem State.fetched_dec (s : State) (chunks : List (Vector Byte 8)) (extra : Nat) (rest : List Answer) :
    (s.fetched chunks extra rest).dec = s.dec := rfl
@[simp] theorem State.fetched_cache (s : State) (chunks : List (Vector Byte 8)) (extra : Nat) (rest : List Answer) :
    (s.fetched chunks extra rest).cache = s.cache := rfl
@[simp] theorem State.fetched_online (s : State) (chunks : List (Vector Byte 8)) (extra : Nat) (rest : List Answer) :
    (s.fetched chunks extra rest).online = s.online := rfl
@[simp] theorem State.fetched_userPowercap (s : State) (chunks : List (Vector Byte 8)) (extra : Nat) (rest : List Answer) :
    (s.fetched chunks extra rest).userPowercap = s.userPowercap := rfl
@[simp] theorem State.fetched_cfg (s : State) (chunks : List (Vector Byte 8)) (extra : Nat) (rest : List Answer) :
    (s.fetched chunks extra rest).cfg = s.cfg := rfl
@[simp] theorem State.fetched_requests (s : State) (chunks : List (Vector Byte 8)) (extra : Nat) (rest : List Answer) :
    (s.fetched chunks extra rest).requests = s.requests := rfl
@[simp] theorem State.fetched_answers (s : State) (chunks : List (Vector Byte 8)) (extra : Nat) (rest : List Answer) :
    (s.fetched chunks extra rest).answers = rest := rfl
@[simp] theorem State.fetched_calls (s : State) (chunks : List (Vector Byte 8)) (extra : Nat) (rest : List Answer) :
    (s.fetched chunks extra rest).calls = s.calls ++ List.replicate (chunks.length + extra) (.read s.cfg.bus.dataReg) := rfl
@[simp] theorem State.fetched_activity (s : State) (chunks : List (Vector Byte 8)) (extra : Nat) (rest : List Answer) :
    (s.fetched chunks extra rest).activity = s.activity := rfl

@[simp] theorem State.emptied_opw (s : State) :
    (s.emptied).opw = s.opw := rfl
@[simp] theorem State.emptied_imm (s : State) :
    (s.emptied).imm = s.imm := rfl
@[simp] theorem State.emptied_now (s : State) :
    (s.emptied).now = s.now := rfl
@[simp] theorem State.emptied_res (s : State) :
    (s.emptied).res = s.res := rfl
@[simp] theorem State.emptied_err (s : State) :
    (s.emptied).err = s.err := rfl
@[simp] theorem State.emptied_work (s : State) :
    (s.emptied).work = s.work := rfl
@[simp] theorem State.emptied_busy (s : State) :
    (s.emptied).busy = s.busy := rfl
@[simp] theorem State.emptied_seqStep (s : State) :
    (s.emptied).seqStep = s.seqStep := rfl
@[simp] theorem State.emptied_raw (s : State) :
    (s.emptied).raw = s.raw := rfl
@[simp] theorem State.emptied_rawLen (s : State) :
    (s.emptied).rawLen = s.rawLen := rfl
@[simp] theorem State.emptied_lastStatus (s : State) :
    (s.emptied).lastStatus = s.lastStatus := rfl
@[simp] theorem State.emptied_dec (s : State) :
    (s.emptied).dec = s.dec.deinit := rfl
@[simp] theorem State.emptied_cache (s : State) :
    (s.emptied).cache = { s.cache with valid := false } := rfl
@[simp] theorem State.emptied_online (s : State) :
    (s.emptied).online = s.online := rfl
@[simp] theorem State.emptied_userPowercap (s : State) :
    (s.emptied).userPowercap = s.userPowercap := rfl
@[simp] theorem State.emptied_cfg (s : State) :
    (s.emptied).cfg = s.cfg := rfl
@[simp] theorem State.emptied_requests (s : State) :
    (s.emptied).requests = s.requests := rfl
@[simp] theorem State.emptied_answers (s : State) :
    (s.emptied).answers = s.answers := rfl
@[simp] theorem State.emptied_calls (s : State) :
    (s.emptied).calls = s.calls := rfl
@[simp] theorem State.emptied_activity (s : State) :
    (s.emptied).activity = s.activity := rfl

end Sys2Proof.Machine
end

