-- ==== Sys2Proof/Laws/Encoder.lean ====
section
/-! SUPPORT. What `Encode` writes, as bytes: the three layouts of 30_encoding.md R98 and the checksum of R137. -/

namespace Sys2Proof.Machine

/-- Four bytes as one number, the first most significant. -/
def bytesNat (a b c d : Byte) : Nat := a.toNat * 16777216 + b.toNat * 65536 + c.toNat * 256 + d.toNat

theorem shiftLeft_or {x y k : Nat} (h : y < 2 ^ k) : x <<< k ||| y = x * 2 ^ k + y := by
  rw [← Nat.shiftLeft_add_eq_or_of_lt h, Nat.shiftLeft_eq]

/-- A word written as four bytes, as a number. -/
theorem word4_toNat (a b c d : Byte) : ((a ++ b ++ c ++ d : BitVec (8 + 8 + 8 + 8)) : Word).toNat = bytesNat a b c d := by
  have ha := a.isLt
  have hb := b.isLt
  have hc := c.isLt
  have hd := d.isLt
  have h : (a ++ b ++ c ++ d : BitVec (8 + 8 + 8 + 8)).toNat = bytesNat a b c d := by
    rw [BitVec.toNat_append, BitVec.toNat_append, BitVec.toNat_append, shiftLeft_or hd, shiftLeft_or hc, shiftLeft_or hb]
    simp only [bytesNat]
    omega
  exact h

theorem wordByte_toNat (w : Word) (k : Nat) :
    (wordByte w k).toNat = w.toNat / 2 ^ (24 - 8 * k) % 256 := by
  simp [wordByte, BitVec.extractLsb', Nat.shiftRight_eq_div_pow]
  omega

/-- R68: byte `k` of a word written as four bytes. -/
theorem wordByte_word4 (a b c d : Byte) :
    wordByte (a ++ b ++ c ++ d) 0 = a.setWidth 16 ∧ wordByte (a ++ b ++ c ++ d) 1 = b.setWidth 16 ∧
    wordByte (a ++ b ++ c ++ d) 2 = c.setWidth 16 ∧ wordByte (a ++ b ++ c ++ d) 3 = d.setWidth 16 := by
  have ha := a.isLt
  have hb := b.isLt
  have hc := c.isLt
  have hd := d.isLt
  refine ⟨?_, ?_, ?_, ?_⟩ <;> apply BitVec.eq_of_toNat_eq <;> rw [wordByte_toNat _ _, word4_toNat] <;>
    simp only [bytesNat, BitVec.toNat_setWidth] <;> omega

/-- R99: `W1` as bytes. -/
theorem frameW1_bytes (seq ctype : Byte) (len : Fin 3) :
    frameW1 seq ctype len = seq ++ ctype ++ (0 : Byte) ++ BitVec.ofNat 8 len.val := by
  apply BitVec.eq_of_toNat_eq
  have h1 := seq.isLt
  have h2 := ctype.isLt
  have h3 := len.isLt
  rw [word4_toNat]
  have e1 : (seq.setWidth 32 <<< 24 : Word).toNat = seq.toNat * 16777216 := by
    simp [Nat.shiftLeft_eq]; omega
  have e2 : (ctype.setWidth 32 <<< 16 : Word).toNat = ctype.toNat * 65536 := by
    simp [Nat.shiftLeft_eq]; omega
  have e3 : (BitVec.ofNat 32 len.val).toNat = len.val := by simp; omega
  unfold frameW1
  rw [BitVec.toNat_or, BitVec.toNat_or, e1, e2, e3]
  have o1 : seq.toNat * 16777216 ||| ctype.toNat * 65536 = seq.toNat * 16777216 + ctype.toNat * 65536 := by
    have := shiftLeft_or (x := seq.toNat) (y := ctype.toNat * 65536) (k := 24) (by omega)
    rwa [Nat.shiftLeft_eq] at this
  have o2 : seq.toNat * 16777216 + ctype.toNat * 65536 ||| len.val = seq.toNat * 16777216 + ctype.toNat * 65536 + len.val := by
    have := shiftLeft_or (x := seq.toNat * 256 + ctype.toNat) (y := len.val) (k := 16) (by omega)
    rw [Nat.shiftLeft_eq] at this
    have e : (seq.toNat * 256 + ctype.toNat) * 2 ^ 16 = seq.toNat * 16777216 + ctype.toNat * 65536 := by omega
    rwa [e] at this
  rw [o1, o2]
  have : (BitVec.ofNat 8 len.val).toNat = len.val := by simp; omega
  simp only [bytesNat, this]
  simp

theorem zero_bytes : (0 : Word) = (0 : Byte) ++ (0 : Byte) ++ (0 : Byte) ++ (0 : Byte) := by decide

/-- R100: one payload byte in the top byte of `W2`. -/
theorem payloadW2_one (p0 : Byte) : (p0.setWidth 32 <<< 24 : Word) = p0 ++ (0 : Byte) ++ (0 : Byte) ++ (0 : Byte) := by
  apply BitVec.eq_of_toNat_eq
  have := p0.isLt
  rw [word4_toNat]
  simp [bytesNat, Nat.shiftLeft_eq]
  omega

/-- R100: two payload bytes in the top two bytes of `W2`. -/
theorem payloadW2_two (p0 p1 : Byte) :
    ((p0.setWidth 32 <<< 24) ||| (p1.setWidth 32 <<< 16) : Word) = p0 ++ p1 ++ (0 : Byte) ++ (0 : Byte) := by
  apply BitVec.eq_of_toNat_eq
  have h0 := p0.isLt
  have h1 := p1.isLt
  rw [word4_toNat, BitVec.toNat_or]
  have e1 : (p0.setWidth 32 <<< 24 : Word).toNat = p0.toNat * 16777216 := by simp [Nat.shiftLeft_eq]; omega
  have e2 : (p1.setWidth 32 <<< 16 : Word).toNat = p1.toNat * 65536 := by simp [Nat.shiftLeft_eq]; omega
  have o : p0.toNat * 16777216 ||| p1.toNat * 65536 = p0.toNat * 16777216 + p1.toNat * 65536 := by
    have := shiftLeft_or (x := p0.toNat) (y := p1.toNat * 65536) (k := 24) (by omega)
    rwa [Nat.shiftLeft_eq] at this
  rw [e1, e2, o]
  simp [bytesNat]

/-- R98: the bytes of `W2` before the checksum. -/
def payloadByte (len : Fin 3) (p0 p1 : Byte) (k : Nat) : Byte :=
  if k < len.val then (if k = 0 then p0 else p1) else 0

theorem payloadW2_bytes (len : Fin 3) (p0 p1 : Byte) :
    payloadW2 len p0 p1 = payloadByte len p0 p1 0 ++ payloadByte len p0 p1 1 ++ (0 : Byte) ++ (0 : Byte) := by
  match len with
  | 0 => exact zero_bytes
  | 1 => exact payloadW2_one p0
  | 2 => exact payloadW2_two p0 p1

/-- R137 (a): the checksum is the sum of the sequence number, the type, the length and the payload bytes below the length. -/
theorem frame_checksum (seq ctype : Byte) (len : Fin 3) (p0 p1 : Byte) :
    checksum (frameW1 seq ctype len) (payloadW2 len p0 p1) =
      seq.setWidth 16 + ctype.setWidth 16 + BitVec.ofNat 16 len.val +
        (payloadByte len p0 p1 0).setWidth 16 + (payloadByte len p0 p1 1).setWidth 16 := by
  rw [frameW1_bytes, payloadW2_bytes]
  obtain ⟨a0, a1, a2, a3⟩ := wordByte_word4 seq ctype 0 (BitVec.ofNat 8 len.val)
  obtain ⟨b0, b1, b2, b3⟩ := wordByte_word4 (payloadByte len p0 p1 0) (payloadByte len p0 p1 1) 0 0
  unfold checksum
  rw [a0, a1, a2, a3, b0, b1, b2, b3]
  have hl : (BitVec.ofNat 8 len.val).setWidth 16 = BitVec.ofNat 16 len.val := by
    match len with
    | 0 => rfl
    | 1 => rfl
    | 2 => rfl
  rw [hl]
  simp

/-- R137 (b): the sum never wraps: it is at most 1022. -/
theorem frame_checksum_toNat (seq ctype : Byte) (len : Fin 3) (p0 p1 : Byte) :
    (checksum (frameW1 seq ctype len) (payloadW2 len p0 p1)).toNat =
      seq.toNat + ctype.toNat + len.val + (payloadByte len p0 p1 0).toNat + (payloadByte len p0 p1 1).toNat ∧
    (checksum (frameW1 seq ctype len) (payloadW2 len p0 p1)).toNat ≤ 1022 := by
  rw [frame_checksum]
  have h1 := seq.isLt
  have h2 := ctype.isLt
  have h3 := len.isLt
  have h4 := (payloadByte len p0 p1 0).isLt
  have h5 := (payloadByte len p0 p1 1).isLt
  simp only [BitVec.toNat_add, BitVec.toNat_setWidth, BitVec.toNat_ofNat]
  omega

/-- R98, R101, `len = 0`: the checksum in `W2[31:16]`. -/
theorem insertChecksum_zero (csum : Half) : insertChecksum 0 0 csum = csum ++ (0 : Half) := by
  apply BitVec.eq_of_toNat_eq
  have := csum.isLt
  have h : ((csum ++ (0 : Half) : BitVec (16 + 16)) : Word).toNat = csum.toNat * 65536 := by
    have h' : (csum ++ (0 : Half) : BitVec (16 + 16)).toNat = csum.toNat * 65536 := by
      rw [BitVec.toNat_append, shiftLeft_or (by simp)]
      simp
    exact h'
  rw [h]
  simp [insertChecksum, Nat.shiftLeft_eq]
  omega

/-- R98, R101, `len = 1`: the checksum in `W2[23:8]`. -/
theorem insertChecksum_one (p0 : Byte) (csum : Half) :
    insertChecksum 1 (p0 ++ (0 : Byte) ++ (0 : Byte) ++ (0 : Byte)) csum = p0 ++ csum ++ (0 : Byte) := by
  apply BitVec.eq_of_toNat_eq
  have h1 := csum.isLt
  have h2 := p0.isLt
  have h : ((p0 ++ csum ++ (0 : Byte) : BitVec (8 + 16 + 8)) : Word).toNat = p0.toNat * 16777216 + csum.toNat * 256 := by
    have h' : (p0 ++ csum ++ (0 : Byte) : BitVec (8 + 16 + 8)).toNat = p0.toNat * 16777216 + csum.toNat * 256 := by
      rw [BitVec.toNat_append, BitVec.toNat_append, shiftLeft_or h1, shiftLeft_or (by simp)]
      simp
      omega
    exact h'
  rw [h]
  have e : (csum.setWidth 32 <<< 8 : Word).toNat = csum.toNat * 256 := by simp [Nat.shiftLeft_eq]; omega
  have g : insertChecksum 1 (p0 ++ (0 : Byte) ++ (0 : Byte) ++ (0 : Byte)) csum =
      (p0 ++ (0 : Byte) ++ (0 : Byte) ++ (0 : Byte)) ||| (csum.setWidth 32 <<< 8) := rfl
  rw [g, BitVec.toNat_or, word4_toNat, e]
  have o : bytesNat p0 0 0 0 ||| csum.toNat * 256 = p0.toNat * 16777216 + csum.toNat * 256 := by
    have := shiftLeft_or (x := p0.toNat) (y := csum.toNat * 256) (k := 24) (by omega)
    rw [Nat.shiftLeft_eq] at this
    simpa [bytesNat] using this
  exact o

/-- R98, R101, `len = 2`: the checksum in `W2[15:0]`. -/
theorem insertChecksum_two (p0 p1 : Byte) (csum : Half) :
    insertChecksum 2 (p0 ++ p1 ++ (0 : Byte) ++ (0 : Byte)) csum = p0 ++ p1 ++ csum := by
  apply BitVec.eq_of_toNat_eq
  have h1 := csum.isLt
  have h2 := p0.isLt
  have h3 := p1.isLt
  have h : ((p0 ++ p1 ++ csum : BitVec (8 + 8 + 16)) : Word).toNat = p0.toNat * 16777216 + p1.toNat * 65536 + csum.toNat := by
    have h' : (p0 ++ p1 ++ csum : BitVec (8 + 8 + 16)).toNat = p0.toNat * 16777216 + p1.toNat * 65536 + csum.toNat := by
      rw [BitVec.toNat_append, BitVec.toNat_append, shiftLeft_or h1, shiftLeft_or h3]
      omega
    exact h'
  rw [h]
  have e : (csum.setWidth 32 <<< 0 : Word).toNat = csum.toNat := by simp; omega
  have g : insertChecksum 2 (p0 ++ p1 ++ (0 : Byte) ++ (0 : Byte)) csum =
      (p0 ++ p1 ++ (0 : Byte) ++ (0 : Byte)) ||| (csum.setWidth 32 <<< 0) := rfl
  rw [g, BitVec.toNat_or, word4_toNat, e]
  have o : bytesNat p0 p1 0 0 ||| csum.toNat = p0.toNat * 16777216 + p1.toNat * 65536 + csum.toNat := by
    have := shiftLeft_or (x := p0.toNat * 256 + p1.toNat) (y := csum.toNat) (k := 16) (by omega)
    rw [Nat.shiftLeft_eq] at this
    have e : bytesNat p0 p1 0 0 = (p0.toNat * 256 + p1.toNat) * 2 ^ 16 := by simp [bytesNat]; omega
    rw [e, this]
    omega
  exact o

/-- The length check (R131) on a legal length. -/
theorem legalLen_of_lt {len : Byte} (h : len.toNat < 3) : legalLen len = some ⟨len.toNat, h⟩ := by simp [legalLen, h]

theorem legalLen_of_ge {len : Byte} (h : 2 < len.toNat) : legalLen len = none := by
  have : ¬ len.toNat < 3 := by omega
  simp [legalLen, this]

/-- R98, R137: the frame `Encode` builds, by its layouts. -/
theorem encodeFrame_eq (seq ctype len : Byte) (h : len.toNat < 3) (p0 p1 : Byte) (w : Work) :
    encodeFrame seq ctype ⟨len.toNat, h⟩ p0 p1 w =
      { w with w1 := frameHead seq ctype len, w2 := frameTail seq ctype len p0 p1,
               csum := BitVec.ofNat 16 (frameSum seq ctype len p0 p1) } := by
  have hc : checksum (frameW1 seq ctype ⟨len.toNat, h⟩) (payloadW2 ⟨len.toNat, h⟩ p0 p1) =
      BitVec.ofNat 16 (frameSum seq ctype len p0 p1) := by
    apply BitVec.eq_of_toNat_eq
    rw [(frame_checksum_toNat seq ctype ⟨len.toNat, h⟩ p0 p1).1, BitVec.toNat_ofNat]
    have h1 := seq.isLt
    have h2 := ctype.isLt
    have h4 := p0.isLt
    have h5 := p1.isLt
    have e0 : (payloadByte ⟨len.toNat, h⟩ p0 p1 0).toNat = if 0 < len.toNat then p0.toNat else 0 := by
      unfold payloadByte; split <;> simp
    have e1 : (payloadByte ⟨len.toNat, h⟩ p0 p1 1).toNat = if 1 < len.toNat then p1.toNat else 0 := by
      unfold payloadByte; split <;> simp
    rw [e0, e1, frameSum]
    split <;> split <;> simp only <;> omega
  unfold encodeFrame
  simp only [hc]
  have hh : frameW1 seq ctype ⟨len.toNat, h⟩ = frameHead seq ctype len := by
    rw [frameW1_bytes]
    simp [frameHead]
  rw [hh]
  have ht : insertChecksum ⟨len.toNat, h⟩ (payloadW2 ⟨len.toNat, h⟩ p0 p1) (BitVec.ofNat 16 (frameSum seq ctype len p0 p1)) =
      frameTail seq ctype len p0 p1 := by
    obtain h0 | h1 | h2 : len = 0 ∨ len = 1 ∨ len = 2 := by
      have : len.toNat = 0 ∨ len.toNat = 1 ∨ len.toNat = 2 := by omega
      obtain e | e | e := this
      · exact .inl (BitVec.eq_of_toNat_eq e)
      · exact .inr (.inl (BitVec.eq_of_toNat_eq e))
      · exact .inr (.inr (BitVec.eq_of_toNat_eq e))
    · subst h0
      exact insertChecksum_zero _
    · subst h1
      rw [payloadW2_bytes]
      exact insertChecksum_one p0 _
    · subst h2
      rw [payloadW2_bytes]
      exact insertChecksum_two p0 p1 _
  rw [ht]

end Sys2Proof.Machine
end

