-- ==== Sys2Proof/Laws/Memory.lean ====
section
/-! SUPPORT. The raw buffer: a read after a write, every other offset unchanged, and the canonical form kept. -/

namespace Sys2Proof.Machine

@[simp] theorem Memory.read_nil (a : Nat) : Memory.read [] a = 0 := rfl

theorem Memory.erase_length (m : Memory) (x : Nat) : (m.erase x).length ≤ m.length := by
  induction m with
  | nil => simp [Memory.erase]
  | cons c m ih => simp only [Memory.erase]; split <;> simp <;> omega

theorem Memory.read_erase (m : Memory) (a b : Nat) : Memory.read (m.erase a) b = if b = a then 0 else m.read b := by
  induction m with
  | nil => simp [Memory.erase]
  | cons c m ih =>
    obtain ⟨k, w⟩ := c
    by_cases hk : a = k
    · simp only [Memory.erase, hk, if_true, Memory.read]
      rw [hk] at ih
      rw [ih]
      split <;> simp_all
    · simp only [Memory.erase, if_neg hk, Memory.read]
      by_cases hb : b = k
      · subst hb
        simp [Ne.symm hk]
      · simp [hb, ih]

theorem Memory.read_insert (m : Memory) (a b : Nat) (v : Byte) (h : m.read a = 0 ∧ m.erase a = m) :
    Memory.read (m.insert a v) b = if b = a then v else m.read b := by
  induction m with
  | nil => simp [Memory.insert, Memory.read]
  | cons c m ih =>
    obtain ⟨k, w⟩ := c
    obtain ⟨_, he⟩ := h
    have hk : a ≠ k := by
      intro hk
      simp only [Memory.erase, hk, if_true] at he
      have := Memory.erase_length m k
      rw [he] at this
      simp at this
    simp only [Memory.erase, if_neg hk, List.cons.injEq, true_and] at he
    have hr : Memory.read m a = 0 := by
      have := Memory.read_erase m a a
      rw [he] at this
      simpa using this
    simp only [Memory.insert]
    split
    · simp [Memory.read]
    · simp only [Memory.read, ih ⟨hr, he⟩]
      by_cases hb : b = k
      · subst hb
        simp [Ne.symm hk]
      · simp [hb]

theorem Memory.erase_erase (m : Memory) (a : Nat) : (m.erase a).erase a = m.erase a := by
  induction m with
  | nil => rfl
  | cons c m ih =>
    obtain ⟨k, w⟩ := c
    by_cases hk : a = k
    · simpa only [Memory.erase, hk, if_true] using hk ▸ ih
    · simp only [Memory.erase, if_neg hk, ih]

/-- A byte reads back what was stored, and every other offset reads as before. -/
@[simp] theorem Memory.read_write (m : Memory) (a b : Nat) (v : Byte) :
    Memory.read (m.write a v) b = if b = a then v else m.read b := by
  unfold Memory.write
  split
  · rename_i h
    rw [Memory.read_erase, h]
  · rw [Memory.read_insert _ _ _ _ ⟨by simp [Memory.read_erase], Memory.erase_erase m a⟩, Memory.read_erase]
    split <;> rfl

/-- Storing bytes at rising offsets: offset `b` reads the byte stored there, or what it read before. -/
theorem Memory.read_writeBytes (vs : List Byte) (m : Memory) (a b : Nat) :
    Memory.read (m.writeBytes a vs) b = if a ≤ b ∧ b < a + vs.length then vs.getD (b - a) 0 else m.read b := by
  induction vs generalizing m a with
  | nil =>
    have : ¬ (a ≤ b ∧ b < a + ([] : List Byte).length) := by simp
    simp only [Memory.writeBytes, if_neg this]
  | cons v vs ih =>
    simp only [Memory.writeBytes, ih, Memory.read_write, List.length_cons]
    by_cases hba : b = a
    · subst hba
      have : ¬ (b + 1 ≤ b ∧ b < b + 1 + vs.length) := by omega
      rw [if_neg this]
      simp
    · by_cases hin : a + 1 ≤ b ∧ b < a + 1 + vs.length
      · have h' : a ≤ b ∧ b < a + (vs.length + 1) := by omega
        rw [if_pos hin, if_pos h']
        obtain ⟨d, rfl⟩ : ∃ d, b = a + 1 + d := ⟨b - (a + 1), by omega⟩
        have e1 : a + 1 + d - (a + 1) = d := by omega
        have e2 : a + 1 + d - a = d + 1 := by omega
        rw [e1, e2]
        simp
      · have h' : ¬ (a ≤ b ∧ b < a + (vs.length + 1)) := by omega
        rw [if_neg hin, if_neg h', if_neg hba]

/-- Storing two pieces one after the other is storing both. -/
theorem Memory.writeBytes_append (m : Memory) (a : Nat) (vs ws : List Byte) :
    m.writeBytes a (vs ++ ws) = (m.writeBytes a vs).writeBytes (a + vs.length) ws := by
  induction vs generalizing m a with
  | nil => simp [Memory.writeBytes]
  | cons v vs ih =>
    simp only [List.cons_append, Memory.writeBytes, ih, List.length_cons]
    congr 1
    omega

theorem Memory.above_weaken {m : Memory} {a b : Nat} (h : b ≤ a) (hm : Memory.above a m = true) : Memory.above b m = true := by
  cases m with
  | nil => rfl
  | cons c m =>
    obtain ⟨k, w⟩ := c
    simp only [Memory.above, Bool.and_eq_true, decide_eq_true_eq] at hm ⊢
    exact ⟨⟨by omega, hm.1.2⟩, hm.2⟩

theorem Memory.above_erase {m : Memory} {x : Nat} (a : Nat) (h : Memory.above x m = true) :
    Memory.above x (m.erase a) = true := by
  induction m generalizing x with
  | nil => rfl
  | cons c m ih =>
    obtain ⟨k, w⟩ := c
    simp only [Memory.above, Bool.and_eq_true, decide_eq_true_eq] at h
    simp only [Memory.erase]
    split
    · exact ih (Memory.above_weaken (by omega) h.2)
    · simp only [Memory.above, Bool.and_eq_true, decide_eq_true_eq]
      exact ⟨h.1, ih h.2⟩

theorem Memory.above_insert {m : Memory} {x a : Nat} {v : Byte} (hx : x < a) (hv : v ≠ 0) (hne : m.erase a = m)
    (h : Memory.above x m = true) : Memory.above x (m.insert a v) = true := by
  induction m generalizing x with
  | nil => simpa [Memory.insert, Memory.above, hx] using hv
  | cons c m ih =>
    obtain ⟨k, w⟩ := c
    simp only [Memory.above, Bool.and_eq_true, decide_eq_true_eq] at h
    simp only [Memory.insert]
    by_cases hk : a = k
    · exfalso
      simp only [Memory.erase, hk, if_true] at hne
      have := Memory.erase_length m k
      rw [hne] at this
      simp at this
    · simp only [Memory.erase, if_neg hk, List.cons.injEq, true_and] at hne
      split
      · simp only [Memory.above, Bool.and_eq_true, decide_eq_true_eq]
        exact ⟨⟨hx, hv⟩, ⟨by assumption, h.1.2⟩, h.2⟩
      · simp only [Memory.above, Bool.and_eq_true, decide_eq_true_eq]
        exact ⟨h.1, ih (by omega) hne h.2⟩

theorem Memory.wf_of_above {m : Memory} {a : Nat} (h : Memory.above a m = true) : m.wf = true := by
  cases m with
  | nil => rfl
  | cons c m =>
    obtain ⟨k, w⟩ := c
    simp only [Memory.above, Memory.wf, Bool.and_eq_true, decide_eq_true_eq] at h ⊢
    exact ⟨h.1.2, h.2⟩

theorem Memory.wf_erase {m : Memory} (a : Nat) (h : m.wf = true) : (m.erase a).wf = true := by
  cases m with
  | nil => rfl
  | cons c m =>
    obtain ⟨k, w⟩ := c
    simp only [Memory.wf, Bool.and_eq_true, decide_eq_true_eq] at h
    simp only [Memory.erase]
    split
    · exact Memory.wf_of_above (Memory.above_erase a h.2)
    · simp only [Memory.wf, Bool.and_eq_true, decide_eq_true_eq]
      exact ⟨h.1, Memory.above_erase a h.2⟩

theorem Memory.wf_insert {m : Memory} {a : Nat} {v : Byte} (hv : v ≠ 0) (hne : m.erase a = m) (h : m.wf = true) :
    (m.insert a v).wf = true := by
  cases m with
  | nil => simpa [Memory.insert, Memory.wf, Memory.above] using hv
  | cons c m =>
    obtain ⟨k, w⟩ := c
    simp only [Memory.wf, Bool.and_eq_true, decide_eq_true_eq] at h
    simp only [Memory.insert]
    split
    · simp only [Memory.wf, Memory.above, Bool.and_eq_true, decide_eq_true_eq]
      exact ⟨hv, ⟨by assumption, h.1⟩, h.2⟩
    · rename_i hlt
      by_cases hk : a = k
      · exfalso
        have hl := congrArg List.length hne
        simp only [Memory.erase, hk, if_true, List.length_cons] at hl
        have := Memory.erase_length m k
        omega
      · simp only [Memory.erase, if_neg hk, List.cons.injEq, true_and] at hne
        simp only [Memory.wf, Bool.and_eq_true, decide_eq_true_eq]
        exact ⟨h.1, Memory.above_insert (by omega) hv hne h.2⟩

/-- Every store keeps the canonical form. -/
theorem Memory.wf_write {m : Memory} (a : Nat) (v : Byte) (h : m.wf = true) : (m.write a v).wf = true := by
  unfold Memory.write
  split
  · exact Memory.wf_erase a h
  · rename_i hv
    exact Memory.wf_insert hv (Memory.erase_erase m a) (Memory.wf_erase a h)

theorem Memory.wf_writeBytes {m : Memory} (a : Nat) (vs : List Byte) (h : m.wf = true) : (m.writeBytes a vs).wf = true := by
  induction vs generalizing m a with
  | nil => exact h
  | cons v vs ih => exact ih (a + 1) (Memory.wf_write a v h)

@[simp] theorem vector_toList_length {n : Nat} (v : Vector Byte n) : v.toList.length = n := by simp

/-- R158, R159: the status byte after the head is stored is byte 2 of the answer. -/
theorem Memory.read_head_status (m : Memory) (b : Vector Byte 8) :
    Memory.read (m.writeBytes 0 b.toList) offStatus = b[2] := by
  rw [Memory.read_writeBytes]
  simp [offStatus]

/-- R162: the declared length after the head is stored is bytes 3 and 4 of the answer. -/
theorem Memory.be16_head_len (m : Memory) (b : Vector Byte 8) : be16 (m.writeBytes 0 b.toList) 3 = b[3] ++ b[4] := by
  simp [be16, Memory.read_writeBytes]

end Sys2Proof.Machine
end

