-- ==== Sys2Proof/Laws/Sequencer.lean ====
section
/-! SUPPORT. Everything `Send` and `Fetch` can do, by the transport's answers: all `ok`, an `err` at one call, or no further answer;
and what happens when the answers come in two parts. -/

namespace Sys2Proof.Machine

/-! ### The writes of a SEND -/

theorem runWrites_ok (cs : List Call) (bs : List (Vector Byte 8)) (s : State) (rest : List Answer)
    (hl : bs.length = cs.length) (ha : s.answers = bs.map .ok ++ rest) :
    runWrites cs s =
      .done { s with calls := s.calls ++ cs, answers := rest, seqStep := s.seqStep + cs.length } := by
  induction cs generalizing bs s with
  | nil =>
    obtain rfl : bs = [] := List.eq_nil_of_length_eq_zero hl
    simp only [List.map_nil, List.nil_append] at ha
    subst ha
    simp [runWrites]
  | cons c cs ih =>
    match bs, hl with
    | b :: bs, hl =>
      simp only [List.map_cons, List.cons_append] at ha
      simp only [runWrites, ha]
      rw [ih bs _ (by simpa using hl) (by simp)]
      have e : s.seqStep + 1 + cs.length = s.seqStep + (cs.length + 1) := by omega
      simp [e]

theorem runWrites_err (cs : List Call) (bs : List (Vector Byte 8)) (s : State) (rest : List Answer)
    (hl : bs.length < cs.length) (ha : s.answers = bs.map .ok ++ .err :: rest) :
    runWrites cs s =
      .raised (.transportError (BitVec.ofNat 8 (s.seqStep + bs.length + 1)))
        { s with calls := s.calls ++ cs.take (bs.length + 1), answers := rest, seqStep := 0 } := by
  induction cs generalizing bs s with
  | nil => simp at hl
  | cons c cs ih =>
    match bs, hl with
    | [], _ =>
      simp only [List.map_nil, List.nil_append] at ha
      simp [runWrites, ha, sendFailed, sendBroken]
    | b :: bs, hl =>
      simp only [List.map_cons, List.cons_append] at ha
      simp only [runWrites, ha]
      rw [ih bs _ (by simpa using hl) (by simp)]
      have e : s.seqStep + 1 + bs.length + 1 = s.seqStep + (bs.length + 1) + 1 := by omega
      simp [e]

theorem runWrites_wait (cs : List Call) (bs : List (Vector Byte 8)) (s : State)
    (hl : bs.length < cs.length) (ha : s.answers = bs.map .ok) :
    runWrites cs s =
      .waiting { s with calls := s.calls ++ cs.take bs.length, answers := [], seqStep := s.seqStep + bs.length } := by
  induction cs generalizing bs s with
  | nil => simp at hl
  | cons c cs ih =>
    match bs, hl with
    | [], _ =>
      simp only [List.map_nil] at ha
      have hs : ({ s with calls := s.calls ++ (c :: cs).take 0, answers := [], seqStep := s.seqStep + 0 } : State) = s := by
        rw [← ha]
        simp
      simp only [List.length_nil]
      rw [hs]
      simp [runWrites, ha]
    | b :: bs, hl =>
      simp only [List.map_cons] at ha
      simp only [runWrites, ha]
      rw [ih bs _ (by simpa using hl) (by simp)]
      have e : s.seqStep + 1 + bs.length = s.seqStep + (bs.length + 1) := by omega
      simp [e]

/-! ### A whole SEND -/

/-- R158: until call 8 is answered `ok`, it follows the writes. -/
theorem sendTail_read {s : State} (h : s.seqStep < 8) : sendTail s = sendRead s := if_pos h

theorem sendWrites_length (bus : OpenParams) (w1 w2 : Word) : (sendWrites bus w1 w2).length = 7 := rfl

/-- R151: the eight calls of a SEND in order. -/
theorem commandCalls_eq (bus : OpenParams) (w1 w2 : Word) : commandCalls bus w1 w2 = sendWrites bus w1 w2 ++ [dataRead bus] := rfl

/-- R150, R158, R159: every call answers `ok`. -/
theorem sendRun_ok (s : State) (bs : List (Vector Byte 8)) (b : Vector Byte 8) (rest : List Answer) (h0 : s.seqStep = 0)
    (hl : bs.length = 7) (ha : s.answers = bs.map .ok ++ .ok b :: rest) :
    sendRun s =
      if b[2] = 0 then .done (s.sent b rest) else .raised (.protocolError b[2]) (s.sent b rest) := by
  unfold sendRun
  rw [h0, List.drop_zero, runWrites_ok _ bs s (.ok b :: rest) (by rw [hl]; rfl) ha]
  simp only [Proc.andThen]
  rw [sendTail_read (by simp [h0, sendWrites_length])]
  simp only [sendRead, sendStatus, storeHead_raw, State.answered_raw, Memory.read_head_status]
  have e : s.sent b rest = { s.sent b rest with seqStep := 0 } := by rw [← h0]; rfl
  rw [e]
  simp [State.sent, storeHead, State.answered, commandCalls_eq]

/-- R160: call `k + 1` of a SEND answers `err` after `k` answers `ok`. -/
theorem sendRun_err (s : State) (bs : List (Vector Byte 8)) (rest : List Answer) (h0 : s.seqStep = 0)
    (hl : bs.length < 8) (ha : s.answers = bs.map .ok ++ .err :: rest) :
    sendRun s =
      .raised (.transportError (BitVec.ofNat 8 (bs.length + 1)))
        { s with calls := s.calls ++ (commandCalls s.cfg.bus s.work.w1 s.work.w2).take (bs.length + 1), answers := rest,
                 seqStep := 0 } := by
  unfold sendRun
  rw [h0, List.drop_zero]
  by_cases h7 : bs.length < 7
  · rw [runWrites_err _ bs s rest (by simpa [sendWrites_length] using h7) ha]
    have : (commandCalls s.cfg.bus s.work.w1 s.work.w2).take (bs.length + 1) =
        (sendWrites s.cfg.bus s.work.w1 s.work.w2).take (bs.length + 1) := by
      rw [commandCalls_eq, List.take_append_of_le_length (by rw [sendWrites_length]; omega)]
    simp [Proc.andThen, this, h0]
  · have h7 : bs.length = 7 := by omega
    rw [runWrites_ok _ bs s (.err :: rest) (by rw [h7]; rfl) ha]
    have : (commandCalls s.cfg.bus s.work.w1 s.work.w2).take (bs.length + 1) = commandCalls s.cfg.bus s.work.w1 s.work.w2 := by
      rw [h7]; rfl
    rw [this]
    simp [Proc.andThen, sendTail, sendRead, sendFailed, sendBroken, commandCalls_eq, h0, h7, State.answered, sendWrites_length]

/-- R24, R357: only `k` answers, all `ok`: the SEND stands at `step = k`. -/
theorem sendRun_wait (s : State) (bs : List (Vector Byte 8)) (h0 : s.seqStep = 0)
    (hl : bs.length < 8) (ha : s.answers = bs.map .ok) :
    sendRun s =
      .waiting { s with calls := s.calls ++ (sendWrites s.cfg.bus s.work.w1 s.work.w2).take bs.length, answers := [],
                        seqStep := bs.length } := by
  unfold sendRun
  rw [h0, List.drop_zero]
  by_cases h7 : bs.length < 7
  · rw [runWrites_wait _ bs s (by simpa [sendWrites_length] using h7) ha]
    simp [Proc.andThen, h0]
  · have h7 : bs.length = 7 := by omega
    rw [runWrites_ok _ bs s [] (by rw [h7]; rfl) (by simpa using ha)]
    have : (sendWrites s.cfg.bus s.work.w1 s.work.w2).take bs.length = sendWrites s.cfg.bus s.work.w1 s.work.w2 := by
      rw [h7]; rfl
    rw [this]
    simp [Proc.andThen, sendTail, sendRead, h0, h7, sendWrites_length]

/-- The transport's answers: a run of `ok`, then an `err`, or the end. -/
theorem answers_cases (as : List Answer) :
    ∃ bs : List (Vector Byte 8), as = bs.map .ok ∨ ∃ rest, as = bs.map .ok ++ .err :: rest := by
  induction as with
  | nil => exact ⟨[], .inl rfl⟩
  | cons a as ih =>
    cases a with
    | err => exact ⟨[], .inr ⟨as, rfl⟩⟩
    | ok b =>
      obtain ⟨bs, h | ⟨rest, h⟩⟩ := ih
      · exact ⟨b :: bs, .inl (by simp [h])⟩
      · exact ⟨b :: bs, .inr ⟨rest, by simp [h]⟩⟩

/-! ### The reads of a FETCH -/

theorem RawLen.ofNat_val {n : Nat} (h : n ≤ 4096) : (RawLen.ofNat n).val = n := by simp [RawLen.ofNat, h]

theorem fetchTotal_le (len : Half) : fetchTotal len ≤ 4096 := by unfold fetchTotal occDataMax; omega

/-- The state after the reads of a FETCH from `foff` on that answered `chunks`, `rest` still to come. -/
def State.chunked (s : State) (chunks : List (Vector Byte 8)) (rest : List Answer) : State :=
  { s with calls := s.calls ++ List.replicate chunks.length (dataRead s.cfg.bus), answers := rest,
           raw := s.raw.writeBytes s.work.foff (chunks.flatMap fun b => b.toList),
           rawLen := RawLen.ofNat (s.work.foff + 8 * chunks.length),
           work := { s.work with foff := s.work.foff + 8 * chunks.length } }

theorem State.chunked_nil (s : State) (h : s.rawLen = RawLen.ofNat s.work.foff) : s.chunked [] s.answers = s := by
  simp only [State.chunked, List.length_nil, List.replicate_zero, List.append_nil, List.flatMap_nil, Memory.writeBytes,
    Nat.mul_zero, Nat.add_zero, ← h]

theorem State.chunked_cons (s : State) (b : Vector Byte 8) (bs : List (Vector Byte 8)) (rest mid : List Answer) :
    (storeChunk b (s.answered (dataRead s.cfg.bus) mid)).chunked bs rest = s.chunked (b :: bs) rest := by
  simp only [State.chunked, storeChunk_calls, State.answered_calls, storeChunk_cfg, State.answered_cfg, List.length_cons,
    storeChunk_raw, State.answered_raw, storeChunk_work, State.answered_work, List.flatMap_cons]
  have e1 : s.work.foff + 8 + 8 * bs.length = s.work.foff + 8 * (bs.length + 1) := by omega
  have e2 : s.raw.writeBytes s.work.foff (b.toList ++ bs.flatMap fun b => b.toList) =
      (s.raw.writeBytes s.work.foff b.toList).writeBytes (s.work.foff + 8) (bs.flatMap fun b => b.toList) := by
    rw [Memory.writeBytes_append]
    simp
  rw [e1, e2]
  simp [List.replicate_succ]

/-- R162 to R164: every read answers `ok`. `chunks` are as many as `total` asks for from `foff` on. -/
theorem fetchLoop_ok (chunks : List (Vector Byte 8)) (n : Nat) (s : State) (rest : List Answer)
    (hr : s.rawLen = RawLen.ofNat s.work.foff) (hn : s.work.total - s.work.foff ≤ n)
    (h8 : s.work.foff % 8 = 0) (ht : s.work.total ≤ 4096)
    (hl : chunks.length = (s.work.total - s.work.foff + 7) / 8) (ha : s.answers = chunks.map .ok ++ rest) :
    fetchLoop n s = .done (s.chunked chunks rest) := by
  induction chunks generalizing n s with
  | nil =>
    have hge : s.work.total ≤ s.work.foff := by simp at hl; omega
    have hs : s.chunked [] rest = s := by
      have : rest = s.answers := by simpa using ha.symm
      rw [this]
      exact State.chunked_nil s hr
    rw [hs]
    cases n with
    | zero => rfl
    | succ n => simp [fetchLoop, Nat.not_lt.mpr hge]
  | cons b bs ih =>
    simp only [List.length_cons] at hl
    have hlt : s.work.foff < s.work.total := by omega
    match n, hn with
    | n + 1, hn =>
      have hin : s.work.foff + 8 ≤ occDataMax := by unfold occDataMax; omega
      simp only [List.map_cons, List.cons_append] at ha
      simp only [fetchLoop, hlt, if_true, ha, hin]
      rw [ih n _ (by simp) (by simp; omega) (by simp; omega) (by simpa using ht) (by simp; omega) (by simp)]
      rw [State.chunked_cons]
    | 0, hn => omega

/-- R165: a read answers `err` after `chunks`, before `total` is reached. -/
theorem fetchLoop_err (chunks : List (Vector Byte 8)) (n : Nat) (s : State) (rest : List Answer)
    (hr : s.rawLen = RawLen.ofNat s.work.foff) (hn : s.work.total - s.work.foff ≤ n)
    (h8 : s.work.foff % 8 = 0) (ht : s.work.total ≤ 4096)
    (hl : s.work.foff + 8 * chunks.length < s.work.total) (ha : s.answers = chunks.map .ok ++ .err :: rest) :
    fetchLoop n s =
      .raised (.transportError 9)
        ((s.chunked chunks (.err :: rest)).answered (dataRead s.cfg.bus) rest) := by
  induction chunks generalizing n s with
  | nil =>
    have hs : s.chunked [] (.err :: rest) = s := by
      have : (.err :: rest : List Answer) = s.answers := by simpa using ha.symm
      rw [this]
      exact State.chunked_nil s hr
    rw [hs]
    have hlt : s.work.foff < s.work.total := by simpa using hl
    match n, hn with
    | n + 1, hn =>
      simp only [List.map_nil, List.nil_append] at ha
      simp [fetchLoop, hlt, ha, fetchBroken]
    | 0, hn => omega
  | cons b bs ih =>
    simp only [List.length_cons] at hl
    have hlt : s.work.foff < s.work.total := by omega
    match n, hn with
    | n + 1, hn =>
      have hin : s.work.foff + 8 ≤ occDataMax := by unfold occDataMax; omega
      simp only [List.map_cons, List.cons_append] at ha
      simp only [fetchLoop, hlt, if_true, ha, hin]
      rw [ih n _ (by simp) (by simp; omega) (by simp; omega) (by simpa using ht) (by simp; omega) (by simp)]
      rw [State.chunked_cons]
      rfl
    | 0, hn => omega

/-- R357: the answers end before `total` is reached. -/
theorem fetchLoop_wait (chunks : List (Vector Byte 8)) (n : Nat) (s : State)
    (hr : s.rawLen = RawLen.ofNat s.work.foff) (hn : s.work.total - s.work.foff ≤ n)
    (h8 : s.work.foff % 8 = 0) (ht : s.work.total ≤ 4096)
    (hl : s.work.foff + 8 * chunks.length < s.work.total) (ha : s.answers = chunks.map .ok) :
    fetchLoop n s = .waiting (s.chunked chunks []) := by
  induction chunks generalizing n s with
  | nil =>
    have hs : s.chunked [] [] = s := by
      have : ([] : List Answer) = s.answers := by simpa using ha.symm
      rw [this]
      exact State.chunked_nil s hr
    rw [hs]
    have hlt : s.work.foff < s.work.total := by simpa using hl
    match n, hn with
    | n + 1, hn =>
      simp only [List.map_nil] at ha
      simp [fetchLoop, hlt, ha]
    | 0, hn => omega
  | cons b bs ih =>
    simp only [List.length_cons] at hl
    have hlt : s.work.foff < s.work.total := by omega
    match n, hn with
    | n + 1, hn =>
      have hin : s.work.foff + 8 ≤ occDataMax := by unfold occDataMax; omega
      simp only [List.map_cons] at ha
      simp only [fetchLoop, hlt, if_true, ha, hin]
      rw [ih n _ (by simp) (by simp; omega) (by simp; omega) (by simpa using ht) (by simp; omega) (by simp)]
      rw [State.chunked_cons]
    | 0, hn => omega

/-- R164: from a multiple of 8 below `total`, no store leaves the buffer. -/
theorem fetchLoop_not_halted (n : Nat) (s : State) (h8 : s.work.foff % 8 = 0) (ht : s.work.total ≤ 4096) (f : Fault) :
    fetchLoop n s ≠ .halted f := by
  induction n generalizing s with
  | zero => simp [fetchLoop]
  | succ n ih =>
    unfold fetchLoop
    split
    · split
      · simp
      · simp [fetchBroken]
      · rw [if_pos (by unfold occDataMax; omega)]
        exact ih _ (by simp; omega) (by simpa using ht)
    · simp

end Sys2Proof.Machine
end

