-- ==== Sys2Proof/Laws/Resume.lean ====
section
/-! SUPPORT. A procedure that waits goes on as if all answers had been there at once: each transport call is a step of its own (20_memory.md
R72, R76), and how the answers are spread over steps changes nothing. -/

namespace Sys2Proof.Machine

/-- The state with the transport's answers replaced. -/
def State.withAnswers (s : State) (a : List Answer) : State := { s with answers := a }

@[simp] theorem State.withAnswers_answers (s : State) (a : List Answer) : (s.withAnswers a).answers = a := rfl
@[simp] theorem State.withAnswers_calls (s : State) (a : List Answer) : (s.withAnswers a).calls = s.calls := rfl
@[simp] theorem State.withAnswers_seqStep (s : State) (a : List Answer) : (s.withAnswers a).seqStep = s.seqStep := rfl
@[simp] theorem State.withAnswers_work (s : State) (a : List Answer) : (s.withAnswers a).work = s.work := rfl
@[simp] theorem State.withAnswers_cfg (s : State) (a : List Answer) : (s.withAnswers a).cfg = s.cfg := rfl
@[simp] theorem State.withAnswers_raw (s : State) (a : List Answer) : (s.withAnswers a).raw = s.raw := rfl
@[simp] theorem State.withAnswers_rawLen (s : State) (a : List Answer) : (s.withAnswers a).rawLen = s.rawLen := rfl
@[simp] theorem State.withAnswers_dec (s : State) (a : List Answer) : (s.withAnswers a).dec = s.dec := rfl
@[simp] theorem State.withAnswers_cache (s : State) (a : List Answer) : (s.withAnswers a).cache = s.cache := rfl
@[simp] theorem State.withAnswers_activity (s : State) (a : List Answer) : (s.withAnswers a).activity = s.activity := rfl
@[simp] theorem State.withAnswers_now (s : State) (a : List Answer) : (s.withAnswers a).now = s.now := rfl
@[simp] theorem State.withAnswers_withAnswers (s : State) (a b : List Answer) :
    (s.withAnswers a).withAnswers b = s.withAnswers b := rfl

/-- What a procedure comes to when more answers `b` follow: an ended procedure leaves them, a waiting one goes on with `k`. -/
def Proc.goOn (p : Proc) (b : List Answer) (k : State → Proc) : Proc :=
  match p with
  | .done t => .done (t.withAnswers (t.answers ++ b))
  | .raised e t => .raised e (t.withAnswers (t.answers ++ b))
  | .waiting w => k (w.withAnswers b)
  | .halted f => .halted f

/-- What a write leaves when it waits: the same frame and parameters, no answer left, and `step` moved by the calls made. -/
theorem runWrites_waiting (cs : List Call) (s w : State) (h : runWrites cs s = .waiting w) :
    w.cfg = s.cfg ∧ w.work = s.work ∧ w.answers = [] ∧ w.activity = s.activity ∧ s.seqStep ≤ w.seqStep ∧
      w.seqStep - s.seqStep < cs.length := by
  induction cs generalizing s with
  | nil => simp [runWrites] at h
  | cons c cs ih =>
    unfold runWrites at h
    split at h
    · rename_i he
      simp only [Proc.waiting.injEq] at h
      subst h
      simp [he]
    · simp [sendFailed, sendBroken] at h
    · obtain ⟨h1, h2, h3, h4, h5, h6⟩ := ih _ h
      refine ⟨h1, h2, h3, h4, ?_, ?_⟩ <;> simp only [List.length_cons] at * <;> simp at h5 h6 <;> omega

theorem runWrites_split (cs : List Call) (s : State) (a b : List Answer) :
    runWrites cs (s.withAnswers (a ++ b)) =
      (runWrites cs (s.withAnswers a)).goOn b fun w => runWrites (cs.drop (w.seqStep - s.seqStep)) w := by
  induction cs generalizing s a with
  | nil => rfl
  | cons c cs ih =>
    match a with
    | [] =>
      simp [runWrites, Proc.goOn]
    | .err :: rest => rfl
    | .ok x :: rest =>
      simp only [List.cons_append, runWrites, State.withAnswers_answers]
      have hs : ∀ r : List Answer, ({ (s.withAnswers (.ok x :: r)).answered c r with
          seqStep := (s.withAnswers (.ok x :: r)).seqStep + 1 } : State) =
          ({ s with calls := s.calls ++ [c], seqStep := s.seqStep + 1 } : State).withAnswers r := fun _ => rfl
      rw [hs (rest ++ b), hs rest, ih]
      cases hp : runWrites cs (({ s with calls := s.calls ++ [c], seqStep := s.seqStep + 1 } : State).withAnswers rest) with
      | done t => rfl
      | raised e t => rfl
      | halted f => rfl
      | waiting w =>
        obtain ⟨_, _, _, _, h5, _⟩ := runWrites_waiting _ _ _ hp
        simp only [Proc.goOn, State.withAnswers_seqStep]
        have e : w.seqStep - s.seqStep = (w.seqStep - (s.seqStep + 1)) + 1 := by
          simp only [State.withAnswers_seqStep] at h5; omega
        rw [e, List.drop_succ_cons]

theorem sendRead_split (s : State) (a b : List Answer) :
    sendRead (s.withAnswers (a ++ b)) = (sendRead (s.withAnswers a)).goOn b sendRead := by
  match a with
  | [] => rfl
  | .err :: rest => rfl
  | .ok x :: rest =>
    have e : ∀ r : List Answer, sendRead (s.withAnswers (.ok x :: r)) =
        sendStatus ((storeHead x (s.answered (dataRead s.cfg.bus) [])).withAnswers r) := fun _ => rfl
    rw [List.cons_append, e, e]
    generalize storeHead x (s.answered (dataRead s.cfg.bus) []) = u
    by_cases h : u.raw.read offStatus = 0
    · simp only [sendStatus, State.withAnswers_raw, h, if_true]
      rfl
    · simp only [sendStatus, State.withAnswers_raw, h, if_false]
      rfl

/-- The return status needs no answer. -/
theorem sendStatus_ended (s w : State) : sendStatus s ≠ .waiting w := by
  unfold sendStatus
  simp only
  split <;> simp

theorem sendRead_waiting (s w : State) (h : sendRead s = .waiting w) : w = s ∧ s.answers = [] := by
  unfold sendRead at h
  split at h
  · rename_i he
    simp only [Proc.waiting.injEq] at h
    exact ⟨h.symm, he⟩
  · simp [sendFailed, sendBroken] at h
  · exact absurd h (sendStatus_ended _ _)

theorem sendTail_waiting (s w : State) (h : sendTail s = .waiting w) : w = s ∧ s.answers = [] ∧ s.seqStep < 8 := by
  unfold sendTail at h
  split at h
  · rename_i h8
    obtain ⟨h1, h2⟩ := sendRead_waiting s w h
    exact ⟨h1, h2, h8⟩
  · exact absurd h (sendStatus_ended _ _)

theorem sendTail_split (s : State) (a b : List Answer) :
    sendTail (s.withAnswers (a ++ b)) = (sendTail (s.withAnswers a)).goOn b sendTail := by
  by_cases h8 : s.seqStep < 8
  · rw [sendTail_read (by simpa using h8), sendTail_read (by simpa using h8), sendRead_split]
    cases hr : sendRead (s.withAnswers a) with
    | done t => rfl
    | raised e t => rfl
    | halted f => rfl
    | waiting w =>
      obtain ⟨rfl, _⟩ := sendRead_waiting _ _ hr
      exact (sendTail_read (by simpa using h8)).symm
  · simp only [sendTail, State.withAnswers_seqStep, h8, if_false]
    by_cases h : s.raw.read offStatus = 0
    · simp only [sendStatus, State.withAnswers_raw, h, if_true]
      rfl
    · simp only [sendStatus, State.withAnswers_raw, h, if_false]
      rfl

/-- R150 resumed: the answers of a SEND in two parts. -/
theorem sendRun_split (s : State) (a b : List Answer) :
    sendRun (s.withAnswers (a ++ b)) = (sendRun (s.withAnswers a)).goOn b sendRun := by
  unfold sendRun
  simp only [State.withAnswers_cfg, State.withAnswers_work, State.withAnswers_seqStep]
  rw [runWrites_split]
  cases hp : runWrites ((sendWrites s.cfg.bus s.work.w1 s.work.w2).drop s.seqStep) (s.withAnswers a) with
  | raised e t => rfl
  | halted f => rfl
  | waiting w =>
    obtain ⟨h1, h2, _, _, h5, _⟩ := runWrites_waiting _ _ _ hp
    simp only [State.withAnswers_cfg, State.withAnswers_work, State.withAnswers_seqStep] at h1 h2 h5
    simp only [Proc.goOn, Proc.andThen, State.withAnswers_seqStep, State.withAnswers_cfg, State.withAnswers_work, h1, h2,
      List.drop_drop]
    have : s.seqStep + (w.seqStep - s.seqStep) = w.seqStep := by omega
    rw [this]
  | done t =>
    simp only [Proc.goOn, Proc.andThen]
    rw [sendTail_split]
    have ht : t.withAnswers t.answers = t := rfl
    rw [ht]
    cases hr : sendTail t with
    | done u => rfl
    | raised e u => rfl
    | halted f => rfl
    | waiting w =>
      obtain ⟨rfl, _⟩ := sendTail_waiting _ _ hr
      have hd : ∀ (cs : List Call) (s' t' : State), runWrites cs s' = .done t' →
          t'.cfg = s'.cfg ∧ t'.work = s'.work ∧ t'.seqStep = s'.seqStep + cs.length := by
        intro cs
        induction cs with
        | nil => intro s' t' h; simp only [runWrites, Proc.done.injEq] at h; subst h; simp
        | cons c cs ih =>
          intro s' t' h
          unfold runWrites at h
          split at h
          · simp at h
          · simp [sendFailed, sendBroken] at h
          · obtain ⟨h1, h2, h3⟩ := ih _ _ h
            refine ⟨h1, h2, ?_⟩
            rw [h3]
            simp only [List.length_cons]
            omega
      obtain ⟨h1, h2, h3⟩ := hd _ _ _ hp
      simp only [State.withAnswers_cfg, State.withAnswers_work, State.withAnswers_seqStep] at h1 h2 h3
      simp only [State.withAnswers_cfg, State.withAnswers_work, State.withAnswers_seqStep, h1, h2]
      have hdrop : (sendWrites s.cfg.bus s.work.w1 s.work.w2).drop w.seqStep = [] := by
        rw [List.drop_eq_nil_iff, h3, List.length_drop, sendWrites_length]
        omega
      rw [hdrop]
      rfl

/-- More fuel than the distance to `total` changes nothing. -/
theorem fetchLoop_fuel (n : Nat) (s : State) (h : s.work.total - s.work.foff ≤ n) : fetchLoop n s = fetchRun s := by
  unfold fetchRun
  generalize hd : s.work.total - s.work.foff = d at h
  induction n using Nat.strong_induction_on generalizing s d with
  | _ n ih =>
    match n, d with
    | 0, 0 => rfl
    | n + 1, 0 =>
      have : ¬ s.work.foff < s.work.total := by omega
      simp [fetchLoop, this]
    | n + 1, d + 1 =>
      unfold fetchLoop
      split
      · split
        · rfl
        · rfl
        · split
          · rename_i rest _ _
            set s' := storeChunk _ (s.answered (dataRead s.cfg.bus) rest) with hs'
            have hw : s'.work.total - s'.work.foff ≤ d := by simp [hs']; omega
            rw [ih n (by omega) s' (s'.work.total - s'.work.foff) rfl (by omega)]
            by_cases hdn : d < n + 1
            · rw [ih d hdn s' (s'.work.total - s'.work.foff) rfl hw]
            · omega
          · rfl
      · rfl

theorem fetchLoop_split (n : Nat) (s : State) (a b : List Answer) (hn : s.work.total - s.work.foff ≤ n) :
    fetchLoop n (s.withAnswers (a ++ b)) = (fetchLoop n (s.withAnswers a)).goOn b fetchRun := by
  induction n generalizing s a with
  | zero => rfl
  | succ n ih =>
    by_cases hlt : s.work.foff < s.work.total
    · match a with
      | [] =>
        have e : fetchLoop (n + 1) (s.withAnswers []) = .waiting (s.withAnswers []) := by
          simp [fetchLoop, hlt]
        rw [e]
        simp only [List.nil_append, Proc.goOn, State.withAnswers_withAnswers]
        exact fetchLoop_fuel _ _ (by simpa using hn)
      | .err :: rest =>
        simp [fetchLoop, hlt, Proc.goOn]
        rfl
      | .ok x :: rest =>
        by_cases hin : s.work.foff + 8 ≤ occDataMax
        · have e : ∀ r : List Answer, fetchLoop (n + 1) (s.withAnswers (.ok x :: r)) =
              fetchLoop n ((storeChunk x (s.answered (dataRead s.cfg.bus) [])).withAnswers r) := by
            intro r
            simp only [fetchLoop, State.withAnswers_work, hlt, if_true, State.withAnswers_answers, hin]
            rfl
          rw [List.cons_append, e, e]
          exact ih _ _ (by simp; omega)
        · have e : ∀ r : List Answer, fetchLoop (n + 1) (s.withAnswers (.ok x :: r)) = .halted .rawOverrun := by
            intro r
            simp [fetchLoop, hlt, hin]
          rw [List.cons_append, e, e]
          rfl
    · have e : ∀ r : List Answer, fetchLoop (n + 1) (s.withAnswers r) = .done (s.withAnswers r) := by
        intro r
        simp [fetchLoop, hlt]
      rw [e, e]
      rfl

/-- R162 resumed: the answers of a FETCH in two parts. -/
theorem fetchRun_split (s : State) (a b : List Answer) :
    fetchRun (s.withAnswers (a ++ b)) = (fetchRun (s.withAnswers a)).goOn b fetchRun :=
  fetchLoop_split _ s a b (Nat.le_refl _)

end Sys2Proof.Machine
end

