-- ==== Sys2Proof/Laws/Operations.lean ====
section
/-! SUPPORT. What SEND, FETCH and the poll do as whole procedures, in closed form, for each shape of the transport's answers. -/

namespace Sys2Proof.Machine

/-! ### Outcomes of a procedure -/

@[simp] theorem Proc.andThen_done (s : State) (k : State → Proc) : (Proc.done s).andThen k = k s := rfl
@[simp] theorem Proc.andThen_raised (e : Err) (s : State) (k : State → Proc) : (Proc.raised e s).andThen k = .raised e s := rfl
@[simp] theorem Proc.andThen_waiting (s : State) (k : State → Proc) : (Proc.waiting s).andThen k = .waiting s := rfl
@[simp] theorem Proc.andThen_halted (f : Fault) (k : State → Proc) : (Proc.halted f).andThen k = .halted f := rfl
@[simp] theorem Proc.onRaise_done (s : State) (h : State → State) : (Proc.done s).onRaise h = .done s := rfl
@[simp] theorem Proc.onRaise_raised (e : Err) (s : State) (h : State → State) : (Proc.raised e s).onRaise h = .raised e (h s) := rfl
@[simp] theorem Proc.onRaise_waiting (s : State) (h : State → State) : (Proc.waiting s).onRaise h = .waiting s := rfl
@[simp] theorem Proc.onRaise_halted (f : Fault) (h : State → State) : (Proc.halted f).onRaise h = .halted f := rfl
@[simp] theorem Proc.finish_done (s : State) (ok : State → Result) (err : Err → State → Result) :
    (Proc.done s).finish ok err = ok s := rfl
@[simp] theorem Proc.finish_raised (e : Err) (s : State) (ok : State → Result) (err : Err → State → Result) :
    (Proc.raised e s).finish ok err = err e s := rfl
@[simp] theorem Proc.finish_waiting (s : State) (ok : State → Result) (err : Err → State → Result) :
    (Proc.waiting s).finish ok err = .next s := rfl
@[simp] theorem Proc.finish_halted (f : Fault) (ok : State → Result) (err : Err → State → Result) :
    (Proc.halted f).finish ok err = .fault f := rfl

/-! ### Results and errors -/

/-- RES_HI = 0: the result is the low word, zero-extended (R21). -/
theorem resWords_zero (w : Word) : resWords 0 w = w.setWidth 64 := by
  apply BitVec.eq_of_getLsbD_eq
  intro i hi
  simp only [resWords, BitVec.getLsbD_append, BitVec.getLsbD_setWidth]
  by_cases h : i < 32 <;> simp [h, hi]
  exact BitVec.getLsbD_of_ge _ _ (by omega)

/-- R301: the ERR word of an error: flags, `info`, `code`. -/
theorem errWord_eq (code info : Byte) (u v : Bool) :
    errWord code info u v = errReg ((if u then 1 else 0) + (if v then 2 else 0)) info code := by
  have h : ((0 : BitVec 14) ++ BitVec.ofBool v ++ BitVec.ofBool u : BitVec (14 + 1 + 1)) =
      (((if u then 1 else 0) + (if v then 2 else 0) : Half)) := by
    cases u <;> cases v <;> decide
  show (((0 : BitVec 14) ++ BitVec.ofBool v ++ BitVec.ofBool u : BitVec (14 + 1 + 1)) ++ info ++ code : BitVec (14 + 1 + 1 + 8 + 8)) = _
  rw [h]
  rfl

theorem raise_eq (s : State) (e : Err) (lo : Word) (u : Bool) :
    raise s e lo u =
      .next (s.complete (lo.setWidth 64) (errReg ((if u then 1 else 0) + (if e.invalidValue s.cfg then 2 else 0)) e.info e.code)) := by
  unfold raise Err.word
  rw [errWord_eq, resWords_zero]

/-- An error other than a ProtocolError, outside a consumer read. -/
theorem raise_plain (s : State) (e : Err) (lo : Word) (he : e.invalidValue s.cfg = false) :
    raise s e lo false = .next (s.complete (lo.setWidth 64) (errReg 0 e.info e.code)) := by
  rw [raise_eq, he]
  rfl

/-- R304: a ProtocolError, outside a consumer read. -/
theorem raise_protocol (s : State) (st : Byte) (lo : Word) :
    raise s (.protocolError st) lo false = .next (s.complete (lo.setWidth 64) (errReg (statusFlags s.cfg st) st 0x03)) := by
  have h : ((if false = true then 1 else 0) + (if (Err.protocolError st).invalidValue s.cfg then 2 else 0) : Half) =
      statusFlags s.cfg st := by
    simp [Err.invalidValue, statusFlags]
  rw [raise_eq, h]
  rfl

/-- R303: a TransportError, outside a consumer read. -/
theorem raise_transport (s : State) (k : Byte) (lo : Word) :
    raise s (.transportError k) lo false = .next (s.complete (lo.setWidth 64) (errReg 0 k 0x02)) := raise_plain s _ lo rfl

/-- R311. -/
theorem raiseIllegal_eq (s : State) : raiseIllegal s = .next (s.complete 0 (errReg 0 0 0x0A)) := by
  unfold raiseIllegal
  rw [raise_eq]
  rfl

theorem succeed_eq (s : State) (hi lo : Word) : succeed s hi lo = .next (s.complete (hi ++ lo) 0) := rfl

theorem succeed_lo (s : State) (lo : Word) : succeed s 0 lo = .next (s.complete (lo.setWidth 64) 0) := by
  unfold succeed
  rw [resWords_zero]

/-- R301: an error's ERR word is not `OK`. -/
theorem errReg_ne_zero {flags : Half} {info code : Byte} (h : code ≠ 0) : errReg flags info code ≠ 0 := by
  intro hz
  apply h
  have : (errReg flags info code).extractLsb' 0 8 = code := by
    show (flags ++ info ++ code : BitVec (16 + 8 + 8)).extractLsb' 0 8 = code
    apply BitVec.eq_of_getLsbD_eq
    intro i hi
    rw [BitVec.getLsbD_extractLsb', BitVec.getLsbD_append]
    simp [hi]
  rw [hz] at this
  rw [← this]
  rfl

theorem Err.code_ne_zero (e : Err) : e.code ≠ 0 := by cases e <;> simp [Err.code]

/-! ### SEND -/

/-- A SEND about to issue its first call: the frame stands in `W1`, `W2`, and `raw_len` and `step` are 0. -/
def State.begun (s : State) (o : SendOwner) : State := { s with rawLen := 0, seqStep := 0, activity := .sending o }

/-- R152: the state in which the calls of a SEND begin. -/
theorem sendBegin_eq (o : SendOwner) (seq ctype len : Byte) (h : len.toNat < 3) (p0 p1 : Byte) (s : State) :
    sendBegin o seq ctype ⟨len.toNat, h⟩ p0 p1 s =
      (s.framed seq ctype len p0 p1).begun o := by
  unfold sendBegin
  rw [encodeFrame_eq]
  rfl

/-- R243: the state in which the calls of a poll begin. -/
theorem pollBegin_eq (o : PollOwner) (s : State) :
    pollBegin o s = s.framedPoll.begun (.poll o) := by
  have hlt : (BitVec.ofNat 8 s.cfg.bus.pollLen.val).toNat < 3 := by
    have := s.cfg.bus.pollLen.isLt
    simp only [BitVec.toNat_ofNat]
    omega
  have hf : s.cfg.bus.pollLen = ⟨(BitVec.ofNat 8 s.cfg.bus.pollLen.val).toNat, hlt⟩ := by
    apply Fin.ext
    have := s.cfg.bus.pollLen.isLt
    simp only [BitVec.toNat_ofNat]
    omega
  have e : pollBegin o s = sendBegin (.poll o) s.cfg.bus.pollSeq s.cfg.bus.pollType
      ⟨(BitVec.ofNat 8 s.cfg.bus.pollLen.val).toNat, hlt⟩ (highByte s.cfg.bus.pollPayload) (lowByte s.cfg.bus.pollPayload) s := by
    rw [← hf]
    rfl
  rw [e, sendBegin_eq]
  rfl

/-- R276: the state in which the calls of a SET_POWERCAP begin. -/
theorem powercapBegin_eq (v : Half) (s : State) :
    sendBegin (.powercap v) s.cfg.bus.capSeq s.cfg.bus.capType 2 (highByte v) (lowByte v) s =
      (s.framedPowercap v).begun (.powercap v) :=
  sendBegin_eq (.powercap v) s.cfg.bus.capSeq s.cfg.bus.capType 2 (by decide) (highByte v) (lowByte v) s

/-- R150 to R159: every call answered `ok`. -/
theorem sendRun_begun_ok (s : State) (o : SendOwner) (oks : List (Vector Byte 8)) (b : Vector Byte 8) (rest : List Answer)
    (ha : s.answersSend oks b rest) :
    sendRun (s.begun o) =
      if b[2] = 0 then .done { s.sent b rest with seqStep := 0, activity := .sending o }
      else .raised (.protocolError b[2]) { s.sent b rest with seqStep := 0, activity := .sending o } :=
  sendRun_ok (s.begun o) oks b rest rfl ha.1 ha.2

/-- R160: a call answered `err`. -/
theorem sendRun_begun_err (s : State) (o : SendOwner) (oks : List (Vector Byte 8)) (rest : List Answer) (hl : oks.length ≤ 7)
    (ha : s.answers = oks.map .ok ++ .err :: rest) :
    sendRun (s.begun o) =
      .raised (.transportError (BitVec.ofNat 8 (oks.length + 1)))
        { s.sendAborted oks.length rest with seqStep := 0, activity := .sending o } :=
  sendRun_err (s.begun o) oks rest rfl (by omega) ha

/-- R24: no answer left. -/
theorem sendRun_begun_wait (s : State) (o : SendOwner) (oks : List (Vector Byte 8)) (hl : oks.length ≤ 7)
    (ha : s.answers = oks.map .ok) :
    sendRun (s.begun o) =
      .waiting { s with calls := s.calls ++ (commandCalls s.cfg.bus s.work.w1 s.work.w2).take oks.length, answers := [],
                        rawLen := 0, seqStep := oks.length, activity := .sending o } := by
  have h := sendRun_wait (s.begun o) oks rfl (by omega) ha
  rw [h]
  have e : (commandCalls s.cfg.bus s.work.w1 s.work.w2).take oks.length =
      (sendWrites s.cfg.bus s.work.w1 s.work.w2).take oks.length := by
    rw [commandCalls_eq, List.take_append_of_le_length (by rw [sendWrites_length]; omega)]
  rw [e]
  rfl

/-- The three ways the answers can meet the eight calls of a SEND. -/
theorem send_answers (as : List Answer) :
    (∃ (oks : List (Vector Byte 8)) (b : Vector Byte 8) (rest : List Answer), oks.length = 7 ∧ as = oks.map .ok ++ .ok b :: rest) ∨
    (∃ (oks : List (Vector Byte 8)) (rest : List Answer), oks.length ≤ 7 ∧ as = oks.map .ok ++ .err :: rest) ∨
    (∃ oks : List (Vector Byte 8), oks.length ≤ 7 ∧ as = oks.map .ok) := by
  obtain ⟨bs, h⟩ := answers_cases as
  by_cases hl : bs.length ≤ 7
  · obtain h | ⟨rest, h⟩ := h
    · exact .inr (.inr ⟨bs, hl, h⟩)
    · exact .inr (.inl ⟨bs, rest, hl, h⟩)
  · have e : bs = bs.take 7 ++ bs[7] :: bs.drop 8 := by
      rw [List.getElem_cons_drop, List.take_append_drop]
    have l7 : (bs.take 7).length = 7 := by simp; omega
    obtain h | ⟨rest, h⟩ := h
    · refine .inl ⟨bs.take 7, bs[7], (bs.drop 8).map .ok, l7, ?_⟩
      rw [h, ← List.map_cons, ← List.map_append, ← e]
    · refine .inl ⟨bs.take 7, bs[7], (bs.drop 8).map .ok ++ .err :: rest, l7, ?_⟩
      rw [h, ← List.cons_append, ← List.append_assoc, ← List.map_cons, ← List.map_append, ← e]

/-! ### FETCH -/

theorem fetchTotal_eq (len : Half) : fetchTotal len = min (len.toNat + 7) 4096 := rfl

/-- R162 to R164: every read answered `ok`. -/
theorem fetchRun_begun_ok (s : State) (o : FetchOwner) (chunks : List (Vector Byte 8)) (rest : List Answer)
    (hl : chunks.length = fetchReads (be16 s.raw 3)) (ha : s.answers = chunks.map .ok ++ rest) :
    fetchRun (fetchBegin o s) = .done { s.fetched chunks 0 rest with activity := .fetching o } := by
  unfold fetchRun
  have ht := fetchTotal_le (be16 s.raw offLen)
  rw [fetchLoop_ok chunks _ (fetchBegin o s) rest rfl (Nat.le_refl _) (by simp) ht _ ha]
  · rfl
  · rw [hl]
    unfold fetchReads
    simp only [fetchBegin_work, fetchTotal_eq, offLen]
    omega

/-- R165: a read answered `err`. -/
theorem fetchRun_begun_err (s : State) (o : FetchOwner) (chunks : List (Vector Byte 8)) (rest : List Answer)
    (hl : chunks.length < fetchReads (be16 s.raw 3)) (ha : s.answers = chunks.map .ok ++ .err :: rest) :
    fetchRun (fetchBegin o s) =
      .raised (.transportError 9) { s.fetched chunks 1 rest with activity := .fetching o } := by
  unfold fetchRun
  have ht := fetchTotal_le (be16 s.raw offLen)
  rw [fetchLoop_err chunks _ (fetchBegin o s) rest rfl (Nat.le_refl _) (by simp) ht _ ha]
  · simp [State.answered, State.chunked, State.fetched, fetchBegin, dataRead, fetchTotal_eq, offLen, List.replicate_add]
  · unfold fetchReads at hl
    simp only [fetchBegin_work, fetchTotal_eq, offLen]
    omega

/-- The answers end before the last read. -/
theorem fetchRun_begun_wait (s : State) (o : FetchOwner) (chunks : List (Vector Byte 8))
    (hl : chunks.length < fetchReads (be16 s.raw 3)) (ha : s.answers = chunks.map .ok) :
    fetchRun (fetchBegin o s) = .waiting { s.fetched chunks 0 [] with activity := .fetching o } := by
  unfold fetchRun
  have ht := fetchTotal_le (be16 s.raw offLen)
  rw [fetchLoop_wait chunks _ (fetchBegin o s) rfl (Nat.le_refl _) (by simp) ht _ ha]
  · rfl
  · unfold fetchReads at hl
    simp only [fetchBegin_work, fetchTotal_eq, offLen]
    omega

/-- The three ways the answers can meet the reads of a FETCH. -/
theorem fetch_answers (n : Nat) (as : List Answer) :
    (∃ (chunks : List (Vector Byte 8)) (rest : List Answer), chunks.length = n ∧ as = chunks.map .ok ++ rest) ∨
    (∃ (chunks : List (Vector Byte 8)) (rest : List Answer), chunks.length < n ∧ as = chunks.map .ok ++ .err :: rest) ∨
    (∃ chunks : List (Vector Byte 8), chunks.length < n ∧ as = chunks.map .ok) := by
  obtain ⟨bs, h⟩ := answers_cases as
  by_cases hl : bs.length < n
  · obtain h | ⟨rest, h⟩ := h
    · exact .inr (.inr ⟨bs, hl, h⟩)
    · exact .inr (.inl ⟨bs, rest, hl, h⟩)
  · have e : bs.map Answer.ok = (bs.take n).map .ok ++ (bs.drop n).map .ok := by
      rw [← List.map_append, List.take_append_drop]
    have ln : (bs.take n).length = n := by simp; omega
    obtain h | ⟨rest, h⟩ := h
    · exact .inl ⟨bs.take n, (bs.drop n).map .ok, ln, by rw [h, e]⟩
    · exact .inl ⟨bs.take n, (bs.drop n).map .ok ++ .err :: rest, ln, by rw [h, e, List.append_assoc]⟩

end Sys2Proof.Machine
end

