-- ==== Sys2Proof/Laws/Parser.lean ====
section
/-! SUPPORT. What PARSE does: the storage operations it uses, one block, the block loop, and the whole parse, without the loop
(42_parser.md R203). -/

namespace Sys2Proof.Machine

/-! ### Values kept per type, and the record stores -/

@[simp] theorem PerType.get_set {α : Type} (f : PerType α) (T U : SensorType) (a : α) :
    (f.set T a).get U = if U = T then a else f.get U := by
  cases T <;> cases U <;> rfl

@[simp] theorem PerType.get_all {α : Type} (a : α) (T : SensorType) : (PerType.all a).get T = a := by cases T <;> rfl

theorem PerType.ext_get {α : Type} {f g : PerType α} (h : ∀ T, f.get T = g.get T) : f = g := by
  obtain ⟨a, b, c, d⟩ := f
  obtain ⟨a', b', c', d'⟩ := g
  have h1 := h .freq
  have h2 := h .temp
  have h3 := h .powr
  have h4 := h .caps
  simp only [PerType.get] at h1 h2 h3 h4
  rw [h1, h2, h3, h4]

@[simp] theorem Decoded.recCount_allocate (d : Decoded) (T U : SensorType) (n : Nat) :
    (d.allocate T n).recCount U = if U = T then n else d.recCount U := by
  cases T <;> cases U <;> simp [Decoded.allocate, Decoded.recCount]

@[simp] theorem Decoded.allocate_idx (d : Decoded) (T : SensorType) (n : Nat) : (d.allocate T n).idx = d.idx := by cases T <;> rfl
@[simp] theorem Decoded.allocate_blocks (d : Decoded) (T : SensorType) (n : Nat) : (d.allocate T n).blocks = d.blocks := by
  cases T <;> rfl

@[simp] theorem Decoded.recCount_storeRecord (d : Decoded) (m : Memory) (T U : SensorType) (i r : Nat) :
    (d.storeRecord m T i r).recCount U = d.recCount U := by
  cases T <;> cases U <;> simp [Decoded.storeRecord, Decoded.recCount]

@[simp] theorem Decoded.storeRecord_idx (d : Decoded) (m : Memory) (T : SensorType) (i r : Nat) :
    (d.storeRecord m T i r).idx = d.idx := by cases T <;> rfl
@[simp] theorem Decoded.storeRecord_blocks (d : Decoded) (m : Memory) (T : SensorType) (i r : Nat) :
    (d.storeRecord m T i r).blocks = d.blocks := by cases T <;> rfl

theorem Decoded.SameEnvelope.refl (d : Decoded) : d.SameEnvelope d := ⟨rfl, rfl, rfl, rfl, rfl, rfl⟩
theorem Decoded.SameEnvelope.trans {d e f : Decoded} (h : d.SameEnvelope e) (g : e.SameEnvelope f) : d.SameEnvelope f :=
  ⟨h.seq.trans g.seq, h.ctype.trans g.ctype, h.status.trans g.status, h.len.trans g.len, h.checksum.trans g.checksum,
    h.header.trans g.header⟩
theorem Decoded.SameEnvelope.symm {d e : Decoded} (h : d.SameEnvelope e) : e.SameEnvelope d :=
  ⟨h.seq.symm, h.ctype.symm, h.status.symm, h.len.symm, h.checksum.symm, h.header.symm⟩

theorem Decoded.envelope_allocate (d : Decoded) (T : SensorType) (n : Nat) : (d.allocate T n).SameEnvelope d := by
  cases T <;> exact ⟨rfl, rfl, rfl, rfl, rfl, rfl⟩
theorem Decoded.envelope_storeRecord (d : Decoded) (m : Memory) (T : SensorType) (i r : Nat) :
    (d.storeRecord m T i r).SameEnvelope d := by
  cases T <;> exact ⟨rfl, rfl, rfl, rfl, rfl, rfl⟩
theorem Decoded.envelope_deinit (d : Decoded) : d.deinit.SameEnvelope d := ⟨rfl, rfl, rfl, rfl, rfl, rfl⟩

@[simp] theorem Decoded.recCount_deinit (d : Decoded) (T : SensorType) : d.deinit.recCount T = 0 := by cases T <;> rfl
@[simp] theorem Decoded.deinit_blocks (d : Decoded) : d.deinit.blocks = [] := rfl
@[simp] theorem Decoded.deinit_idx_get (d : Decoded) (T : SensorType) : d.deinit.idx.get T = none := by cases T <;> rfl
theorem Decoded.deinit_isEmpty (d : Decoded) : d.deinit.isEmpty = true := by
  simp [Decoded.deinit, Decoded.isEmpty]

theorem Decoded.recCount_withIdx (d : Decoded) (x : PerType (Option Nat)) (T : SensorType) :
    ({ d with idx := x } : Decoded).recCount T = d.recCount T := by cases T <;> rfl
theorem Decoded.recCount_withBlocks (d : Decoded) (l : List BlockEntry) (T : SensorType) :
    ({ d with blocks := l } : Decoded).recCount T = d.recCount T := by cases T <;> rfl

/-- R226 and R232 for PARSE: what `Renew` answers. -/
theorem renew_cases (maxRec : PerType Nat) (T : SensorType) (rl n : Byte) (b : Nat) (d : Decoded) :
    (n = 0 ∨ rl = 0 → renew maxRec T rl n b d = .noSensors (d.allocate T 0)) ∧
    (n ≠ 0 → rl ≠ 0 → maxRec.get T < n.toNat → d.recCount T ≤ maxRec.get T → renew maxRec T rl n b d = .outOfMemory) ∧
    (n ≠ 0 → rl ≠ 0 → n.toNat ≤ maxRec.get T → ∃ e, renew maxRec T rl n b d = .ok e ∧ e.recCount T = n.toNat ∧
      (e = d ∨ e = d.allocate T n.toNat)) := by
  refine ⟨fun h => ?_, fun h1 h2 h3 h4 => ?_, fun h1 h2 h3 => ?_⟩
  · simp only [renew, if_pos h]
  · have hne : ¬ (n = 0 ∨ rl = 0) := by rintro (h | h) <;> contradiction
    simp only [renew, hne, if_false]
    rw [if_neg (by omega), if_pos h3]
  · have hne : ¬ (n = 0 ∨ rl = 0) := by rintro (h | h) <;> contradiction
    simp only [renew, hne, if_false]
    by_cases hc : d.recCount T = n.toNat
    · exact ⟨d, by rw [if_pos hc], hc, .inl rfl⟩
    · exact ⟨d.allocate T n.toNat, by rw [if_neg hc, if_neg (by omega)], by simp, .inr rfl⟩

/-! ### The tests before the commit point -/

theorem Accepted_limit_le {rawLen : Nat} {len : Half} : parseLimit rawLen len ≤ rawLen := Nat.min_le_left _ _

/-- R184: the eye-catcher, byte by byte. -/
theorem magicPresent_iff (m : Memory) :
    magicPresent m = true ↔ m.read 37 = 0x53 ∧ m.read 38 = 0x45 ∧ m.read 39 = 0x4E ∧ m.read 40 = 0x53 ∧ m.read 41 = 0x4F ∧
      m.read 42 = 0x52 := by
  simp [magicPresent, magic, offMagic, List.range_succ]

/-- The working registers after the tests: `L`, `limit` and `nb`. -/
def Work.headed (w : Work) (m : Memory) (rawLen : Nat) : Work :=
  { w with len := be16 m offLen, limit := parseLimit rawLen (be16 m offLen), nb := m.read offNblk }

theorem parseHead_ok {m : Memory} {rawLen : Nat} (h : HeaderAccepted m rawLen) (p : ParseState) :
    parseHead m rawLen p = .ok { p with work := p.work.headed m rawLen } := by
  have hl := h.reach
  have hle : parseLimit rawLen (be16 m offLen) ≤ rawLen := Nat.min_le_left _ _
  unfold parseHead
  have h1 : ¬ rawLen < offHdr := by unfold offHdr; omega
  have h2 : ¬ parseLimit rawLen (be16 m offLen) < offNblk := by unfold offNblk; omega
  have h3 : ¬ parseLimit rawLen (be16 m offLen) < offNblk + 1 := by unfold offNblk; omega
  have h4 : ¬ parseLimit rawLen (be16 m offLen) < offBlk0 := by unfold offBlk0; omega
  simp only [if_neg h1, if_neg h2, h.eyeCatcher, Bool.not_true, Bool.false_eq_true, if_false, if_neg h3, if_neg h.someBlock,
    if_neg h4]
  rfl

/-! ### Records -/

/-- The work registers that the record loop keeps. -/
structure Work.SameBlock (w v : Work) : Prop where
  b : w.b = v.b
  cursor : w.cursor = v.cursor
  limit : w.limit = v.limit
  rl : w.rl = v.rl
  cnt : w.cnt = v.cnt
  nb : w.nb = v.nb
  len : w.len = v.len

theorem Work.SameBlock.refl (w : Work) : w.SameBlock w := ⟨rfl, rfl, rfl, rfl, rfl, rfl, rfl⟩
theorem Work.SameBlock.trans {u v w : Work} (h : u.SameBlock v) (g : v.SameBlock w) : u.SameBlock w :=
  ⟨h.b.trans g.b, h.cursor.trans g.cursor, h.limit.trans g.limit, h.rl.trans g.rl, h.cnt.trans g.cnt, h.nb.trans g.nb,
    h.len.trans g.len⟩

/-- The store of `T` with the records `k` to `k + n - 1` written from offset `c` on with stride `rl`. -/
def Decoded.storeRecords (d : Decoded) (m : Memory) (T : SensorType) (c rl k : Nat) : Nat → Decoded
  | 0 => d
  | n + 1 => (d.storeRecord m T k (c + k * rl)).storeRecords m T c rl (k + 1) n

/-- R194: the record loop when every record lies below `limit`. -/
theorem recordLoop_ok (m : Memory) (T : SensorType) (n : Nat) (p : ParseState)
    (h : ∀ k, k < n → p.work.cursor + (p.work.s + k) * p.work.rl.toNat + recSize T ≤ p.work.limit) :
    ∃ w, w.SameBlock p.work ∧ recordLoop m T n p =
      .ok { work := w, dec := p.dec.storeRecords m T p.work.cursor p.work.rl.toNat p.work.s n } := by
  induction n generalizing p with
  | zero => exact ⟨p.work, .refl _, rfl⟩
  | succ n ih =>
    have h0 := h 0 (by omega)
    simp only [Nat.add_zero] at h0
    unfold recordLoop
    simp only
    rw [if_neg (by omega)]
    obtain ⟨w, hw, hr⟩ := ih
      { work := { p.work with base := p.work.cursor + p.work.s * p.work.rl.toNat, s := p.work.s + 1 },
        dec := p.dec.storeRecord m T p.work.s (p.work.cursor + p.work.s * p.work.rl.toNat) } (by
        intro k hk
        have := h (k + 1) (by omega)
        simp only
        have e : p.work.s + 1 + k = p.work.s + (k + 1) := by omega
        rw [e]
        exact this)
    exact ⟨w, hw.trans ⟨rfl, rfl, rfl, rfl, rfl, rfl, rfl⟩, hr⟩

/-- R197 (c): the record loop when a record reaches past `limit`. -/
theorem recordLoop_fail (m : Memory) (T : SensorType) (n : Nat) (p : ParseState)
    (h : ∃ k, k < n ∧ p.work.limit < p.work.cursor + (p.work.s + k) * p.work.rl.toNat + recSize T) :
    ∃ q : ParseState, recordLoop m T n p = .fail (.truncated p.work.blockByte) q ∧ q.dec.SameEnvelope p.dec := by
  induction n generalizing p with
  | zero => obtain ⟨k, hk, _⟩ := h; omega
  | succ n ih =>
    obtain ⟨k, hk, hlt⟩ := h
    unfold recordLoop
    simp only
    split
    · exact ⟨_, rfl, .refl _⟩
    · rename_i hok
      match k with
      | 0 => simp only [Nat.add_zero] at hlt; omega
      | k + 1 =>
        obtain ⟨q, hq, he⟩ := ih
          { work := { p.work with base := p.work.cursor + p.work.s * p.work.rl.toNat, s := p.work.s + 1 },
            dec := p.dec.storeRecord m T p.work.s (p.work.cursor + p.work.s * p.work.rl.toNat) }
          ⟨k, by omega, by
            simp only
            have e : p.work.s + 1 + k = p.work.s + (k + 1) := by omega
            rw [e]
            exact hlt⟩
        exact ⟨q, hq, he.trans (Decoded.envelope_storeRecord _ _ _ _ _)⟩

theorem Decoded.storeRecords_recCount (d : Decoded) (m : Memory) (T U : SensorType) (c rl k n : Nat) :
    (d.storeRecords m T c rl k n).recCount U = d.recCount U := by
  induction n generalizing d k with
  | zero => rfl
  | succ n ih => simp only [Decoded.storeRecords, ih, Decoded.recCount_storeRecord]

theorem Decoded.storeRecords_idx (d : Decoded) (m : Memory) (T : SensorType) (c rl k n : Nat) :
    (d.storeRecords m T c rl k n).idx = d.idx := by
  induction n generalizing d k with
  | zero => rfl
  | succ n ih => simp only [Decoded.storeRecords, ih, Decoded.storeRecord_idx]

theorem Decoded.storeRecords_blocks (d : Decoded) (m : Memory) (T : SensorType) (c rl k n : Nat) :
    (d.storeRecords m T c rl k n).blocks = d.blocks := by
  induction n generalizing d k with
  | zero => rfl
  | succ n ih => simp only [Decoded.storeRecords, ih, Decoded.storeRecord_blocks]

theorem Decoded.envelope_storeRecords (d : Decoded) (m : Memory) (T : SensorType) (c rl k n : Nat) :
    (d.storeRecords m T c rl k n).SameEnvelope d := by
  induction n generalizing d k with
  | zero => exact .refl _
  | succ n ih => exact (ih _ _).trans (Decoded.envelope_storeRecord _ _ _ _ _)

/-- Setting the entries `k` to `k + n - 1` of a list one after the other. -/
def setFrom {α : Type} (f : Nat → α) (l : List α) (k : Nat) : Nat → List α
  | 0 => l
  | n + 1 => setFrom f (l.set k (f k)) (k + 1) n

theorem setFrom_getElem? {α : Type} (f : Nat → α) (l : List α) (k n i : Nat) :
    (setFrom f l k n)[i]? = if k ≤ i ∧ i < k + n ∧ i < l.length then some (f i) else l[i]? := by
  induction n generalizing l k with
  | zero =>
    have : ¬ (k ≤ i ∧ i < k + 0 ∧ i < l.length) := by omega
    rw [if_neg this]
    rfl
  | succ n ih =>
    simp only [setFrom, ih, List.length_set, List.getElem?_set]
    by_cases hk : k = i
    · subst hk
      have : ¬ (k + 1 ≤ k ∧ k < k + 1 + n ∧ k < l.length) := by omega
      rw [if_neg this, if_pos rfl]
      by_cases hl : k < l.length
      · rw [if_pos hl, if_pos ⟨by omega, by omega, hl⟩]
      · rw [if_neg hl, if_neg (by omega)]
        simp at hl
        simp [hl]
    · rw [if_neg hk]
      by_cases h : k + 1 ≤ i ∧ i < k + 1 + n ∧ i < l.length
      · rw [if_pos h, if_pos (by omega)]
      · rw [if_neg h, if_neg (by omega)]

/-- Writing every entry of a list is making it afresh. -/
theorem setFrom_all {α : Type} (f : Nat → α) (l : List α) : setFrom f l 0 l.length = (List.range l.length).map f := by
  apply List.ext_getElem?
  intro i
  rw [setFrom_getElem?]
  by_cases h : i < l.length
  · simp [h]
  · simp [h]

theorem Decoded.storeRecords_freq (d : Decoded) (m : Memory) (c rl k n : Nat) :
    d.storeRecords m .freq c rl k n = { d with freq := setFrom (fun s => sensorRecAt m (c + s * rl)) d.freq k n } := by
  induction n generalizing d k with
  | zero => rfl
  | succ n ih => simp only [Decoded.storeRecords, ih, Decoded.storeRecord, setFrom]

theorem Decoded.storeRecords_temp (d : Decoded) (m : Memory) (c rl k n : Nat) :
    d.storeRecords m .temp c rl k n = { d with temp := setFrom (fun s => sensorRecAt m (c + s * rl)) d.temp k n } := by
  induction n generalizing d k with
  | zero => rfl
  | succ n ih => simp only [Decoded.storeRecords, ih, Decoded.storeRecord, setFrom]

theorem Decoded.storeRecords_powr (d : Decoded) (m : Memory) (c rl k n : Nat) :
    d.storeRecords m .powr c rl k n = { d with powr := setFrom (fun s => powrRecAt m (c + s * rl)) d.powr k n } := by
  induction n generalizing d k with
  | zero => rfl
  | succ n ih => simp only [Decoded.storeRecords, ih, Decoded.storeRecord, setFrom]

theorem Decoded.storeRecords_caps (d : Decoded) (m : Memory) (c rl k n : Nat) :
    d.storeRecords m .caps c rl k n = { d with caps := setFrom (fun s => capsRecAt m (c + s * rl)) d.caps k n } := by
  induction n generalizing d k with
  | zero => rfl
  | succ n ih => simp only [Decoded.storeRecords, ih, Decoded.storeRecord, setFrom]

/-- Whether a store is exactly the records declared; a property of that store alone. -/
theorem Decoded.storeRecords_holds (d : Decoded) (m : Memory) (T : SensorType) (c : Nat) (e : BlockEntry)
    (h : d.recCount T = e.count.toNat) :
    (d.storeRecords m T (c + subhdrBytes) e.rl.toNat 0 e.count.toNat).storeHolds m T c e := by
  cases T
  · simp only [Decoded.recCount] at h
    simp only [Decoded.storeHolds, Decoded.storeRecords_freq, ← h, setFrom_all]
  · simp only [Decoded.recCount] at h
    simp only [Decoded.storeHolds, Decoded.storeRecords_temp, ← h, setFrom_all]
  · simp only [Decoded.recCount] at h
    simp only [Decoded.storeHolds, Decoded.storeRecords_powr, ← h, setFrom_all]
  · simp only [Decoded.recCount] at h
    simp only [Decoded.storeHolds, Decoded.storeRecords_caps, ← h, setFrom_all]

theorem Decoded.SameStore.recCount {d e : Decoded} {T : SensorType} (h : d.SameStore e T) : d.recCount T = e.recCount T := by
  cases T <;> exact congrArg List.length h

theorem Decoded.SameStore.holds {d e : Decoded} {T : SensorType} (h : d.SameStore e T) {m : Memory} {c : Nat} {x : BlockEntry}
    (he : e.storeHolds m T c x) : d.storeHolds m T c x := by
  cases T <;> simp only [Decoded.SameStore] at h <;> simp only [Decoded.storeHolds, h] at * <;> exact he

theorem Decoded.SameStore.trans {d e f : Decoded} {T : SensorType} (h : d.SameStore e T) (g : e.SameStore f T) : d.SameStore f T := by
  cases T <;> exact Eq.trans h g

theorem Decoded.sameStore_storeRecord (d : Decoded) (m : Memory) {T U : SensorType} (h : U ≠ T) (i r : Nat) :
    (d.storeRecord m T i r).SameStore d U := by
  cases T <;> cases U <;> first
    | exact absurd rfl h
    | rfl

theorem Decoded.sameStore_storeRecords (d : Decoded) (m : Memory) {T U : SensorType} (h : U ≠ T) (c rl k n : Nat) :
    (d.storeRecords m T c rl k n).SameStore d U := by
  induction n generalizing d k with
  | zero => cases U <;> rfl
  | succ n ih => exact (ih _ _).trans (Decoded.sameStore_storeRecord d m h _ _)

theorem Decoded.sameStore_allocate (d : Decoded) {T U : SensorType} (h : U ≠ T) (n : Nat) : (d.allocate T n).SameStore d U := by
  cases T <;> cases U <;> first
    | exact absurd rfl h
    | rfl

/-! ### One block -/

theorem typeOfTag_tag (T : SensorType) : typeOfTag (SensorType.tag T) = some T := by cases T <;> decide

theorem typeOfTag_eq_some {tag : Word} {T : SensorType} (h : typeOfTag tag = some T) : tag = SensorType.tag T := by
  unfold typeOfTag at h
  split at h
  · rename_i h'; cases h; exact h'
  split at h
  · rename_i h'; cases h; exact h'
  split at h
  · rename_i h'; cases h; exact h'
  split at h
  · rename_i h'; cases h; exact h'
  · cases h

theorem typeOfTag_eq_none {tag : Word} (h : ∀ T, tag ≠ SensorType.tag T) : typeOfTag tag = none := by
  cases ht : typeOfTag tag with
  | none => rfl
  | some T => exact absurd (typeOfTag_eq_some ht) (h T)

theorem SensorType.tag_ne {T U : SensorType} (h : U ≠ T) : SensorType.tag T ≠ SensorType.tag U := by
  cases T <;> cases U <;> first
    | exact absurd rfl h
    | decide

theorem BlockEntry.nonEmpty_iff (e : BlockEntry) : e.nonEmpty = true ↔ e.rl ≠ 0 ∧ e.count ≠ 0 := by
  simp [BlockEntry.nonEmpty]

/-- What holds between the blocks of a response: `p` is the state in which block `b` is about to be read. -/
structure BlockInv (cfg : Config) (m : Memory) (limit nb : Nat) (env : Decoded) (b : Nat) (p : ParseState) : Prop where
  number : p.work.b = b
  cursor : p.work.cursor = blockStart m b
  limit : p.work.limit = limit
  table : p.dec.blocks.length = nb
  entries : ∀ j, j < b → p.dec.blocks[j]? = some (declared m j)
  index : ∀ T, p.dec.idx.get T = lastNonEmpty m T b
  records : ∀ T i, lastNonEmpty m T b = some i → (∀ j, i < j → j < b → (declared m j).tag ≠ SensorType.tag T) →
    p.dec.storeHolds m T (blockStart m i) (declared m i)
  released : ∀ T i j, lastNonEmpty m T b = some i → i < j → j < b → (declared m j).tag = SensorType.tag T → p.dec.recCount T = 0
  storesFit : ∀ T, p.dec.recCount T ≤ cfg.maxRec.get T
  envelope : p.dec.SameEnvelope env

theorem lastNonEmpty_lt {m : Memory} {T : SensorType} {n i : Nat} (h : lastNonEmpty m T n = some i) : i < n := by
  induction n with
  | zero => cases h
  | succ n ih =>
    unfold lastNonEmpty at h
    split at h
    · cases h; omega
    · have := ih h; omega

theorem lastNonEmpty_spec {m : Memory} {T : SensorType} {n i : Nat} (h : lastNonEmpty m T n = some i) :
    (declared m i).tag = SensorType.tag T ∧ (declared m i).nonEmpty = true := by
  induction n with
  | zero => cases h
  | succ n ih =>
    unfold lastNonEmpty at h
    split at h
    · rename_i hc; cases h; exact hc
    · exact ih h

theorem readSubHeader_eq (m : Memory) (p : ParseState) (b : Nat) (hc : p.work.cursor = blockStart m b) :
    readSubHeader m p =
      { work := { p.work with tag := (declared m b).tag, fmt := (declared m b).format, rl := (declared m b).rl,
                              cnt := (declared m b).count, cursor := blockStart m b + subhdrBytes },
        dec := { p.dec with blocks := p.dec.blocks.set p.work.b (declared m b) } } := by
  unfold readSubHeader
  rw [hc]
  rfl

/-- The state after block `b`, its number moved on. -/
def ParseState.next (q : ParseState) : ParseState := { q with work := { q.work with b := q.work.b + 1 } }

/-- R190 to R196: a block that fits. -/
theorem parseBlock_ok {cfg : Config} {m : Memory} {limit nb : Nat} {env : Decoded} {b : Nat} {p : ParseState}
    (hi : BlockInv cfg m limit nb env b p) (hb : b < nb) (hf : BlockFits cfg m limit b) :
    ∃ q, parseBlock cfg m p = .ok q ∧ BlockInv cfg m limit nb env (b + 1) q.next := by
  have hsub := hf.subHeader
  have h0 : ¬ p.work.limit < p.work.cursor + subhdrBytes := by rw [hi.limit, hi.cursor]; omega
  unfold parseBlock
  simp only [if_neg h0, readSubHeader_eq m p b hi.cursor]
  obtain ⟨T, hT⟩ : ∃ T, typeOfTag (declared m b).tag = some T := Option.ne_none_iff_exists'.mp hf.known
  have htag := typeOfTag_eq_some hT
  simp only [hT]
  have hentries : ∀ j, j < b + 1 → (p.dec.blocks.set p.work.b (declared m b))[j]? = some (declared m j) := by
    intro j hj
    rw [List.getElem?_set, hi.number]
    by_cases hjb : b = j
    · subst hjb
      rw [if_pos rfl, if_pos (by rw [hi.table]; exact hb)]
    · rw [if_neg hjb]
      exact hi.entries j (by omega)
  have hstart : blockStart m (b + 1) =
      blockStart m b + subhdrBytes + (declared m b).rl.toNat * (declared m b).count.toNat := rfl
  by_cases hne : (declared m b).nonEmpty = true
  · obtain ⟨hrl, hcn⟩ := (BlockEntry.nonEmpty_iff _).mp hne
    obtain ⟨d, hd, hcount, hdd⟩ := (renew_cases cfg.maxRec T (declared m b).rl (declared m b).count p.work.b
      { p.dec with blocks := p.dec.blocks.set p.work.b (declared m b) }).2.2 hcn hrl (hf.capacity T hT hne)
    simp only [hd]
    have hext := hf.extent hne
    have hrec := hf.records T hT hne
    unfold decodeBlock
    have h1 : ¬ limit < blockStart m b + subhdrBytes + (declared m b).rl.toNat * (declared m b).count.toNat := by omega
    simp only [Work.extent, hi.limit, if_neg h1]
    obtain ⟨w, hw, hr⟩ := recordLoop_ok m T (declared m b).count.toNat
      { work := { p.work with tag := (declared m b).tag, fmt := (declared m b).format, rl := (declared m b).rl,
                              cnt := (declared m b).count, cursor := blockStart m b + subhdrBytes, s := 0, limit := limit }, dec := d }
      (by
        intro k hk
        simp only [Nat.zero_add]
        exact hrec k hk)
    simp only [hr]
    refine ⟨_, rfl, ?_⟩
    have hdb : d.blocks = p.dec.blocks.set p.work.b (declared m b) := by
      obtain rfl | rfl := hdd
      · rfl
      · simp
    have hdi : d.idx = p.dec.idx := by
      obtain rfl | rfl := hdd
      · rfl
      · simp
    have hds : ∀ U, U ≠ T → d.SameStore p.dec U := by
      intro U hU
      obtain rfl | rfl := hdd
      · cases U <;> rfl
      · exact (Decoded.sameStore_allocate _ hU _).trans (by cases U <;> rfl)
    have hde : d.SameEnvelope p.dec := by
      obtain rfl | rfl := hdd
      · exact ⟨rfl, rfl, rfl, rfl, rfl, rfl⟩
      · exact (Decoded.envelope_allocate _ _ _).trans ⟨rfl, rfl, rfl, rfl, rfl, rfl⟩
    have hlast : ∀ U, lastNonEmpty m U (b + 1) = if U = T then some b else lastNonEmpty m U b := by
      intro U
      rw [lastNonEmpty]
      by_cases hU : U = T
      · subst hU; rw [if_pos ⟨htag, hne⟩, if_pos rfl]
      · rw [if_neg (by rintro ⟨h, _⟩; exact SensorType.tag_ne hU (htag.symm.trans h)), if_neg hU]
    have hsame : ∀ U, U ≠ T → ∀ x : PerType (Option Nat),
        ({ d.storeRecords m T (blockStart m b + subhdrBytes) (declared m b).rl.toNat 0 (declared m b).count.toNat with idx := x }
          : Decoded).SameStore p.dec U := by
      intro U hU x
      have := (Decoded.sameStore_storeRecords d m hU (blockStart m b + subhdrBytes) (declared m b).rl.toNat 0
        (declared m b).count.toNat).trans (hds U hU)
      cases U <;> exact this
    constructor
    · simp only [ParseState.next]; rw [hw.b]; simp only; rw [hi.number]
    · simp only [ParseState.next]; rw [hw.cursor, hw.rl, hw.cnt, hstart]
    · simp only [ParseState.next]; rw [hw.limit]
    · simp only [ParseState.next, Decoded.storeRecords_blocks, hdb, List.length_set]; exact hi.table
    · intro j hj
      simp only [ParseState.next, Decoded.storeRecords_blocks, hdb]
      exact hentries j hj
    · intro U
      simp only [ParseState.next, Decoded.storeRecords_idx, PerType.get_set, hdi, hlast, hw.b]
      split
      · rw [hi.number]
      · exact hi.index U
    · intro U i hU hj
      rw [hlast] at hU
      by_cases hUT : U = T
      · subst hUT
        simp only [if_true, Option.some.injEq] at hU
        subst hU
        have := Decoded.storeRecords_holds d m U (blockStart m b) (declared m b) hcount
        cases U <;> exact this
      · rw [if_neg hUT] at hU
        have := hi.records U i hU (fun j h1 h2 => hj j h1 (by omega))
        exact (hsame U hUT _).holds this
    · intro U i j hU hij hjb htg
      rw [hlast] at hU
      by_cases hUT : U = T
      · subst hUT
        simp only [if_true, Option.some.injEq] at hU
        omega
      · rw [if_neg hUT] at hU
        have hj : j < b := by
          rcases Nat.lt_succ_iff_lt_or_eq.mp hjb with h | h
          · exact h
          · subst h; exact absurd (htag.symm.trans htg) (SensorType.tag_ne hUT)
        have := hi.released U i j hU hij hj htg
        exact (hsame U hUT _).recCount.trans this
    · intro U
      by_cases hUT : U = T
      · subst hUT
        have e : ∀ x : PerType (Option Nat), ({ d.storeRecords m U (blockStart m b + subhdrBytes) (declared m b).rl.toNat 0
            (declared m b).count.toNat with idx := x } : Decoded).recCount U = (declared m b).count.toNat := fun x =>
          (Decoded.recCount_withIdx _ x U).trans ((Decoded.storeRecords_recCount d m U U _ _ _ _).trans hcount)
        simp only [ParseState.next]
        rw [e]
        exact hf.capacity U hT hne
      · have := (hsame U hUT (( d.storeRecords m T (blockStart m b + subhdrBytes) (declared m b).rl.toNat 0
            (declared m b).count.toNat).idx.set T (some w.b))).recCount
        simp only [ParseState.next]
        rw [this]
        exact hi.storesFit U
    · have h := (Decoded.envelope_storeRecords d m T (blockStart m b + subhdrBytes) (declared m b).rl.toNat 0
        (declared m b).count.toNat).trans (hde.trans hi.envelope)
      exact ⟨h.seq, h.ctype, h.status, h.len, h.checksum, h.header⟩
  · have hz : (declared m b).count = 0 ∨ (declared m b).rl = 0 := by
      by_contra hcon
      rw [not_or] at hcon
      exact hne ((BlockEntry.nonEmpty_iff _).mpr ⟨hcon.2, hcon.1⟩)
    have hd := (renew_cases cfg.maxRec T (declared m b).rl (declared m b).count p.work.b
      { p.dec with blocks := p.dec.blocks.set p.work.b (declared m b) }).1 hz
    simp only [hd]
    refine ⟨_, rfl, ?_⟩
    have hlast : ∀ U, lastNonEmpty m U (b + 1) = lastNonEmpty m U b := by
      intro U
      rw [lastNonEmpty, if_neg (fun h => hne h.2)]
    have hsame : ∀ U, U ≠ T → (({ p.dec with blocks := p.dec.blocks.set p.work.b (declared m b) } : Decoded).allocate T 0).SameStore
        p.dec U := fun U hU => (Decoded.sameStore_allocate _ hU _).trans (by cases U <;> rfl)
    constructor
    · simp only [ParseState.next]; rw [hi.number]
    · simp only [ParseState.next, Work.extent, hstart]
    · exact hi.limit
    · simp only [ParseState.next, Decoded.allocate_blocks, List.length_set]; exact hi.table
    · intro j hj
      simp only [ParseState.next, Decoded.allocate_blocks]
      exact hentries j hj
    · intro U
      simp only [ParseState.next, Decoded.allocate_idx, hlast]
      exact hi.index U
    · intro U i hU hj
      rw [hlast] at hU
      have hUT : U ≠ T := by
        intro h
        subst h
        exact hj b (lastNonEmpty_lt hU) (by omega) htag
      exact (hsame U hUT).holds (hi.records U i hU fun j h1 h2 => hj j h1 (by omega))
    · intro U i j hU hij hjb htg
      rw [hlast] at hU
      by_cases hUT : U = T
      · subst hUT
        simp [ParseState.next]
      · have hj : j < b := by
          rcases Nat.lt_succ_iff_lt_or_eq.mp hjb with h | h
          · exact h
          · subst h; exact absurd (htag.symm.trans htg) (SensorType.tag_ne hUT)
        exact (hsame U hUT).recCount.trans (hi.released U i j hU hij hj htg)
    · intro U
      by_cases hUT : U = T
      · subst hUT
        simp [ParseState.next]
      · exact (hsame U hUT).recCount ▸ hi.storesFit U
    · exact (Decoded.envelope_allocate _ _ _).trans
        (Decoded.SameEnvelope.trans (e := p.dec) ⟨rfl, rfl, rfl, rfl, rfl, rfl⟩ hi.envelope)

end Sys2Proof.Machine
end

