-- ==== Sys2Proof/Laws/Parse.lean ====
section
/-! SUPPORT. The whole PARSE: what an accepted response leaves, and what each failing test does. -/

namespace Sys2Proof.Machine

/-! ### A block that does not fit -/

/-- R197, R202: the tests of block `b` in their order, and the error of the first that fails. -/
inductive BlockFails (cfg : Config) (m : Memory) (limit b : Nat) : Err → Prop where
  | subHeader (h : limit < blockStart m b + subhdrBytes) : BlockFails cfg m limit b (.truncated (BitVec.ofNat 8 b))
  | tag (h : blockStart m b + subhdrBytes ≤ limit) (ht : typeOfTag (declared m b).tag = none) :
      BlockFails cfg m limit b (.unsupportedSensorType (BitVec.ofNat 8 b))
  | capacity (h : blockStart m b + subhdrBytes ≤ limit) (T : SensorType) (ht : typeOfTag (declared m b).tag = some T)
      (hn : (declared m b).nonEmpty = true) (hc : cfg.maxRec.get T < (declared m b).count.toNat) :
      BlockFails cfg m limit b (.outOfMemory (BitVec.ofNat 8 b))
  | reach (h : blockStart m b + subhdrBytes ≤ limit) (T : SensorType) (ht : typeOfTag (declared m b).tag = some T)
      (hn : (declared m b).nonEmpty = true) (hc : (declared m b).count.toNat ≤ cfg.maxRec.get T)
      (hr : limit < blockStart m (b + 1) ∨ ∃ k, k < (declared m b).count.toNat ∧
        limit < blockStart m b + subhdrBytes + k * (declared m b).rl.toNat + recSize T) :
      BlockFails cfg m limit b (.truncated (BitVec.ofNat 8 b))

theorem blockFits_or_fails (cfg : Config) (m : Memory) (limit b : Nat) :
    BlockFits cfg m limit b ∨ ∃ e, BlockFails cfg m limit b e := by
  by_cases h : limit < blockStart m b + subhdrBytes
  · exact .inr ⟨_, .subHeader h⟩
  have h : blockStart m b + subhdrBytes ≤ limit := by omega
  cases ht : typeOfTag (declared m b).tag with
  | none => exact .inr ⟨_, .tag h ht⟩
  | some T =>
    by_cases hn : (declared m b).nonEmpty = true
    · by_cases hc : cfg.maxRec.get T < (declared m b).count.toNat
      · exact .inr ⟨_, .capacity h T ht hn hc⟩
      by_cases hr : limit < blockStart m (b + 1) ∨ ∃ k, k < (declared m b).count.toNat ∧
          limit < blockStart m b + subhdrBytes + k * (declared m b).rl.toNat + recSize T
      · exact .inr ⟨_, .reach h T ht hn (by omega) hr⟩
      rw [not_or] at hr
      refine .inl ⟨h, by rw [ht]; simp, ?_, fun _ => by omega, ?_⟩
      · intro U hU _
        rw [ht] at hU
        cases hU
        omega
      · intro U hU _ s hs
        rw [ht] at hU
        cases hU
        by_contra hcon
        exact hr.2 ⟨s, hs, by omega⟩
    · exact .inl ⟨h, by rw [ht]; simp, fun _ _ h' => absurd h' hn, fun h' => absurd h' hn, fun _ _ h' => absurd h' hn⟩

theorem parseBlock_fail {cfg : Config} {m : Memory} {limit nb : Nat} {env : Decoded} {b : Nat} {p : ParseState}
    (hi : BlockInv cfg m limit nb env b p) {e : Err} (hf : BlockFails cfg m limit b e) :
    ∃ q : ParseState, parseBlock cfg m p = .fail e q ∧ q.dec.SameEnvelope env := by
  have hbb : ∀ w : Work, w.b = p.work.b → w.blockByte = BitVec.ofNat 8 b := by
    intro w hw
    unfold Work.blockByte
    rw [hw, hi.number]
  have henv : ({ p.dec with blocks := p.dec.blocks.set p.work.b (declared m b) } : Decoded).SameEnvelope env :=
    ⟨hi.envelope.seq, hi.envelope.ctype, hi.envelope.status, hi.envelope.len, hi.envelope.checksum, hi.envelope.header⟩
  unfold parseBlock
  cases hf with
  | subHeader h =>
    rw [if_pos (by rw [hi.limit, hi.cursor]; exact h)]
    exact ⟨p, by rw [hbb _ rfl], hi.envelope⟩
  | tag h ht =>
    have h0 : ¬ p.work.limit < p.work.cursor + subhdrBytes := by rw [hi.limit, hi.cursor]; omega
    simp only [if_neg h0, readSubHeader_eq m p b hi.cursor, ht]
    exact ⟨_, congrArg₂ ParseResult.fail (congrArg Err.unsupportedSensorType (hbb _ rfl)) rfl, henv⟩
  | capacity h T ht hn hc =>
    have h0 : ¬ p.work.limit < p.work.cursor + subhdrBytes := by rw [hi.limit, hi.cursor]; omega
    obtain ⟨hrl, hcn⟩ := (BlockEntry.nonEmpty_iff _).mp hn
    have hd := (renew_cases cfg.maxRec T (declared m b).rl (declared m b).count p.work.b
      { p.dec with blocks := p.dec.blocks.set p.work.b (declared m b) }).2.1 hcn hrl hc
      (by rw [Decoded.recCount_withBlocks]; exact hi.storesFit T)
    simp only [if_neg h0, readSubHeader_eq m p b hi.cursor, ht, hd]
    exact ⟨_, congrArg₂ ParseResult.fail (congrArg Err.outOfMemory (hbb _ rfl)) rfl, henv⟩
  | reach h T ht hn hc hr =>
    have h0 : ¬ p.work.limit < p.work.cursor + subhdrBytes := by rw [hi.limit, hi.cursor]; omega
    obtain ⟨hrl, hcn⟩ := (BlockEntry.nonEmpty_iff _).mp hn
    obtain ⟨d, hd, _, hdd⟩ := (renew_cases cfg.maxRec T (declared m b).rl (declared m b).count p.work.b
      { p.dec with blocks := p.dec.blocks.set p.work.b (declared m b) }).2.2 hcn hrl hc
    have hde : d.SameEnvelope env := by
      obtain rfl | rfl := hdd
      · exact henv
      · exact (Decoded.envelope_allocate _ _ _).trans henv
    simp only [if_neg h0, readSubHeader_eq m p b hi.cursor, ht, hd]
    unfold decodeBlock
    simp only [Work.extent, hi.limit]
    split
    · exact ⟨_, congrArg₂ ParseResult.fail (congrArg Err.truncated (hbb _ rfl)) rfl, hde⟩
    · rename_i hext
      obtain ⟨q, hq, hqe⟩ := recordLoop_fail m T (declared m b).count.toNat
        { work := { p.work with tag := (declared m b).tag, fmt := (declared m b).format, rl := (declared m b).rl,
                                cnt := (declared m b).count, cursor := blockStart m b + subhdrBytes, s := 0, limit := limit }, dec := d }
        (by
          obtain h' | ⟨k, hk, hkl⟩ := hr
          · exact absurd h' hext
          · exact ⟨k, hk, by simpa using hkl⟩)
      simp only [hq]
      exact ⟨q, congrArg₂ ParseResult.fail (congrArg Err.truncated (hbb _ rfl)) rfl, hqe.trans hde⟩

/-! ### The block loop -/

theorem blockLoop_prefix {cfg : Config} {m : Memory} {limit nb : Nat} {env : Decoded} (n b : Nat) (p : ParseState)
    (hi : BlockInv cfg m limit nb env b p) (r : Nat) (hr : b + n + r ≤ nb) (hf : ∀ j, b ≤ j → j < b + n → BlockFits cfg m limit j) :
    ∃ q, blockLoop cfg m (n + r) p = blockLoop cfg m r q ∧ BlockInv cfg m limit nb env (b + n) q := by
  induction n generalizing b p with
  | zero => exact ⟨p, by rw [Nat.zero_add], hi⟩
  | succ n ih =>
    obtain ⟨q, hq, hqi⟩ := parseBlock_ok hi (by omega) (hf b (Nat.le_refl _) (by omega))
    obtain ⟨t, ht, hti⟩ := ih (b + 1) q.next hqi (by omega) (fun j h1 h2 => hf j (by omega) (by omega))
    refine ⟨t, ?_, ?_⟩
    · have e : n + 1 + r = (n + r) + 1 := by omega
      rw [e, blockLoop, hq]
      exact ht
    · have e : b + (n + 1) = b + 1 + n := by omega
      rw [e]
      exact hti

/-! ### The table and the end -/

theorem copyHeader_envelope (m : Memory) (rawLen : Nat) (d : Decoded) : (copyHeader m rawLen (be16 m offLen) d).EnvelopeOf m rawLen where
  seq := rfl
  ctype := rfl
  status := rfl
  len := rfl
  checksum := rfl
  header := by
    intro k hk
    simp [Decoded.hdrByte, copyHeader, headerBytes, hk, offHdr]

theorem Decoded.EnvelopeOf.of_same {d e : Decoded} {m : Memory} {rawLen : Nat} (h : d.SameEnvelope e) (g : e.EnvelopeOf m rawLen) :
    d.EnvelopeOf m rawLen where
  seq := h.seq.trans g.seq
  ctype := h.ctype.trans g.ctype
  status := h.status.trans g.status
  len := h.len.trans g.len
  checksum := h.checksum.trans g.checksum
  header := fun k hk => by
    have := g.header k hk
    unfold Decoded.hdrByte at *
    rw [h.header]
    exact this

/-- Two responses with the same envelope agree on it. -/
theorem Decoded.EnvelopeOf.same {d e : Decoded} {m : Memory} {rawLen : Nat} (h : d.EnvelopeOf m rawLen) (g : e.EnvelopeOf m rawLen) :
    d.SameEnvelope e where
  seq := h.seq.trans g.seq.symm
  ctype := h.ctype.trans g.ctype.symm
  status := h.status.trans g.status.symm
  len := h.len.trans g.len.symm
  checksum := h.checksum.trans g.checksum.symm
  header := by
    ext k hk
    have h1 := (h.header k hk).trans (g.header k hk).symm
    simp only [Decoded.hdrByte] at h1
    rw [List.getD_eq_getElem _ _ (by simpa using hk), List.getD_eq_getElem _ _ (by simpa using hk)] at h1
    simp only [Vector.getElem_toList] at h1
    rw [h1]

theorem prepareTable_ok (cfg : Config) (p : ParseState) (hfit : ∀ T, p.dec.recCount T ≤ cfg.maxRec.get T)
    (hmax : p.work.nb.toNat ≤ cfg.maxBlocks) :
    ∃ d, prepareTable cfg p = .ok { p with dec := d } ∧ d.blocks.length = p.work.nb.toNat ∧ (∀ T, d.idx.get T = none) ∧
      (∀ T, d.recCount T ≤ cfg.maxRec.get T) ∧ d.SameEnvelope p.dec := by
  unfold prepareTable
  split
  · simp only
    rw [if_neg (by omega)]
    refine ⟨_, rfl, by simp, fun T => ?_, fun T => ?_, ⟨rfl, rfl, rfl, rfl, rfl, rfl⟩⟩
    · exact Decoded.deinit_idx_get p.dec T
    · rw [Decoded.recCount_withBlocks, Decoded.recCount_deinit]
      omega
  · rename_i h
    refine ⟨_, rfl, ?_, fun T => ?_, fun T => ?_, ⟨rfl, rfl, rfl, rfl, rfl, rfl⟩⟩
    · simp only [ne_eq, not_not] at h
      exact h.symm
    · simp
    · rw [Decoded.recCount_withIdx]
      exact hfit T

theorem prepareTable_fail (cfg : Config) (p : ParseState) (hfit : p.dec.nblocks ≤ cfg.maxBlocks)
    (hmax : cfg.maxBlocks < p.work.nb.toNat) :
    prepareTable cfg p = .fail (.outOfMemory 0xFF) { p with dec := p.dec.deinit } := by
  unfold prepareTable
  have hne : p.work.nb.toNat ≠ p.dec.nblocks := by omega
  simp only [hne, ne_eq, not_false_eq_true, if_true, hmax]

theorem Decoded.dropIfUnseen_idx (d : Decoded) (T : SensorType) : (d.dropIfUnseen T).idx = d.idx := by
  unfold Decoded.dropIfUnseen; split <;> simp
theorem Decoded.dropIfUnseen_blocks (d : Decoded) (T : SensorType) : (d.dropIfUnseen T).blocks = d.blocks := by
  unfold Decoded.dropIfUnseen; split <;> simp
theorem Decoded.dropIfUnseen_recCount (d : Decoded) (T U : SensorType) :
    (d.dropIfUnseen T).recCount U = if U = T ∧ d.idx.get T = none then 0 else d.recCount U := by
  unfold Decoded.dropIfUnseen
  split
  · rename_i h
    rw [Decoded.recCount_allocate]
    simp [h]
  · rename_i h
    simp [h]
theorem Decoded.dropIfUnseen_same (d : Decoded) (T U : SensorType) (h : d.idx.get U ≠ none) : (d.dropIfUnseen T).SameStore d U := by
  unfold Decoded.dropIfUnseen
  split
  · rename_i h'
    exact Decoded.sameStore_allocate d (by rintro rfl; exact h h') 0
  · cases U <;> rfl
theorem Decoded.dropIfUnseen_envelope (d : Decoded) (T : SensorType) : (d.dropIfUnseen T).SameEnvelope d := by
  unfold Decoded.dropIfUnseen
  split
  · exact Decoded.envelope_allocate _ _ _
  · exact .refl _

/-- R198: what the end of a successful PARSE does. -/
theorem Decoded.dropUnseen_spec (d : Decoded) :
    d.dropUnseen.idx = d.idx ∧ d.dropUnseen.blocks = d.blocks ∧ d.dropUnseen.SameEnvelope d ∧
    (∀ T, d.idx.get T ≠ none → d.dropUnseen.SameStore d T) ∧
    (∀ T, d.dropUnseen.recCount T = if d.idx.get T = none then 0 else d.recCount T) := by
  unfold Decoded.dropUnseen
  refine ⟨?_, ?_, ?_, fun T h => ?_, fun T => ?_⟩
  · simp only [Decoded.dropIfUnseen_idx]
  · simp only [Decoded.dropIfUnseen_blocks]
  · exact (((Decoded.dropIfUnseen_envelope _ _).trans (Decoded.dropIfUnseen_envelope _ _)).trans
      (Decoded.dropIfUnseen_envelope _ _)).trans (Decoded.dropIfUnseen_envelope _ _)
  · refine Decoded.SameStore.trans (Decoded.dropIfUnseen_same _ _ _ ?_) (Decoded.SameStore.trans (Decoded.dropIfUnseen_same _ _ _ ?_)
      (Decoded.SameStore.trans (Decoded.dropIfUnseen_same _ _ _ ?_) (Decoded.dropIfUnseen_same _ _ _ h))) <;>
      simp only [Decoded.dropIfUnseen_idx] <;> exact h
  · simp only [Decoded.dropIfUnseen_recCount, Decoded.dropIfUnseen_idx]
    cases T <;> simp

/-! ### The whole parse -/

/-- The working registers and the decoded response in which the block loop starts. -/
theorem parse_start {cfg : Config} {m : Memory} {rawLen : Nat} {p : ParseState} (hh : HeaderAccepted m rawLen)
    (hfit : ∀ T, p.dec.recCount T ≤ cfg.maxRec.get T) (hmax : (m.read offNblk).toNat ≤ cfg.maxBlocks) :
    ∃ q, BlockInv cfg m (parseLimit rawLen (be16 m offLen)) (m.read offNblk).toNat (copyHeader m rawLen (be16 m offLen) p.dec) 0 q ∧
      parseCore cfg m rawLen p =
        match blockLoop cfg m (m.read offNblk).toNat q with
        | .fail e r => .fail e { r with dec := r.dec.deinit }
        | .ok r => .ok { r with dec := r.dec.dropUnseen } := by
  obtain ⟨d, hd, hlen, hidx, hfit', henv⟩ := prepareTable_ok cfg
    { work := p.work.headed m rawLen, dec := copyHeader m rawLen (be16 m offLen) p.dec }
    (by intro T; have := hfit T; cases T <;> exact this) hmax
  refine ⟨{ work := { p.work.headed m rawLen with cursor := offBlk0, b := 0 }, dec := d }, ?_, ?_⟩
  · exact ⟨rfl, rfl, rfl, hlen, fun j hj => absurd hj (Nat.not_lt_zero _), hidx, fun _ _ h => (by cases h),
      fun _ _ _ h => (by cases h), hfit', henv⟩
  · unfold parseCore
    rw [parseHead_ok hh]
    simp only [parseBody]
    have e : (p.work.headed m rawLen).len = be16 m offLen := rfl
    rw [e, hd]
    simp only
    have e' : (p.work.headed m rawLen).nb = m.read offNblk := rfl
    rw [e']
    have key : ∀ r : ParseResult,
        (match (match r with
          | .fail e p => ParseResult.fail e p
          | .ok p => .ok { p with dec := p.dec.dropUnseen }) with
        | .fail e p => ParseResult.fail e { p with dec := p.dec.deinit }
        | .ok p => .ok p) =
        match r with
        | .fail e p => ParseResult.fail e { p with dec := p.dec.deinit }
        | .ok p => .ok { p with dec := p.dec.dropUnseen } := by
      intro r
      cases r <;> rfl
    exact key _

/-- R203: an accepted response. -/
theorem parseCore_accepted {cfg : Config} {m : Memory} {rawLen : Nat} {p : ParseState} (hfit : ∀ T, p.dec.recCount T ≤ cfg.maxRec.get T)
    (ha : Accepted cfg m rawLen) :
    ∃ q : ParseState, parseCore cfg m rawLen p = .ok q ∧ q.dec.ParsedFrom m rawLen ∧
      q.work.cursor = blockStart m (m.read offNblk).toNat := by
  obtain ⟨q0, hi0, hpc⟩ := parse_start (p := p) ha.header hfit ha.table
  obtain ⟨q, hq, hi⟩ := blockLoop_prefix (m.read offNblk).toNat 0 q0 hi0 0 (by omega) (fun j _ h2 => ha.blocks j (by omega))
  simp only [Nat.add_zero, blockLoop, Nat.zero_add] at hq hi
  rw [hq] at hpc
  refine ⟨_, hpc, ?_, hi.cursor⟩
  obtain ⟨s1, s2, s3, s4, s5⟩ := q.dec.dropUnseen_spec
  constructor
  · exact .of_same (s3.trans hi.envelope) (copyHeader_envelope m rawLen p.dec)
  · rw [s2]
    apply List.ext_getElem?
    intro j
    by_cases hj : j < (m.read offNblk).toNat
    · rw [hi.entries j hj]
      simp [hj]
    · have h1 := hi.table
      simp [hj]
      omega
  · intro T
    rw [s1]
    exact hi.index T
  · intro T i hT hl
    exact (s4 T (by rw [hi.index, hT]; simp)).holds (hi.records T i hT hl)
  · intro T i j hT h1 h2 h3
    rw [s5, hi.index, hT]
    simp only [reduceCtorEq, if_false]
    exact hi.released T i j hT h1 h2 h3
  · intro T hT
    rw [s5, hi.index, hT]
    rfl

/-- R199: the first block that does not fit decides the error. -/
theorem parseCore_block_fails {cfg : Config} {m : Memory} {rawLen : Nat} {p : ParseState} (hh : HeaderAccepted m rawLen)
    (hfit : ∀ T, p.dec.recCount T ≤ cfg.maxRec.get T) (hmax : (m.read offNblk).toNat ≤ cfg.maxBlocks) {b : Nat}
    (hb : b < (m.read offNblk).toNat) (hpre : ∀ j, j < b → BlockFits cfg m (parseLimit rawLen (be16 m offLen)) j) {e : Err}
    (hf : BlockFails cfg m (parseLimit rawLen (be16 m offLen)) b e) :
    ∃ q : ParseState, parseCore cfg m rawLen p = .fail e q ∧ q.dec.isEmpty = true ∧ q.dec.EnvelopeOf m rawLen := by
  obtain ⟨q0, hi0, hpc⟩ := parse_start (p := p) hh hfit hmax
  obtain ⟨q, hq, hi⟩ := blockLoop_prefix b 0 q0 hi0 ((m.read offNblk).toNat - b) (by omega) (fun j _ h2 => hpre j (by omega))
  obtain ⟨t, ht, hte⟩ := parseBlock_fail (b := b) (by rw [Nat.zero_add] at hi; exact hi) hf
  have e1 : b + ((m.read offNblk).toNat - b) = (m.read offNblk).toNat := by omega
  have e2 : (m.read offNblk).toNat - b = ((m.read offNblk).toNat - b - 1) + 1 := by omega
  rw [e1] at hq
  rw [hq, e2, blockLoop, ht] at hpc
  exact ⟨_, hpc, Decoded.deinit_isEmpty _, .of_same ((Decoded.envelope_deinit _).trans hte) (copyHeader_envelope m rawLen p.dec)⟩

/-- R188, R199: the block table does not fit. -/
theorem parseCore_table_fails {cfg : Config} {m : Memory} {rawLen : Nat} {p : ParseState} (hh : HeaderAccepted m rawLen)
    (hfit : p.dec.nblocks ≤ cfg.maxBlocks) (hmax : cfg.maxBlocks < (m.read offNblk).toNat) :
    ∃ q : ParseState, parseCore cfg m rawLen p = .fail (.outOfMemory 0xFF) q ∧ q.dec.isEmpty = true ∧ q.dec.EnvelopeOf m rawLen := by
  unfold parseCore
  rw [parseHead_ok hh]
  simp only [parseBody]
  have e : (p.work.headed m rawLen).len = be16 m offLen := rfl
  rw [e, prepareTable_fail cfg { work := p.work.headed m rawLen, dec := copyHeader m rawLen (be16 m offLen) p.dec } hfit hmax]
  refine ⟨_, rfl, Decoded.deinit_isEmpty _, ?_⟩
  exact .of_same ((Decoded.envelope_deinit _).trans (Decoded.envelope_deinit _)) (copyHeader_envelope m rawLen p.dec)

/-- R200: a test before the commit point fails exactly when the header is not accepted, with an error of its own, and the decoded response
is kept. -/
theorem parseCore_head_fails {cfg : Config} {m : Memory} {rawLen : Nat} (hh : ¬ HeaderAccepted m rawLen) :
    ∃ e, (e = .truncated 0xFF ∨ e = .badMagic ∨ e = .noBlocks) ∧ ∀ p : ParseState,
      ∃ w, parseCore cfg m rawLen p = .fail e { p with work := w } := by
  by_cases h1 : rawLen < offHdr
  · exact ⟨_, .inl rfl, fun p => ⟨p.work, by simp only [parseCore, parseHead, if_pos h1]⟩⟩
  by_cases h2 : parseLimit rawLen (be16 m offLen) < offNblk
  · exact ⟨_, .inl rfl, fun p => ⟨_, by simp only [parseCore, parseHead, if_neg h1, if_pos h2]; rfl⟩⟩
  by_cases h3 : magicPresent m = true
  · by_cases h4 : parseLimit rawLen (be16 m offLen) < offNblk + 1
    · exact ⟨_, .inl rfl, fun p => ⟨_, by
      simp only [parseCore, parseHead, if_neg h1, if_neg h2, h3, Bool.not_true, Bool.false_eq_true, if_false, if_pos h4]
      rfl⟩⟩
    by_cases h5 : m.read offNblk = 0
    · exact ⟨_, .inr (.inr rfl), fun p => ⟨_, by
      simp only [parseCore, parseHead, if_neg h1, if_neg h2, h3, Bool.not_true, Bool.false_eq_true, if_false, if_neg h4, if_pos h5]
      rfl⟩⟩
    by_cases h6 : parseLimit rawLen (be16 m offLen) < offBlk0
    · exact ⟨_, .inl rfl, fun p => ⟨_, by
      simp only [parseCore, parseHead, if_neg h1, if_neg h2, h3, Bool.not_true, Bool.false_eq_true, if_false, if_neg h4, if_neg h5,
        if_pos h6]
      rfl⟩⟩
    · exact absurd ⟨by unfold offBlk0 at h6; omega, h3, h5⟩ hh
  · exact ⟨_, .inr (.inl rfl), fun p => ⟨_, by
    have h3' : magicPresent m = false := by simpa using h3
    simp only [parseCore, parseHead, if_neg h1, if_neg h2, h3', Bool.not_false, if_true]
    rfl⟩⟩

/-- Every response is accepted, or fails at a first block, or for its table, or before the commit point. -/
theorem response_cases (cfg : Config) (m : Memory) (rawLen : Nat) :
    ¬ HeaderAccepted m rawLen ∨
    (HeaderAccepted m rawLen ∧ cfg.maxBlocks < (m.read offNblk).toNat) ∨
    (HeaderAccepted m rawLen ∧ (m.read offNblk).toNat ≤ cfg.maxBlocks ∧ ∃ b e, b < (m.read offNblk).toNat ∧
      (∀ j, j < b → BlockFits cfg m (parseLimit rawLen (be16 m offLen)) j) ∧
      BlockFails cfg m (parseLimit rawLen (be16 m offLen)) b e) ∨
    Accepted cfg m rawLen := by
  by_cases hh : HeaderAccepted m rawLen
  swap
  · exact .inl hh
  by_cases hmax : cfg.maxBlocks < (m.read offNblk).toNat
  · exact .inr (.inl ⟨hh, hmax⟩)
  have hmax : (m.read offNblk).toNat ≤ cfg.maxBlocks := by omega
  have key : ∀ n, n ≤ (m.read offNblk).toNat →
      (∀ j, j < n → BlockFits cfg m (parseLimit rawLen (be16 m offLen)) j) ∨
      ∃ b e, b < (m.read offNblk).toNat ∧ (∀ j, j < b → BlockFits cfg m (parseLimit rawLen (be16 m offLen)) j) ∧
        BlockFails cfg m (parseLimit rawLen (be16 m offLen)) b e := by
    intro n
    induction n with
    | zero => exact fun _ => .inl fun j hj => absurd hj (Nat.not_lt_zero _)
    | succ n ih =>
      intro hn
      obtain h | h := ih (by omega)
      · obtain hf | ⟨e, he⟩ := blockFits_or_fails cfg m (parseLimit rawLen (be16 m offLen)) n
        · refine .inl fun j hj => ?_
          by_cases hjn : j = n
          · subst hjn; exact hf
          · exact h j (by omega)
        · exact .inr ⟨n, e, by omega, h, he⟩
      · exact .inr h
  obtain h | ⟨b, e, h1, h2, h3⟩ := key _ (Nat.le_refl _)
  · exact .inr (.inr (.inr ⟨hh, hmax, h⟩))
  · exact .inr (.inr (.inl ⟨hh, hmax, b, e, h1, h2, h3⟩))

/-! ### Two responses -/

theorem Decoded.eq_of_parts {d e : Decoded} (h : d.SameEnvelope e) (hb : d.blocks = e.blocks) (hi : ∀ T, d.idx.get T = e.idx.get T)
    (hs : ∀ T, d.SameStore e T) : d = e := by
  have hidx := PerType.ext_get hi
  have h1 := hs .freq
  have h2 := hs .temp
  have h3 := hs .powr
  have h4 := hs .caps
  obtain ⟨g1, g2, g3, g4, g5, g6⟩ := h
  cases d
  cases e
  simp only [Decoded.SameStore] at *
  subst_vars
  rfl

theorem Decoded.sameStore_of_holds {d e : Decoded} {m : Memory} {T : SensorType} {c : Nat} {x : BlockEntry} (h : d.storeHolds m T c x)
    (g : e.storeHolds m T c x) : d.SameStore e T := by
  cases T <;> exact Eq.trans h (Eq.symm g)

theorem Decoded.sameStore_of_zero {d e : Decoded} {T : SensorType} (h : d.recCount T = 0) (g : e.recCount T = 0) : d.SameStore e T := by
  cases T <;> exact (List.eq_nil_of_length_eq_zero h).trans (List.eq_nil_of_length_eq_zero g).symm

/-- R203: a response determines the decoded response. -/
theorem Decoded.ParsedFrom.unique {d e : Decoded} {m : Memory} {rawLen : Nat} (h : d.ParsedFrom m rawLen) (g : e.ParsedFrom m rawLen) :
    d = e := by
  refine Decoded.eq_of_parts (h.envelope.same g.envelope) (h.table.trans g.table.symm) (fun T => (h.index T).trans (g.index T).symm)
    fun T => ?_
  cases hl : lastNonEmpty m T (m.read offNblk).toNat with
  | none => exact Decoded.sameStore_of_zero (h.absent T hl) (g.absent T hl)
  | some i =>
    by_cases hx : ∃ j, i < j ∧ j < (m.read offNblk).toNat ∧ (declared m j).tag = SensorType.tag T
    · obtain ⟨j, h1, h2, h3⟩ := hx
      exact Decoded.sameStore_of_zero (h.released T i j hl h1 h2 h3) (g.released T i j hl h1 h2 h3)
    · have hx : ∀ j, i < j → j < (m.read offNblk).toNat → (declared m j).tag ≠ SensorType.tag T :=
        fun j h1 h2 h3 => hx ⟨j, h1, h2, h3⟩
      exact Decoded.sameStore_of_holds (h.records T i hl hx) (g.records T i hl hx)

/-- Two empty responses with the envelope of one response are the same. -/
theorem Decoded.empty_unique {d e : Decoded} {m : Memory} {rawLen : Nat} (h : d.EnvelopeOf m rawLen) (g : e.EnvelopeOf m rawLen)
    (hd : d.isEmpty = true) (he : e.isEmpty = true) : d = e := by
  simp only [Decoded.isEmpty, Bool.and_eq_true, beq_iff_eq] at hd he
  obtain ⟨⟨⟨⟨⟨a1, a2⟩, a3⟩, a4⟩, a5⟩, a6⟩ := hd
  obtain ⟨⟨⟨⟨⟨b1, b2⟩, b3⟩, b4⟩, b5⟩, b6⟩ := he
  refine Decoded.eq_of_parts (h.same g) (a1.trans b1.symm) (fun T => by rw [a2, b2]) fun T => ?_
  cases T
  · exact a3.trans b3.symm
  · exact a4.trans b4.symm
  · exact a5.trans b5.symm
  · exact a6.trans b6.symm

/-! ### PARSE as an operation -/

theorem execParse_ok (s : State) {q : ParseState} (h : parseCore s.cfg s.raw s.rawLen.val ⟨s.work, s.dec⟩ = .ok q) :
    execParse s = .next ({ s with work := q.work, dec := q.dec }.complete
      (BitVec.ofNat 32 q.work.cursor ++ BitVec.ofNat 32 q.dec.nblocks) 0) := by
  simp only [execParse, parseProc, h, Proc.finish_done, succeed_eq]
  rfl

/-- An error of PARSE. -/
def Err.ofParse : Err → Prop
  | .badMagic | .noBlocks | .unsupportedSensorType _ | .truncated _ | .outOfMemory _ => True
  | .invalidPayloadLength _ | .transportError _ | .protocolError _ | .noSuchSensor | .illegalOperation => False

theorem BlockFails.ofParse {cfg : Config} {m : Memory} {limit b : Nat} {e : Err} (h : BlockFails cfg m limit b e) : e.ofParse := by
  cases h <;> exact True.intro

theorem Err.ofParse.invalidValue {e : Err} (h : e.ofParse) (cfg : Config) : e.invalidValue cfg = false := by
  cases e <;> first
    | rfl
    | exact h.elim

theorem execParse_fail (s : State) {q : ParseState} {e : Err} (h : parseCore s.cfg s.raw s.rawLen.val ⟨s.work, s.dec⟩ = .fail e q)
    (he : e.ofParse) :
    execParse s = .next ({ s with work := q.work, dec := q.dec, cache := { s.cache with valid := false } }.complete 0
      (errReg 0 e.info e.code)) := by
  simp only [execParse, parseProc, h, Proc.finish_raised, raise_eq, he.invalidValue]
  rfl

end Sys2Proof.Machine
end

