-- ==== Sys2Proof/Laws/Consistent.lean ====
section
/-! SUPPORT. The decoded response stays consistent (10_state.md R37): one that a response determines is, an empty one is, and so is whatever
PARSE leaves. -/

namespace Sys2Proof.Machine

theorem Decoded.storeHolds.recCount {d : Decoded} {m : Memory} {T : SensorType} {c : Nat} {e : BlockEntry} (h : d.storeHolds m T c e) :
    d.recCount T = e.count.toNat := by
  cases T <;> simp only [Decoded.storeHolds] at h <;> simp [Decoded.recCount, h]

/-- R37 after an accepted response; it holds at least one block. -/
theorem Decoded.ParsedFrom.consistent {cfg : Config} {m : Memory} {rawLen : Nat} {d : Decoded} (ha : Accepted cfg m rawLen)
    (h : d.ParsedFrom m rawLen) : d.Consistent cfg ∧ 0 < d.nblocks := by
  have hn : d.nblocks = (m.read offNblk).toNat := by simp [Decoded.nblocks, h.table]
  have hpos : 0 < (m.read offNblk).toNat := by
    have := ha.header.someBlock
    by_contra hc
    exact this (BitVec.eq_of_toNat_eq (by simp; omega))
  have cnt : ∀ T, d.recCount T = 0 ∨
      ∃ i, lastNonEmpty m T (m.read offNblk).toNat = some i ∧ d.recCount T = (declared m i).count.toNat := by
    intro T
    cases hl : lastNonEmpty m T (m.read offNblk).toNat with
    | none => exact .inl (h.absent T hl)
    | some i =>
      by_cases hx : ∃ j, i < j ∧ j < (m.read offNblk).toNat ∧ (declared m j).tag = SensorType.tag T
      · obtain ⟨j, h1, h2, h3⟩ := hx
        exact .inl (h.released T i j hl h1 h2 h3)
      · exact .inr ⟨i, rfl, (h.records T i hl fun j a b c => hx ⟨j, a, b, c⟩).recCount⟩
  have ent : ∀ i, i < (m.read offNblk).toNat → d.blocks[i]? = some (declared m i) := fun i hi => by simp [h.table, hi]
  refine ⟨⟨fun h0 => by omega, ?_, ?_, fun T hT => h.absent T (h.index T ▸ hT), ?_, ?_⟩, by omega⟩
  · intro T i hi
    rw [h.index] at hi
    exact ⟨_, ent i (lastNonEmpty_lt hi), (lastNonEmpty_spec hi).1⟩
  · intro T i e hi he h0
    rw [h.index] at hi
    rw [ent i (lastNonEmpty_lt hi)] at he
    cases he
    obtain h1 | ⟨j, h1, h2⟩ := cnt T
    · omega
    · rw [hi] at h1
      cases h1
      exact h2
  · intro T
    obtain h1 | ⟨j, h1, h2⟩ := cnt T
    · omega
    · rw [h2]
      have sp := lastNonEmpty_spec h1
      exact (ha.blocks j (lastNonEmpty_lt h1)).capacity T (by rw [sp.1]; exact typeOfTag_tag T) sp.2
  · have := ha.table
    have := (m.read offNblk).isLt
    omega

/-- R37 for the empty response. -/
theorem Decoded.consistent_of_isEmpty {cfg : Config} {d : Decoded} (hd : d.isEmpty = true) : d.Consistent cfg := by
  simp only [Decoded.isEmpty, Bool.and_eq_true, beq_iff_eq] at hd
  obtain ⟨⟨⟨⟨⟨a1, a2⟩, a3⟩, a4⟩, a5⟩, a6⟩ := hd
  have hc : ∀ T, d.recCount T = 0 := by intro T; cases T <;> simp [Decoded.recCount, *]
  have hi : ∀ T, d.idx.get T = none := by intro T; rw [a2]; cases T <;> rfl
  exact ⟨fun _ T => ⟨hi T, hc T⟩, fun T i h => by simp [hi] at h, fun T i e h => by simp [hi] at h, fun T _ => hc T,
    fun T => by simp [hc], by simp [Decoded.nblocks, a1]⟩

/-- Whatever the response, PARSE leaves a consistent decoded response, with a block in it when it succeeds. -/
theorem parseCore_consistent (cfg : Config) (m : Memory) (rawLen : Nat) (w : Work) (d : Decoded) (hc : d.Consistent cfg) :
    (∃ q, parseCore cfg m rawLen ⟨w, d⟩ = .ok q ∧ q.dec.Consistent cfg ∧ 0 < q.dec.nblocks) ∨
    (∃ e q, parseCore cfg m rawLen ⟨w, d⟩ = .fail e q ∧ q.dec.Consistent cfg) := by
  obtain hh | ⟨hh, hm⟩ | ⟨hh, hm, b, e, hb, hpre, hf⟩ | ha := response_cases cfg m rawLen
  · obtain ⟨e, _, hp⟩ := parseCore_head_fails (cfg := cfg) hh
    obtain ⟨w', hw⟩ := hp ⟨w, d⟩
    exact .inr ⟨_, _, hw, hc⟩
  · obtain ⟨q, hq, h1, _⟩ := parseCore_table_fails (p := ⟨w, d⟩) hh hc.tableFits.1 hm
    exact .inr ⟨_, _, hq, Decoded.consistent_of_isEmpty h1⟩
  · obtain ⟨q, hq, h1, _⟩ := parseCore_block_fails (p := ⟨w, d⟩) hh hc.storesFit hm hb hpre hf
    exact .inr ⟨_, _, hq, Decoded.consistent_of_isEmpty h1⟩
  · obtain ⟨q, hq, h1, _⟩ := parseCore_accepted (p := ⟨w, d⟩) hc.storesFit ha
    exact .inl ⟨q, hq, h1.consistent ha⟩

end Sys2Proof.Machine
end

