-- ==== Sys2Proof/Laws/PerInstr.lean ====
section
/-! SUPPORT. Statements for all operations, one lemma per operation. -/

namespace Sys2Proof.Laws.ImmediateUse

/-- R92: an operation that does not use IMM is encoded with IMM = 0. -/
def Statement (i : Instr) : Prop := i.usesImm = false → (encode i).2 = 0

theorem encode (seq ctype len : Byte) (imm : Word) : Statement (.encode seq ctype len imm) := fun h => by cases h
theorem send (seq ctype len : Byte) (imm : Word) : Statement (.send seq ctype len imm) := fun h => by cases h
theorem fetch : Statement (.fetch) := fun _ => rfl
theorem parse : Statement (.parse) := fun _ => rfl
theorem deinit : Statement (.deinit) := fun _ => rfl
theorem refresh : Statement (.refresh) := fun _ => rfl
theorem get : Statement (.get) := fun _ => rfl
theorem rdTemp (index : Half) : Statement (.rdTemp index) := fun _ => rfl
theorem rdTempId (index : Half) : Statement (.rdTempId index) := fun _ => rfl
theorem rdFreq (index : Half) : Statement (.rdFreq index) := fun _ => rfl
theorem rdFreqId (index : Half) : Statement (.rdFreqId index) := fun _ => rfl
theorem rdPowr (index : Half) : Statement (.rdPowr index) := fun _ => rfl
theorem rdPowrId (index : Half) : Statement (.rdPowrId index) := fun _ => rfl
theorem rdPowrTag (index : Half) : Statement (.rdPowrTag index) := fun _ => rfl
theorem rdPowrAcc (index : Half) : Statement (.rdPowrAcc index) := fun _ => rfl
theorem rdCaps (index : Half) : Statement (.rdCaps index) := fun _ => rfl
theorem rdBlk (index : Half) : Statement (.rdBlk index) := fun _ => rfl
theorem rdHdr (index : Half) : Statement (.rdHdr index) := fun _ => rfl
theorem setPowercap (value : Half) : Statement (.setPowercap value) := fun _ => rfl
theorem csrr (csr : Byte) : Statement (.csrr csr) := fun _ => rfl
theorem csrw (csr : Byte) (imm : Word) : Statement (.csrw csr imm) := fun h => by cases h

end Sys2Proof.Laws.ImmediateUse
end

