-- ==== Sys2Proof/Laws/Poll.lean ====
section
/-! SUPPORT. A poll, for each shape of the transport's answers (44_poll_cache.md R243 to R246), whatever operation it runs in. -/

namespace Sys2Proof.Machine

/-- R244: a transport error in the Send of a poll. -/
theorem pollSend_send_err (o : PollOwner) (s : State) (oks : List (Vector Byte 8)) (rest : List Answer) (hl : oks.length ≤ 7)
    (ha : s.answers = oks.map .ok ++ .err :: rest) :
    pollSend o (pollBegin o s) =
      .raised (.transportError (BitVec.ofNat 8 (oks.length + 1)))
        { s.framedPoll.sendAborted oks.length rest with seqStep := 0, activity := .sending (.poll o) }.pollFailed := by
  unfold pollSend
  rw [pollBegin_eq, sendRun_begun_err s.framedPoll (.poll o) oks rest hl ha]
  rfl

/-- R244: a non-zero status. -/
theorem pollSend_status (o : PollOwner) (s : State) (oks : List (Vector Byte 8)) (b : Vector Byte 8) (rest : List Answer)
    (ha : s.answersSend oks b rest) (hb : b[2] ≠ 0) :
    pollSend o (pollBegin o s) =
      .raised (.protocolError b[2]) { s.framedPoll.sent b rest with seqStep := 0, activity := .sending (.poll o) }.pollFailed := by
  unfold pollSend
  rw [pollBegin_eq, sendRun_begun_ok s.framedPoll (.poll o) oks b rest ha, if_neg hb]
  rfl

/-- The Send of a poll waits. -/
theorem pollSend_send_wait (o : PollOwner) (s : State) (oks : List (Vector Byte 8)) (hl : oks.length ≤ 7)
    (ha : s.answers = oks.map .ok) :
    pollSend o (pollBegin o s) =
      .waiting { s.framedPoll with
        calls := s.calls ++ (commandCalls s.cfg.bus s.framedPoll.work.w1 s.framedPoll.work.w2).take oks.length, answers := [],
        rawLen := 0, seqStep := oks.length, activity := .sending (.poll o) } := by
  unfold pollSend
  rw [pollBegin_eq, sendRun_begun_wait s.framedPoll (.poll o) oks hl ha]
  rfl

/-- After a Send with status 0 a poll goes on with its Fetch. -/
theorem pollSend_fetch (o : PollOwner) (s : State) (oks : List (Vector Byte 8)) (b : Vector Byte 8) (rest : List Answer)
    (ha : s.answersSend oks b rest) (hb : b[2] = 0) :
    pollSend o (pollBegin o s) =
      pollFetch (fetchBegin (.poll o) { s.framedPoll.sent b rest with seqStep := 0, activity := .sending (.poll o) }) := by
  unfold pollSend
  rw [pollBegin_eq, sendRun_begun_ok s.framedPoll (.poll o) oks b rest ha, if_pos hb]
  rfl

/-- R244: a transport error in the Fetch of a poll. -/
theorem pollSend_fetch_err (o : PollOwner) (s : State) (oks : List (Vector Byte 8)) (b : Vector Byte 8)
    (chunks : List (Vector Byte 8)) (rest : List Answer) (ha : s.answersSend oks b (chunks.map .ok ++ .err :: rest)) (hb : b[2] = 0)
    (hl : chunks.length < fetchReads (b[3] ++ b[4])) :
    pollSend o (pollBegin o s) =
      .raised (.transportError 9)
        { (s.framedPoll.sent b (chunks.map Answer.ok ++ Answer.err :: rest)).fetched chunks 1 rest with
          seqStep := 0, activity := .fetching (.poll o) }.pollFailed := by
  rw [pollSend_fetch o s oks b _ ha hb]
  unfold pollFetch
  rw [fetchRun_begun_err _ (.poll o) chunks rest (by simpa [Memory.be16_head_len] using hl) rfl]
  rfl

/-- The Fetch of a poll waits. -/
theorem pollSend_fetch_wait (o : PollOwner) (s : State) (oks : List (Vector Byte 8)) (b : Vector Byte 8)
    (chunks : List (Vector Byte 8)) (ha : s.answersSend oks b (chunks.map .ok)) (hb : b[2] = 0)
    (hl : chunks.length < fetchReads (b[3] ++ b[4])) :
    pollSend o (pollBegin o s) =
      .waiting { (s.framedPoll.sent b (chunks.map Answer.ok)).fetched chunks 0 [] with
        seqStep := 0, activity := .fetching (.poll o) } := by
  rw [pollSend_fetch o s oks b _ ha hb]
  unfold pollFetch
  rw [fetchRun_begun_wait _ (.poll o) chunks (by simpa [Memory.be16_head_len] using hl) rfl]
  rfl

/-- A poll whose Send and Fetch are answered goes on with its Parse. -/
theorem pollSend_parse (o : PollOwner) (s : State) (oks : List (Vector Byte 8)) (b : Vector Byte 8) (chunks : List (Vector Byte 8))
    (rest : List Answer) (ha : s.answersPoll oks b chunks rest) :
    pollSend o (pollBegin o s) =
      pollParse { s.polled b chunks rest with seqStep := 0, activity := .fetching (.poll o) } := by
  obtain ⟨h1, h2, h3⟩ := ha
  rw [pollSend_fetch o s oks b _ h1 h2]
  unfold pollFetch
  rw [fetchRun_begun_ok _ (.poll o) chunks rest (by simpa [Memory.be16_head_len] using h3) rfl]
  rfl

/-- R243 to R246: the Parse of a poll. -/
theorem pollParse_eq (s : State) :
    pollParse s =
      match parseCore s.cfg s.raw s.rawLen.val ⟨s.work, s.dec⟩ with
      | .ok q => .done (s.withParse q).markFresh
      | .fail e q => .raised e (s.withParse q).invalidate := by
  unfold pollParse parseProc
  cases parseCore s.cfg s.raw s.rawLen.val ⟨s.work, s.dec⟩ <;> rfl

/-- The ways the answers can meet a poll. -/
theorem poll_answers (s : State) :
    (∃ (oks : List (Vector Byte 8)) (rest : List Answer), oks.length ≤ 7 ∧ s.answers = oks.map .ok ++ .err :: rest) ∨
    (∃ oks : List (Vector Byte 8), oks.length ≤ 7 ∧ s.answers = oks.map .ok) ∨
    (∃ (oks : List (Vector Byte 8)) (b : Vector Byte 8) (rest : List Answer), s.answersSend oks b rest ∧ b[2] ≠ 0) ∨
    (∃ (oks : List (Vector Byte 8)) (b : Vector Byte 8) (chunks : List (Vector Byte 8)) (rest : List Answer),
      s.answersSend oks b (chunks.map .ok ++ .err :: rest) ∧ b[2] = 0 ∧ chunks.length < fetchReads (b[3] ++ b[4])) ∨
    (∃ (oks : List (Vector Byte 8)) (b : Vector Byte 8) (chunks : List (Vector Byte 8)),
      s.answersSend oks b (chunks.map .ok) ∧ b[2] = 0 ∧ chunks.length < fetchReads (b[3] ++ b[4])) ∨
    (∃ (oks : List (Vector Byte 8)) (b : Vector Byte 8) (chunks : List (Vector Byte 8)) (rest : List Answer),
      s.answersPoll oks b chunks rest) := by
  obtain ⟨oks, b, rest, hl, h⟩ | ⟨oks, rest, hl, h⟩ | ⟨oks, hl, h⟩ := send_answers s.answers
  · by_cases hb : b[2] = 0
    · obtain ⟨chunks, r, hc, hr⟩ | ⟨chunks, r, hc, hr⟩ | ⟨chunks, hc, hr⟩ := fetch_answers (fetchReads (b[3] ++ b[4])) rest
      · exact .inr (.inr (.inr (.inr (.inr ⟨oks, b, chunks, r, ⟨hl, by rw [h, hr]⟩, hb, hc⟩))))
      · exact .inr (.inr (.inr (.inl ⟨oks, b, chunks, r, ⟨hl, by rw [h, hr]⟩, hb, hc⟩)))
      · exact .inr (.inr (.inr (.inr (.inl ⟨oks, b, chunks, ⟨hl, by rw [h, hr]⟩, hb, hc⟩))))
    · exact .inr (.inr (.inl ⟨oks, b, rest, ⟨hl, h⟩, hb⟩))
  · exact .inl ⟨oks, rest, hl, h⟩
  · exact .inr (.inl ⟨oks, hl, h⟩)

end Sys2Proof.Machine
end

