-- ==== Sys2Proof/Laws/Preserve.lean ====
section
/-! SUPPORT. Properties that every operation keeps. `Closed P` lists the elementary updates the meanings are made of; a property closed under
them is kept by `exec`, by an operation that goes on, and by a step. -/

namespace Sys2Proof.Machine

/-- The state a procedure ends in or waits in has `P`. -/
def Proc.All (P : State → Prop) : Proc → Prop
  | .done s => P s
  | .raised _ s => P s
  | .waiting s => P s
  | .halted _ => True

/-- `P` is kept by every elementary update of the meanings. -/
structure Closed (P : State → Prop) : Prop where
  answered : ∀ t a rest c k, P t → t.answers = a :: rest → P { t.answered c rest with seqStep := k }
  head : ∀ t b, P t → P (storeHead b t)
  status : ∀ t st, P t → P { t with lastStatus := st, seqStep := 0 }
  chunk : ∀ t b, P t → t.work.foff + 8 ≤ occDataMax → P (storeChunk b t)
  setup : ∀ t w l k a, P t → P { t with work := w, rawLen := l, seqStep := k, activity := a }
  parse : ∀ t, P t → (parseProc t).All P
  pollParse : ∀ t, P t → (pollParse t).All P
  pollFailed : ∀ t, P t → P t.pollFailed
  interval : ∀ t v, P t → P { t with cache := { t.cache with interval := wrapTime t.cfg v } }
  online : ∀ t b, P t → P { t with online := b }
  powercap : ∀ t v, P t → P { t with userPowercap := v }
  complete : ∀ t r e, P t → P (t.complete r e)

theorem Proc.All.andThen {P : State → Prop} {p : Proc} {k : State → Proc} (h : p.All P) (hk : ∀ t, P t → (k t).All P) :
    (p.andThen k).All P := by
  cases p with
  | done s => exact hk s h
  | raised e s => exact h
  | waiting s => exact h
  | halted f => exact h

theorem Proc.All.onRaise {P : State → Prop} {p : Proc} {g : State → State} (h : p.All P) (hg : ∀ t, P t → P (g t)) :
    (p.onRaise g).All P := by
  cases p with
  | done s => exact h
  | raised e s => exact hg s h
  | waiting s => exact h
  | halted f => exact h

theorem Proc.All.finish {P : State → Prop} {p : Proc} {ok : State → Result} {err : Err → State → Result} (h : p.All P) {t : State}
    (hok : ∀ u, P u → ok u = .next t → P t) (herr : ∀ e u, P u → err e u = .next t → P t) (hf : p.finish ok err = .next t) : P t := by
  cases p with
  | done s => exact hok s h hf
  | raised e s => exact herr e s h hf
  | waiting s => simp only [Proc.finish_waiting, Host.Outcome.next.injEq] at hf; exact hf ▸ h
  | halted f => simp [Proc.finish] at hf

/-- A property that keeps through any change of the decoded response and the `valid` flag keeps through a PARSE, alone or in a poll, and
through a failed poll. -/
theorem parse_all {P : State → Prop} (hd : ∀ t w d, P t → P { t with work := w, dec := d }) (hs : ∀ t, P t → P t.invalidate)
    (s : State) (h : P s) : (parseProc s).All P := by
  unfold parseProc
  split
  · exact hd _ _ _ h
  · exact hs _ (hd _ _ _ h)

theorem pollParse_all {P : State → Prop} (hd : ∀ t w d, P t → P { t with work := w, dec := d }) (hs : ∀ t, P t → P t.invalidate)
    (hm : ∀ t, P t → P t.markFresh) (s : State) (h : P s) : (pollParse s).All P :=
  (parse_all hd hs s h).andThen hm

theorem pollFailed_keeps {P : State → Prop} (hd : ∀ t w d, P t → P { t with work := w, dec := d }) (hs : ∀ t, P t → P t.invalidate)
    (s : State) (h : P s) : P s.pollFailed := hs _ (hd s s.work s.dec.deinit h)

namespace Closed

variable {P : State → Prop} (hP : Closed P)
include hP

theorem raise {s t : State} {e : Err} {lo : Word} {u : Bool} (h : P s) (hr : Machine.raise s e lo u = .next t) : P t := by
  simp only [Machine.raise, Host.Outcome.next.injEq] at hr
  exact hr ▸ hP.complete _ _ _ h

theorem succeed {s t : State} {hi lo : Word} (h : P s) (hr : Machine.succeed s hi lo = .next t) : P t := by
  simp only [Machine.succeed, Host.Outcome.next.injEq] at hr
  exact hr ▸ hP.complete _ _ _ h

theorem runWrites (cs : List Call) (s : State) (h : P s) : (Machine.runWrites cs s).All P := by
  induction cs generalizing s with
  | nil => exact h
  | cons c cs ih =>
    unfold Machine.runWrites
    split
    · exact h
    · rename_i rest ha
      exact hP.answered _ _ _ _ _ h ha
    · rename_i rest ha
      exact ih _ (hP.answered _ _ _ _ _ h ha)

theorem sendStatus (s : State) (h : P s) : (Machine.sendStatus s).All P := by
  unfold Machine.sendStatus
  simp only
  split
  · exact hP.status _ _ h
  · exact hP.status _ _ h

theorem sendTail (s : State) (h : P s) : (Machine.sendTail s).All P := by
  unfold Machine.sendTail
  split
  · unfold sendRead
    split
    · exact h
    · rename_i rest ha
      exact hP.answered _ _ _ _ _ h ha
    · rename_i b rest ha
      exact hP.sendStatus _ (hP.head _ _ (hP.answered s _ _ _ s.seqStep h ha))
  · exact hP.sendStatus s h

theorem sendRun (s : State) (h : P s) : (Machine.sendRun s).All P := (hP.runWrites _ s h).andThen hP.sendTail

theorem sendBroken (s : State) (h : P s) : (Machine.sendBroken s).All P := hP.setup s s.work s.rawLen 0 s.activity h

theorem fetchLoop (n : Nat) (s : State) (h : P s) : (Machine.fetchLoop n s).All P := by
  induction n generalizing s with
  | zero => exact h
  | succ n ih =>
    unfold Machine.fetchLoop
    split
    · split
      · exact h
      · rename_i rest ha
        exact hP.answered s _ _ _ s.seqStep h ha
      · rename_i b rest ha
        split
        · rename_i hin
          exact ih _ (hP.chunk _ _ (hP.answered s _ _ _ s.seqStep h ha) hin)
        · exact True.intro
    · exact h

theorem fetchRun (s : State) (h : P s) : (Machine.fetchRun s).All P := hP.fetchLoop _ s h

theorem afterFetch {f : Proc} (h : f.All P) : (Machine.afterFetch f).All P := (h.onRaise hP.pollFailed).andThen hP.pollParse

theorem fetchBegin (o : FetchOwner) (s : State) (h : P s) : P (Machine.fetchBegin o s) := hP.setup s _ _ s.seqStep _ h

theorem sendBegin (o : SendOwner) (seq ctype : Byte) (len : Fin 3) (p0 p1 : Byte) (s : State) (h : P s) :
    P (Machine.sendBegin o seq ctype len p0 p1 s) := hP.setup s _ _ _ _ h

theorem afterSend (o : PollOwner) {f : Proc} (h : f.All P) : (Machine.afterSend o f).All P :=
  (h.onRaise hP.pollFailed).andThen fun t ht => hP.afterFetch (hP.fetchRun _ (hP.fetchBegin _ t ht))

theorem pollSend (o : PollOwner) (s : State) (h : P s) : (Machine.pollSend o s).All P := hP.afterSend o (hP.sendRun s h)

theorem endSend {p : Proc} {t : State} (h : p.All P) (hr : Machine.endSend p = .next t) : P t :=
  h.finish (fun _ hu => hP.succeed hu) (fun _ _ hu => hP.raise hu) hr

theorem endFetch {p : Proc} {t : State} (h : p.All P) (hr : Machine.endFetch p = .next t) : P t :=
  h.finish (fun _ hu => hP.succeed hu) (fun _ _ hu => hP.raise hu) hr

theorem endPowercap {v : Half} {p : Proc} {t : State} (h : p.All P) (hr : Machine.endPowercap v p = .next t) : P t :=
  h.finish (fun u hu => hP.succeed (hP.powercap u v hu)) (fun _ _ hu => hP.raise hu) hr

theorem readEnd {f : ReadField} {i : Nat} {s t : State} (h : P s) (hr : Machine.readEnd f i s = .next t) : P t := by
  unfold Machine.readEnd at hr
  split at hr
  · exact hP.raise h hr
  · exact hP.succeed h hr

theorem endPoll {o : PollOwner} {p : Proc} {t : State} (h : p.All P) (hr : Machine.endPoll o p = .next t) : P t := by
  cases o with
  | refresh => exact h.finish (fun _ hu => hP.succeed hu) (fun _ _ hu => hP.raise hu) hr
  | get => exact h.finish (fun _ hu => hP.succeed hu) (fun _ _ hu => hP.raise hu) hr
  | online => exact h.finish (fun u hu => hP.succeed (hP.online u true hu)) (fun _ u hu => hP.raise (hP.online u false hu)) hr
  | read f i => exact h.finish (fun _ hu => hP.readEnd hu) (fun _ _ hu => hP.raise hu) hr

theorem runPoll {o : PollOwner} {s t : State} (h : P s) (hr : Machine.runPoll o s = .next t) : P t :=
  hP.endPoll (hP.pollSend o _ (hP.sendBegin _ _ _ _ _ _ s h)) hr

theorem consumerRead {f : ReadField} {i : Nat} {s t : State} (h : P s) (hr : Machine.consumerRead f i s = .next t) : P t := by
  unfold Machine.consumerRead at hr
  split at hr
  · exact hP.readEnd h hr
  · exact hP.runPoll h hr

/-- Every operation keeps a closed property. -/
theorem exec {i : Instr} {s t : State} (h : P s) (hr : Machine.exec i s = .next t) : P t := by
  cases i with
  | encode seq ctype len imm =>
    simp only [Machine.exec, execEncode] at hr
    split at hr
    · exact hP.raise h hr
    · exact hP.succeed (hP.setup s _ s.rawLen s.seqStep s.activity h) hr
  | send seq ctype len imm =>
    simp only [Machine.exec, execSend] at hr
    split at hr
    · exact hP.raise h hr
    · exact hP.endSend (hP.sendRun _ (hP.sendBegin _ _ _ _ _ _ s h)) hr
  | fetch =>
    simp only [Machine.exec, execFetch] at hr
    split at hr
    · exact hP.raise h hr
    · exact hP.endFetch (hP.fetchRun _ (hP.fetchBegin _ s h)) hr
  | parse => exact (hP.parse s h).finish (fun _ hu => hP.succeed hu) (fun _ _ hu => hP.raise hu) hr
  | deinit => exact hP.succeed (hP.pollFailed s h) hr
  | refresh => exact hP.runPoll (o := .refresh) h hr
  | get =>
    simp only [Machine.exec, execGet] at hr
    split at hr
    · exact hP.succeed h hr
    · exact hP.runPoll h hr
  | rdTemp index => exact hP.consumerRead (f := .tempValue) h hr
  | rdTempId index => exact hP.consumerRead (f := .tempId) h hr
  | rdFreq index => exact hP.consumerRead (f := .freqValue) h hr
  | rdFreqId index => exact hP.consumerRead (f := .freqId) h hr
  | rdPowr index => exact hP.consumerRead (f := .powrValue) h hr
  | rdPowrId index => exact hP.consumerRead (f := .powrId) h hr
  | rdPowrTag index => exact hP.consumerRead (f := .powrTag) h hr
  | rdPowrAcc index => exact hP.consumerRead (f := .powrAcc) h hr
  | rdCaps index =>
    simp only [Machine.exec, execRdCaps] at hr
    split at hr
    · exact hP.raise h hr
    · exact hP.consumerRead h hr
  | rdBlk index =>
    simp only [Machine.exec, execRdBlk] at hr
    split at hr
    · exact hP.raise h hr
    · exact hP.succeed h hr
  | rdHdr index =>
    simp only [Machine.exec, execRdHdr] at hr
    split at hr
    · exact hP.raise h hr
    · exact hP.succeed h hr
  | setPowercap v => exact hP.endPowercap (hP.sendRun _ (hP.sendBegin _ _ _ _ _ _ s h)) hr
  | csrr csr =>
    simp only [Machine.exec, execCsrr] at hr
    split at hr
    · exact hP.raise h hr
    · exact hP.succeed h hr
  | csrw csr imm =>
    simp only [Machine.exec, execCsrw] at hr
    split at hr
    · exact hP.succeed (hP.interval s imm.toNat h) hr
    · unfold writeOnline at hr
      split at hr
      · exact hP.runPoll h hr
      · exact hP.succeed (hP.online _ false (hP.pollFailed s h)) hr
    · exact hP.raise h hr

theorem closeSend {o : SendOwner} {f : Proc} {t : State} (h : f.All P) (hr : Machine.closeSend o f = .next t) : P t := by
  cases o with
  | host => exact hP.endSend h hr
  | powercap v => exact hP.endPowercap h hr
  | poll p => exact hP.endPoll (hP.afterSend p h) hr

theorem closeFetch {o : FetchOwner} {f : Proc} {t : State} (h : f.All P) (hr : Machine.closeFetch o f = .next t) : P t := by
  cases o with
  | host => exact hP.endFetch h hr
  | poll p => exact hP.endPoll (hP.afterFetch h) hr

/-- An operation that goes on keeps a closed property. -/
theorem resume {s t : State} (h : P s) (hr : Machine.resume s = .next t) : P t := by
  unfold Machine.resume at hr
  split at hr
  · cases hr
  · unfold runLatched at hr
    split at hr
    · exact hP.exec h hr
    · exact hP.raise h hr
  · exact hP.closeSend (hP.sendRun s h) hr
  · exact hP.closeSend (hP.sendBroken s h) hr
  · exact hP.closeFetch (hP.fetchRun s h) hr
  · exact hP.closeFetch (f := fetchBroken s) h hr

/-- One call with its answer keeps a closed property, whatever answers are at hand. -/
theorem transact {r : Result} {as : List Answer} {t : State} (hans : ∀ u as, P u → P { u with answers := as })
    (h : ∀ u, r = .next u → P u) (hr : Machine.transact as r = .next t) : P t := by
  have took : ∀ (u : State) (c : Call) (k : Nat) (a : Answer) (rest : List Answer), P u → P { u.answered c rest with seqStep := k } :=
    fun u c k a rest hu => hP.answered { u with answers := a :: rest } a rest c k (hans u _ hu) rfl
  unfold Machine.transact at hr
  split at hr
  · cases hr
  · cases hr
  · rename_i u
    have hu := h u rfl
    split at hr
    · cases hr
    · cases hr
    · rename_i o a rest _
      cases hr
      unfold sendAnswered
      split
      · exact hP.setup _ u.work u.rawLen u.seqStep _ (took u (sendCall u) u.seqStep .err rest hu)
      · rename_i b
        split
        · exact took u (sendCall u) (u.seqStep + 1) (.ok b) rest hu
        · exact hP.head _ _ (took u (sendCall u) u.seqStep (.ok b) rest hu)
    · rename_i o a rest _
      have hc := took u (dataRead u.cfg.bus) u.seqStep a rest hu
      unfold fetchAnswered at hr
      split at hr
      · cases hr
        exact hP.setup _ u.work u.rawLen u.seqStep _ hc
      · split at hr
        · rename_i hin
          cases hr
          exact hP.chunk _ _ hc hin
        · cases hr
    all_goals
      cases hr
      exact hans u _ hu

/-- A step keeps a closed property that accepting a request keeps and that does not depend on the answers at hand. -/
theorem step {s t : State} (h : P s) (hans : ∀ u as, P u → P { u with answers := as })
    (hacc : ∀ r rest, s.busy = false → s.requests = r :: rest → P (s.accept r rest)) (hr : Machine.step s = .next t) : P t := by
  unfold Machine.step at hr
  split at hr
  · exact hP.transact hans (fun u hu => hP.resume (hans s [] h) hu) hr
  · rename_i hb
    split at hr
    · cases hr
      exact h
    · rename_i r rest hq
      cases hr
      exact hacc r rest (by simpa using hb) hq

end Closed

end Sys2Proof.Machine
end

