-- ==== Sys2Proof/Laws/ReceivedBytes.lean ====
section
/-! SUPPORT. PARSE looks at the received bytes only (10_state.md R26, 42_parser.md R183): two buffers that agree below `raw_len` parse
alike. -/

namespace Sys2Proof.Machine

theorem be16_congr {m m' : Memory} {n o : Nat} (h : ∀ a, a < n → m'.read a = m.read a) (ho : o + 2 ≤ n) : be16 m' o = be16 m o := by
  unfold be16; rw [h o (by omega), h (o+1) (by omega)]
theorem be32_congr {m m' : Memory} {n o : Nat} (h : ∀ a, a < n → m'.read a = m.read a) (ho : o + 4 ≤ n) : be32 m' o = be32 m o := by
  unfold be32; rw [h o (by omega), h (o+1) (by omega), h (o+2) (by omega), h (o+3) (by omega)]

theorem storeRecord_congr {m m' : Memory} {n r : Nat} (h : ∀ a, a < n → m'.read a = m.read a) (T : SensorType) (hr : r + recSize T ≤ n) (d : Decoded) (i : Nat) :
    d.storeRecord m' T i r = d.storeRecord m T i r := by
  cases T <;> simp only [recSize] at hr <;> simp only [Decoded.storeRecord, sensorRecAt, powrRecAt, capsRecAt] <;>
    (repeat rw [be16_congr h (by omega)]) <;> (try (repeat rw [be32_congr h (by omega)]))

theorem recordLoop_congr {m m' : Memory} {n : Nat} (h : ∀ a, a < n → m'.read a = m.read a) (T : SensorType) (k : Nat) (p : ParseState) (hl : p.work.limit ≤ n) :
    recordLoop m' T k p = recordLoop m T k p := by
  induction k generalizing p with
  | zero => rfl
  | succ k ih =>
    unfold recordLoop
    simp only
    split
    · rfl
    · rename_i hok
      rw [storeRecord_congr h T (by omega)]
      exact ih _ hl

theorem parseBlock_congr {m m' : Memory} {n : Nat} (h : ∀ a, a < n → m'.read a = m.read a) (cfg : Config) (p : ParseState) (hl : p.work.limit ≤ n) :
    parseBlock cfg m' p = parseBlock cfg m p := by
  unfold parseBlock
  split
  · rfl
  · rename_i hok
    have e : readSubHeader m' p = readSubHeader m p := by
      unfold readSubHeader
      unfold subhdrBytes at hok
      have e1 : be32 m' p.work.cursor = be32 m p.work.cursor := be32_congr h (by omega)
      have e2 : m'.read (p.work.cursor + 5) = m.read (p.work.cursor + 5) := h _ (by omega)
      have e3 : m'.read (p.work.cursor + 6) = m.read (p.work.cursor + 6) := h _ (by omega)
      have e4 : m'.read (p.work.cursor + 7) = m.read (p.work.cursor + 7) := h _ (by omega)
      simp only [e1, e2, e3, e4]
    rw [e]
    have hlim : (readSubHeader m p).work.limit = p.work.limit := rfl
    generalize readSubHeader m p = q at *
    simp only
    cases typeOfTag q.work.tag with
    | none => rfl
    | some T =>
      simp only
      cases renew cfg.maxRec T q.work.rl q.work.cnt q.work.b q.dec with
      | outOfMemory => rfl
      | noSensors d => rfl
      | ok d =>
        simp only [decodeBlock]
        rw [recordLoop_congr h _ _ _ (by simp only; omega)]

theorem recordLoop_limit (m : Memory) (T : SensorType) (k : Nat) (p q : ParseState) (h : recordLoop m T k p = .ok q) : q.work.limit = p.work.limit := by
  induction k generalizing p with
  | zero => cases h; rfl
  | succ k ih =>
    unfold recordLoop at h
    simp only at h
    split at h
    · cases h
    · have := ih _ h
      exact this

theorem parseBlock_limit (cfg : Config) (m : Memory) (p q : ParseState) (h : parseBlock cfg m p = .ok q) : q.work.limit = p.work.limit := by
  unfold parseBlock at h
  split at h
  · cases h
  · have hlim : (readSubHeader m p).work.limit = p.work.limit := rfl
    generalize readSubHeader m p = r at *
    simp only at h
    split at h
    · cases h
    · split at h
      · cases h
      · cases h; exact hlim
      · unfold decodeBlock at h
        split at h
        · cases h
        · split at h
          · cases h
          · rename_i hr
            cases h
            exact (recordLoop_limit _ _ _ _ _ hr).trans hlim

theorem blockLoop_congr {m m' : Memory} {n : Nat} (h : ∀ a, a < n → m'.read a = m.read a) (cfg : Config) (k : Nat) (p : ParseState) (hl : p.work.limit ≤ n) :
    blockLoop cfg m' k p = blockLoop cfg m k p := by
  induction k generalizing p with
  | zero => rfl
  | succ k ih =>
    unfold blockLoop
    rw [parseBlock_congr h cfg p hl]
    cases hp : parseBlock cfg m p with
    | fail e q => rfl
    | ok q =>
      simp only
      exact ih _ (by simp only; rw [parseBlock_limit _ _ _ _ hp]; exact hl)

theorem prepareTable_limit (cfg : Config) (p q : ParseState) (h : prepareTable cfg p = .ok q) : q.work = p.work := by
  unfold prepareTable at h
  split at h
  · simp only at h
    split at h
    · cases h
    · cases h; rfl
  · cases h; rfl

theorem parseCore_congr {m m' : Memory} {rawLen : Nat} (h : ∀ a, a < rawLen → m'.read a = m.read a) (cfg : Config) (p : ParseState) :
    parseCore cfg m' rawLen p = parseCore cfg m rawLen p := by
  unfold parseCore
  have hhead : parseHead m' rawLen p = parseHead m rawLen p := by
    unfold parseHead
    split
    · rfl
    · rename_i h5
      unfold offHdr at h5
      rw [be16_congr h (by unfold offLen; omega)]
      have hle : parseLimit rawLen (be16 m offLen) ≤ rawLen := Nat.min_le_left _ _
      simp only
      split
      · rfl
      · rename_i h6
        unfold offNblk at h6
        have hm : magicPresent m' = magicPresent m := by
          unfold magicPresent
          congr 1
          apply List.map_congr_left
          intro k hk
          rw [List.mem_range] at hk
          exact h _ (by unfold offMagic; omega)
        rw [hm]
        split
        · rfl
        · split
          · rfl
          · rename_i h7
            rw [h offNblk (by unfold offNblk at *; omega)]
  rw [hhead]
  by_cases hh : HeaderAccepted m rawLen
  · rw [parseHead_ok hh]
    have hle : parseLimit rawLen (be16 m offLen) ≤ rawLen := Nat.min_le_left _ _
    have hr := hh.reach
    have hc : copyHeader m' rawLen (be16 m offLen) p.dec = copyHeader m rawLen (be16 m offLen) p.dec := by
      have e1 : headerBytes m' = headerBytes m := by
        unfold headerBytes
        congr 2
        apply List.map_congr_left
        intro k hk
        rw [List.mem_range] at hk
        exact h _ (by unfold offHdr; omega)
      have e2 : storedChecksum m' rawLen (be16 m offLen) = storedChecksum m rawLen (be16 m offLen) := by
        unfold storedChecksum
        split
        · exact be16_congr h (by unfold offHdr; omega)
        · rfl
      unfold copyHeader
      rw [e1, e2, h 0 (by omega), h 1 (by omega), h offStatus (by unfold offStatus; omega)]
    simp only [parseBody]
    have e : (p.work.headed m rawLen).len = be16 m offLen := rfl
    rw [e, hc]
    cases hpt : prepareTable cfg { work := p.work.headed m rawLen, dec := copyHeader m rawLen (be16 m offLen) p.dec } with
    | fail e q => rfl
    | ok q =>
      simp only
      rw [blockLoop_congr h cfg _ _ (by
        simp only
        rw [prepareTable_limit _ _ _ hpt]
        exact hle)]
  · obtain ⟨e, he, hp⟩ := parseCore_head_fails (cfg := cfg) hh
    obtain ⟨w, hw⟩ := hp p
    cases hx : parseHead m rawLen p with
    | fail e q => rfl
    | ok q =>
      exfalso
      apply hh
      unfold parseHead at hx
      split at hx
      · cases hx
      · simp only at hx
        split at hx
        · cases hx
        · split at hx
          · cases hx
          · split at hx
            · cases hx
            · split at hx
              · cases hx
              · split at hx
                · cases hx
                · rename_i a b c d e' f
                  unfold offBlk0 at f
                  exact ⟨by omega, by simpa using c, e'⟩

end Sys2Proof.Machine
end

