-- ==== Sys2Proof/Laws/Steps.lean ====
section
/-! SUPPORT. One transaction at a time (00_scope.md R9): issuing the next call with its answer leaves the operation where it stands when that
answer heads the answers at hand, so that an operation run in steps and one run at once come to the same. -/

namespace Sys2Proof.Machine

/-- The call due in a SEND heads the calls that remain. -/
theorem sendWrites_drop {bus : OpenParams} {w1 w2 : Word} {k : Nat} (h : k < 7) :
    (sendWrites bus w1 w2).drop k = (sendWrites bus w1 w2).getD k (dataRead bus) :: (sendWrites bus w1 w2).drop (k + 1) := by
  have hl : k < (sendWrites bus w1 w2).length := h
  rw [List.drop_eq_getElem_cons hl]
  simp [hl]

/-- R160: the next call of a SEND answers `err`. -/
theorem sendRun_err_next (s : State) (rest : List Answer) (h : s.seqStep < 8) (ha : s.answers = .err :: rest) :
    sendRun s = sendBroken (s.answered (sendCall s) rest) := by
  unfold sendRun sendCall
  by_cases h7 : s.seqStep < 7
  · rw [sendWrites_drop h7]
    simp only [runWrites, ha]
    rfl
  · have h7 : s.seqStep = 7 := by omega
    have hd : (sendWrites s.cfg.bus s.work.w1 s.work.w2).drop s.seqStep = [] := by rw [h7]; rfl
    have hg : (sendWrites s.cfg.bus s.work.w1 s.work.w2).getD s.seqStep (dataRead s.cfg.bus) = dataRead s.cfg.bus := by rw [h7]; rfl
    rw [hd, hg]
    simp only [runWrites, Proc.andThen_done]
    rw [sendTail_read h]
    simp only [sendRead, ha]
    rfl

/-- R153 to R158: the next call of a SEND answers `ok`. -/
theorem sendRun_ok_next (o : SendOwner) (s : State) (b : Vector Byte 8) (rest : List Answer) (h : s.seqStep < 8)
    (ha : s.answers = .ok b :: rest) : sendRun s = sendRun (sendAnswered o (.ok b) rest s) := by
  by_cases h7 : s.seqStep < 7
  · unfold sendRun sendAnswered sendCall
    rw [sendWrites_drop h7]
    simp only [runWrites, ha, h7, if_true]
    rfl
  · have h7' : s.seqStep = 7 := by omega
    have hd : (sendWrites s.cfg.bus s.work.w1 s.work.w2).drop s.seqStep = [] := by rw [h7']; rfl
    have hg : (sendWrites s.cfg.bus s.work.w1 s.work.w2).getD s.seqStep (dataRead s.cfg.bus) = dataRead s.cfg.bus := by rw [h7']; rfl
    have hr : sendRun s = sendStatus (storeHead b (s.answered (dataRead s.cfg.bus) rest)) := by
      unfold sendRun
      rw [hd]
      simp only [runWrites, Proc.andThen_done]
      rw [sendTail_read h]
      simp only [sendRead, ha]
    rw [hr]
    unfold sendAnswered sendCall
    rw [hg]
    simp only [h7, if_false]
    rfl

/-- R165: the next read of a FETCH answers `err`. -/
theorem fetchRun_err_next (s : State) (rest : List Answer) (h : s.work.foff < s.work.total) (ha : s.answers = .err :: rest) :
    fetchRun s = fetchBroken (s.answered (dataRead s.cfg.bus) rest) := by
  rw [← fetchLoop_fuel (s.work.total - s.work.foff + 1) s (by omega)]
  simp [fetchLoop, h, ha]

/-- R164: the next read of a FETCH answers `ok`. -/
theorem fetchRun_ok_next (s : State) (b : Vector Byte 8) (rest : List Answer) (h : s.work.foff < s.work.total)
    (h8 : s.work.foff + 8 ≤ occDataMax) (ha : s.answers = .ok b :: rest) :
    fetchRun s = fetchRun (storeChunk b (s.answered (dataRead s.cfg.bus) rest)) := by
  rw [← fetchLoop_fuel (s.work.total - s.work.foff + 1) s (by omega)]
  simp only [fetchLoop, h, if_true, ha, h8]
  exact fetchLoop_fuel _ _ (by simp; omega)

/-- What an operation ends in does not tell where it stood. -/
theorem closeSend_broken (o : SendOwner) (s : State) (a : Activity) :
    closeSend o (sendBroken { s with activity := a }) = closeSend o (sendBroken s) := by
  cases o with
  | host => rfl
  | powercap v => rfl
  | poll p => cases p <;> rfl

theorem closeFetch_broken (o : FetchOwner) (s : State) (a : Activity) :
    closeFetch o (fetchBroken { s with activity := a }) = closeFetch o (fetchBroken s) := by
  cases o with
  | host => rfl
  | poll p => cases p <;> rfl

/-- R9: an operation in a Send comes to the same from the state after its next call as with that call's answer at hand. -/
theorem resume_sendAnswered {o : SendOwner} {s : State} {a : Answer} {rest : List Answer} (ha : s.activity = .sending o)
    (h : s.seqStep < 8) : resume (s.withAnswers (a :: rest)) = resume (sendAnswered o a rest s) := by
  have hl : resume (s.withAnswers (a :: rest)) = closeSend o (sendRun (s.withAnswers (a :: rest))) := by
    simp [resume, State.withAnswers, ha]
  rw [hl]
  cases a with
  | err =>
    rw [sendRun_err_next (s.withAnswers (.err :: rest)) rest h rfl]
    exact (closeSend_broken o _ _).symm
  | ok b =>
    rw [sendRun_ok_next o (s.withAnswers (.ok b :: rest)) b rest h rfl]
    have hs : sendAnswered o (.ok b) rest (s.withAnswers (.ok b :: rest)) = sendAnswered o (.ok b) rest s := by
      unfold sendAnswered
      rfl
    have hact : (sendAnswered o (.ok b) rest s).activity = .sending o := by
      simp only [sendAnswered]
      split <;> simp [ha]
    rw [hs]
    simp [resume, hact]

/-- R9: the same for an operation in a Fetch, while its store stays in the buffer. -/
theorem resume_fetchAnswered {o : FetchOwner} {s t : State} {a : Answer} {rest : List Answer} (ha : s.activity = .fetching o)
    (h : s.work.foff < s.work.total) (ht : fetchAnswered o a rest s = .next t) : resume (s.withAnswers (a :: rest)) = resume t := by
  have hl : resume (s.withAnswers (a :: rest)) = closeFetch o (fetchRun (s.withAnswers (a :: rest))) := by
    simp [resume, State.withAnswers, ha]
  rw [hl]
  unfold fetchAnswered at ht
  cases a with
  | err =>
    cases ht
    rw [fetchRun_err_next (s.withAnswers (.err :: rest)) rest h rfl]
    exact (closeFetch_broken o _ _).symm
  | ok b =>
    simp only at ht
    split at ht
    · rename_i h8
      cases ht
      rw [fetchRun_ok_next (s.withAnswers (.ok b :: rest)) b rest h h8 rfl]
      simp [resume, ha]
      rfl
    · cases ht

end Sys2Proof.Machine
end

