-- ==== Sys2Proof/Machine/Assembler.lean ====
section
/-! DEFINITION. The assembler syntax and the pseudo-instructions of 30_encoding.md R96 and R97: a program's text becomes the requests
its lines present. No meaning uses this file. -/

namespace Sys2Proof.Machine

/-! ### Pseudo-instructions (R97): each is exactly one operation -/

/-- `POLL`: the SEND of the poll command. -/
def pseudoPoll (bus : OpenParams) : Instr :=
  .send bus.pollSeq bus.pollType (BitVec.ofNat 8 bus.pollLen.val) (bus.pollPayload.setWidth 32)
/-- `SET_INTERVAL v`. -/
def pseudoSetInterval (v : Word) : Instr := .csrw 0 v
/-- `SET_ONLINE`. -/
def pseudoSetOnline : Instr := .csrw 1 1
/-- `SET_OFFLINE`. -/
def pseudoSetOffline : Instr := .csrw 1 0

/-- The operand-free forms of R96 and R97. -/
def plainForms (bus : OpenParams) : List (String × Instr) :=
  [("FETCH", .fetch), ("PARSE", .parse), ("DEINIT", .deinit), ("REFRESH", .refresh), ("GET", .get),
   ("POLL", pseudoPoll bus), ("SET_ONLINE", pseudoSetOnline), ("SET_OFFLINE", pseudoSetOffline),
   ("RD_CAPS_CURR_CAP", .rdCaps 0), ("RD_CAPS_CURR_READING", .rdCaps 1), ("RD_CAPS_NORM_CAP", .rdCaps 2),
   ("RD_CAPS_MAX_CAP", .rdCaps 3), ("RD_CAPS_MIN_CAP", .rdCaps 4), ("RD_CAPS_USER_LIMIT", .rdCaps 5)]

/-- The forms of R96 with one 16-bit operand. -/
def indexForms : List (String × (Half → Instr)) :=
  [("RD_TEMP", .rdTemp), ("RD_TEMP_ID", .rdTempId), ("RD_FREQ", .rdFreq), ("RD_FREQ_ID", .rdFreqId), ("RD_POWR", .rdPowr),
   ("RD_POWR_ID", .rdPowrId), ("RD_POWR_TAG", .rdPowrTag), ("RD_POWR_ACC", .rdPowrAcc), ("RD_CAPS", .rdCaps),
   ("RD_BLK", .rdBlk), ("RD_HDR", .rdHdr), ("SET_POWERCAP", .setPowercap)]

/-- The forms of R96 with `seq, type, len, pay`. -/
def frameForms : List (String × (Byte → Byte → Byte → Word → Instr)) := [("ENCODE", .encode), ("SEND", .send)]

/-- The register names of 10_state.md R41, in the order of their numbers. -/
def csrNames : List String :=
  ["INTERVAL", "ONLINE", "CACHE", "LAST_UPDATED", "USER_POWERCAP", "LAST_STATUS", "RAW_LEN", "NBLOCKS", "BLKIDX", "RECCNT",
   "RSP", "RSPLEN"]

/-! ### Reading a line -/

def isBlankChar (c : Char) : Bool := c == ' ' || c == '\t'

def trimLeft (l : List Char) : List Char := l.dropWhile isBlankChar

def trimBlanks (l : List Char) : List Char := (trimLeft (trimLeft l).reverse).reverse

/-- The pieces of a text between separators. -/
def splitOnChar (sep : Char) : List Char → List (List Char)
  | [] => [[]]
  | c :: cs =>
    if c = sep then [] :: splitOnChar sep cs
    else
      match splitOnChar sep cs with
      | [] => [[c]]
      | w :: ws => (c :: w) :: ws

/-- The value of a digit in the given base. -/
def digitValue (base : Nat) (c : Char) : Option Nat :=
  let n := c.toNat
  let v := if 48 ≤ n ∧ n ≤ 57 then n - 48 else if 65 ≤ n ∧ n ≤ 70 then n - 55 else if 97 ≤ n ∧ n ≤ 102 then n - 87 else base
  if v < base then some v else none

def readDigits (base : Nat) : Nat → List Char → Option Nat
  | acc, [] => some acc
  | acc, c :: cs =>
    match digitValue base c with
    | none => none
    | some d => readDigits base (acc * base + d) cs

/-- R96: numbers are decimal or `0x` hexadecimal. -/
def readNumber : List Char → Option Nat
  | [] => none
  | '0' :: 'x' :: d :: ds => readDigits 16 0 (d :: ds)
  | d :: ds => readDigits 10 0 (d :: ds)

/-- A number that fits `w` bits. -/
def readField (w : Nat) (l : List Char) : Option (BitVec w) :=
  match readNumber l with
  | none => none
  | some n => if n < 2 ^ w then some (BitVec.ofNat w n) else none

/-- The entry of a form table under a name. -/
def formOf {α : Type} (name : List Char) : List (String × α) → Option α
  | [] => none
  | (n, a) :: rest => if n.toList = name then some a else formOf name rest

/-- The position of a name in a list. -/
def nameIndex (name : List Char) : Nat → List String → Option Nat
  | _, [] => none
  | k, n :: rest => if n.toList = name then some k else nameIndex name (k + 1) rest

/-- R96: a register by its number or by its name. -/
def readCsr (l : List Char) : Option Byte :=
  match nameIndex l 0 csrNames with
  | some k => some (BitVec.ofNat 8 k)
  | none => readField 8 l

/-- R96: `seq, type, len, pay`; `pay` goes to `IMM[15:0]` and may be omitted when `len = 0`. Program 2 of 95_test_vectors.md also omits
it for `len = 3`, where IMM is not looked at either (R92; log entry 19). -/
def readFrame (mk : Byte → Byte → Byte → Word → Instr) (ops : List (List Char)) : Option Instr :=
  match ops with
  | [a, b, c] =>
    match readField 8 a, readField 8 b, readField 8 c with
    | some seq, some ctype, some len => if len = 0 ∨ 2 < len.toNat then some (mk seq ctype len 0) else none
    | _, _, _ => none
  | [a, b, c, d] =>
    match readField 8 a, readField 8 b, readField 8 c, readField 16 d with
    | some seq, some ctype, some len, some pay => some (mk seq ctype len (pay.setWidth 32))
    | _, _, _, _ => none
  | _ => none

/-- R96, R97: a mnemonic with its operands. -/
def readOperation (bus : OpenParams) (name : List Char) (ops : List (List Char)) : Option Instr :=
  match formOf name (plainForms bus), formOf name indexForms, formOf name frameForms with
  | some i, _, _ => if ops = [] then some i else none
  | _, some mk, _ =>
    match ops with
    | [a] => (readField 16 a).map mk
    | _ => none
  | _, _, some mk => readFrame mk ops
  | none, none, none =>
    match ops with
    | [a] =>
      if name = "CSRR".toList then (readCsr a).map .csrr
      else if name = "SET_INTERVAL".toList then (readField 32 a).map pseudoSetInterval
      else none
    | [a, v] =>
      if name = "CSRW".toList then
        match readCsr a, readField 32 v with
        | some csr, some imm => some (.csrw csr imm)
        | _, _ => none
      else none
    | _ => none

/-- One line of a program: an optional time and an operation. -/
structure AsmLine where
  time : Option Nat
  op : Instr
  deriving DecidableEq, Repr

/-- The first word of a text and what follows it. -/
def splitWord (l : List Char) : List Char × List Char :=
  (l.takeWhile fun c => !isBlankChar c, trimLeft (l.dropWhile fun c => !isBlankChar c))

/-- An operation's text after the time prefix. -/
def readBody (bus : OpenParams) (time : Option Nat) (l : List Char) : Option AsmLine :=
  let w := splitWord l
  let ops := if w.2 = [] then [] else (splitOnChar ',' w.2).map trimBlanks
  (readOperation bus w.1 ops).map fun op => { time := time, op := op }

/-- R96: a line: `@t` if present (decimal), the mnemonic, the operands, and a comment after `;`. -/
def readLine (bus : OpenParams) (line : List Char) : Option AsmLine :=
  match trimBlanks (line.takeWhile fun c => c != ';') with
  | '@' :: l =>
    match splitWord l with
    | ([], _) => none
    | (t, rest) =>
      match readDigits 10 0 t with
      | none => none
      | some n => readBody bus (some n) rest
  | l => readBody bus none l

/-- R96: a line without a time prefix has the NOW of the line before it, 0 at the start. -/
def lineRequests : Nat → List AsmLine → List Request
  | _, [] => []
  | now, l :: ls =>
    let t := l.time.getD now
    { opw := (encode l.op).1, imm := (encode l.op).2, now := t } :: lineRequests t ls

/-- All lines read, or none when one of them is no line of R96. -/
def readLines (bus : OpenParams) : List (List Char) → Option (List AsmLine)
  | [] => some []
  | l :: ls =>
    match readLine bus l, readLines bus ls with
    | some a, some as => some (a :: as)
    | _, _ => none

/-- The requests that a program's lines present, in order. -/
def assemble (bus : OpenParams) (lines : List String) : Option (List Request) :=
  (readLines bus (lines.map String.toList)).map (lineRequests 0)

end Sys2Proof.Machine
end

