-- ==== Sys2Proof/Tests/Slice0.lean ====
section
/-! SUPPORT. Tests: one step each on small states, against the words of 30_encoding.md and the vectors of 95_test_vectors.md; and, for each
statement with hypotheses, a concrete state and operands that meet them. -/

namespace Sys2Proof.Tests

open Sys2Proof Sys2Proof.Machine

/-! ### States -/

/-- Values for the open parameters (R8), chosen for the tests. -/
def bus : OpenParams :=
  { addrW := 16, ctrlA := 0x10, ctrlB := 0x11, vInitA := 0x0000000100000002, vInitB := 0x0000000300000004, addrReg := 0x20,
    dataReg := 0x21, attnReg := 0x22, vCmdAddr := 0x0000000500000006, vRspAddr := 0x0000000700000008,
    vAttn := 0x000000090000000A, pollSeq := 0, pollType := 0, pollLen := 1, pollPayload := 0x1000, capSeq := 0, capType := 0x22,
    statusInvalidValue := 0x13 }

/-- The state after reset with these parameters. -/
def start : State := State.resetWith (Config.default bus)

def zero8 : Vector Byte 8 := Vector.replicate 8 0

/-- Seven writes answered `ok`. -/
def oks7 : List (Vector Byte 8) := List.replicate 7 zero8

/-- The dump of vector P1, row by row. -/
def p1Rows : List (Vector Byte 8) :=
  [#v[0x00, 0x00, 0x00, 0x00, 0x50, 0xC3, 0x01, 0x01], #v[0x00, 0x03, 0x00, 0x00, 0x00, 0x00, 0x00, 0x00],
   #v[0x00, 0x00, 0x00, 0x00, 0x00, 0x6F, 0x63, 0x63], #v[0x5F, 0x74, 0x65, 0x73, 0x74, 0x5F, 0x6C, 0x65],
   #v[0x76, 0x65, 0x6C, 0x5F, 0x31, 0x53, 0x45, 0x4E], #v[0x53, 0x4F, 0x52, 0x02, 0x01, 0x54, 0x45, 0x4D],
   #v[0x50, 0x00, 0x01, 0x04, 0x03, 0x00, 0x01, 0x00], #v[0xFA, 0x00, 0x02, 0x01, 0x2C, 0x00, 0x03, 0x01],
   #v[0x13, 0x50, 0x4F, 0x57, 0x52, 0x00, 0x01, 0x0C], #v[0x01, 0x00, 0x0A, 0x00, 0x00, 0x00, 0x05, 0x00],
   #v[0x00, 0x03, 0xE8, 0x00, 0x2A, 0x0E, 0x49, 0x00]]

def p1Head : Vector Byte 8 := #v[0x00, 0x00, 0x00, 0x00, 0x50, 0xC3, 0x01, 0x01]
def p1Chunks : List (Vector Byte 8) := p1Rows.drop 1

/-- The raw buffer that SEND and FETCH leave for P1. -/
def p1Raw : Memory := Memory.writeBytes [] 0 (p1Rows.flatMap fun r => r.toList)

/-- P1 with some bytes replaced. -/
def p1With (changes : List (Nat × Byte)) : Memory := changes.foldl (fun m c => m.write c.1 c.2) p1Raw

/-- A state about to parse a buffer. -/
def loaded (m : Memory) (n : Nat) : State := { start with raw := m, rawLen := RawLen.ofNat n }

theorem loaded_raw (m : Memory) (n : Nat) : (loaded m n).raw = m := rfl
theorem loaded_cfg (m : Memory) (n : Nat) : (loaded m n).cfg = Config.default bus := rfl

/-- A state after a successful poll with P1 at time 100, the stores filled by hand. -/
def polled : State :=
  { start with
    now := 100,
    dec := { Decoded.reset with
      blocks := [⟨0x54454D50, 1, 4, 3⟩, ⟨0x504F5752, 1, 12, 1⟩], idx := ⟨none, some 0, some 1, none⟩,
      temp := [⟨1, 250⟩, ⟨2, 300⟩, ⟨3, 275⟩], powr := [⟨10, 5, 1000, 42⟩], hdrRaw := Decoded.reset.hdrRaw.set 38 2 },
    cache := { valid := true, lastUpdated := 100, interval := 1 } }

/-- The same with a frequency and a capping record instead. -/
def polled2 : State :=
  { polled with
    dec := { Decoded.reset with
      blocks := [⟨0x46524551, 1, 4, 1⟩, ⟨0x43415053, 1, 12, 1⟩], idx := ⟨some 0, none, none, some 1⟩,
      freq := [⟨5, 3200⟩], caps := [⟨1200, 950, 1500, 1800, 600, 1300⟩] } }

/-- The state in which the host presents one request. -/
def asked (s : State) (opw imm : Word) : State := { s with requests := [⟨opw, imm, 100⟩] }

/-- The state in which that request has just been accepted. -/
def taken (s : State) (opw imm : Word) : State := s.accept ⟨opw, imm, 100⟩ []

/-- A SEND whose first call is due. -/
def sendingState : State :=
  { start with busy := true, activity := .sending .host, work := { start.work with w1 := 0x00220002, w2 := 0x00100034 } }

/-- A FETCH of P1 whose first read is due. -/
def fetchingState : State :=
  { loaded p1Raw 8 with busy := true, activity := .fetching .host, work := { start.work with len := 80, total := 87, foff := 8 } }

/-! ### Reading an outcome -/

/-- The answer is a next state, and it passes the test. -/
def leads (r : Result) (p : State → Bool) : Bool :=
  match r with
  | .next t => p t
  | .fault _ | .refused _ => false

theorem leads_next {r : Result} {p : State → Bool} (h : leads r p = true) : ∃ t, r = .next t ∧ p t = true := by
  cases r with
  | next t => exact ⟨t, rfl, h⟩
  | fault f => cases h
  | refused f => cases h

/-- The operation is over with this result. -/
def ends (r : Result) (res : DWord) (err : Word) : Bool :=
  leads r fun t => t.res == res && t.err == err && !t.busy && t.activity == .idle

/-- The operation is over. -/
def isOver (t : State) : Bool := t.activity == .idle && !t.busy

theorem isOver_finished {t : State} (h : isOver t = true) : t.finished := by
  simpa [isOver, State.finished] using h

/-! ### WellFormed refuses what R94 refuses -/

theorem test_wf_caps_field_6 : (Instr.rdCaps 6).wellFormed = false := by decide
theorem test_wf_header_byte_40 : (Instr.rdHdr 40).wellFormed = false := by decide
theorem test_wf_register_12 : (Instr.csrr 12).wellFormed = false := by decide
theorem test_wf_write_read_only : (Instr.csrw 2 1).wellFormed = false := by decide
theorem test_wf_boundaries : [Instr.rdCaps 5, .rdHdr 39, .csrr 11, .csrw 1 0].all Instr.wellFormed = true := by decide

/-! ### Decoding, each word written out from R90 and R93 -/

theorem test_decode_encode : decode 0b00000001_00010010_00110100_00000010 0xABCD = .ok (.encode 0x12 0x34 2 0xABCD) := rfl
theorem test_decode_send : decode 0b00000010_00000001_00000010_00000001 0xAB00 = .ok (.send 1 2 1 0xAB00) := rfl
theorem test_decode_fetch : decode 0b00000011_00000000_00000000_00000000 0 = .ok .fetch := rfl
theorem test_decode_parse : decode 0b00000100_00000000_00000000_00000000 0 = .ok .parse := rfl
theorem test_decode_deinit : decode 0b00000101_00000000_00000000_00000000 0 = .ok .deinit := rfl
theorem test_decode_refresh : decode 0b00000110_00000000_00000000_00000000 0 = .ok .refresh := rfl
theorem test_decode_get : decode 0b00000111_00000000_00000000_00000000 0 = .ok .get := rfl
theorem test_decode_rd_temp : decode 0b00010000_00000000_00000001_00000011 0 = .ok (.rdTemp 0x0103) := rfl
theorem test_decode_rd_temp_id : decode 0b00010001_00000000_00000000_00000010 0 = .ok (.rdTempId 2) := rfl
theorem test_decode_rd_freq : decode 0b00010010_00000000_10000000_00000001 0 = .ok (.rdFreq 0x8001) := rfl
theorem test_decode_rd_freq_id : decode 0b00010011_00000000_00000000_00000001 0 = .ok (.rdFreqId 1) := rfl
theorem test_decode_rd_powr : decode 0b00010100_00000000_00000000_00000100 0 = .ok (.rdPowr 4) := rfl
theorem test_decode_rd_powr_id : decode 0b00010101_00000000_00000000_00000101 0 = .ok (.rdPowrId 5) := rfl
theorem test_decode_rd_powr_tag : decode 0b00010110_00000000_00000000_00000110 0 = .ok (.rdPowrTag 6) := rfl
theorem test_decode_rd_powr_acc : decode 0b00010111_00000000_00000000_00000111 0 = .ok (.rdPowrAcc 7) := rfl
theorem test_decode_rd_caps : decode 0b00011000_00000000_00000000_00000101 0 = .ok (.rdCaps 5) := rfl
theorem test_decode_rd_blk : decode 0b00011001_00000000_00000000_11111110 0 = .ok (.rdBlk 254) := rfl
theorem test_decode_rd_hdr : decode 0b00011010_00000000_00000000_00100110 0 = .ok (.rdHdr 38) := rfl
theorem test_decode_set_powercap : decode 0b00100000_00000000_00000001_00101100 0 = .ok (.setPowercap 300) := rfl
theorem test_decode_csrr : decode 0b00110000_00000000_00000000_00001000 0 = .ok (.csrr 8) := rfl
theorem test_decode_csrw : decode 0b00110001_00000000_00000000_00000000 5 = .ok (.csrw 0 5) := rfl

theorem test_decode_unknown_opcodes :
    ([0x00000000, 0x08000000, 0x0F000000, 0x1B000000, 0x21000000, 0x32000000, 0xFF000000] : List Word).all
      (fun w => legalWord w == false) = true := by decide
theorem test_decode_reserved_fields :
    decode 0x03000001 0 = .error .reservedField ∧ decode 0x10010000 0 = .error .reservedField ∧
      decode 0x30000108 0 = .error .reservedField := ⟨rfl, rfl, rfl⟩
theorem test_table_word : decodeTableWord 32 0x2000012C = some (.setPowercap 300) ∧
    decodeTableWord 64 0x0000_0005_3100_0000 = some (.csrw 0 5) ∧ decodeTableWord 32 0 = none := ⟨rfl, rfl, rfl⟩
theorem test_first_word_runs :
    leads (step (State.withFetchWord start 32 0x30000000)) (fun t => t.res == 1 && t.err == 0 && t.requests == []) = true := by decide +kernel

/-! ### One step of each operation -/

/-- Vector E1. -/
theorem test_encode_e1 : ends (exec (.encode 0 0x22 2 0x0010) start) 0x0022000200100034 0 = true := by decide +kernel
/-- Vector E6: `IMM[7:0]` is ignored when `len = 1`. -/
theorem test_encode_e6 : ends (exec (.encode 1 2 1 0xABCD) start) 0x01020001AB00AF00 0 = true := by decide +kernel
/-- Vector S2.6: call 6 answers `err`. -/
theorem test_send_s2_6 :
    leads (exec (.send 0 0x22 2 0x0010) { start with answers := (oks7.take 5).map .ok ++ [.err, .err] }) (fun t =>
      t.err == 0x00000602 && t.rawLen.val == 0 && t.calls.length == 6 && t.answers == [.err] &&
      t.calls.getLast? == some (.write 0x22 9 10)) = true := by decide +kernel
/-- Vector S3: a status that is not 0. -/
theorem test_send_s3 :
    leads (exec (.send 0 0x22 2 0x0010) { start with answers := oks7.map .ok ++ [.ok #v[0, 0x22, 5, 0, 0, 0, 0, 0]] }) (fun t =>
      t.res == 5 && t.err == 0x00000503 && t.rawLen.val == 8 && t.lastStatus == 5 &&
      t.calls[4]? == some (.write 0x21 0x00220002 0x00100034)) = true := by decide +kernel
/-- Vector F7: the third read answers `err`. -/
theorem test_fetch_f7 :
    leads (exec .fetch { loaded p1Raw 8 with answers := [.ok zero8, .ok zero8, .err] }) (fun t =>
      t.res == 0 && t.err == 0x00000902 && t.rawLen.val == 24 && t.calls == List.replicate 3 (.read 0x21)) = true := by decide +kernel
/-- Vector F8. -/
theorem test_fetch_f8 : ends (exec .fetch start) 0 0x0000000A = true := by decide +kernel
/-- Vector P1. -/
theorem test_parse_p1 :
    leads (exec .parse (loaded p1Raw 88)) (fun t =>
      t.res == 0x00000055_00000002 && t.err == 0 && t.dec.temp == polled.dec.temp && t.dec.powr == polled.dec.powr &&
      t.dec.idx == polled.dec.idx && t.dec.rspChecksum == 0x0E49) = true := by decide +kernel
/-- Vector P3: three blocks declared, two present. -/
theorem test_parse_p3 :
    leads (exec .parse (loaded (p1With [(43, 3), (86, 0x4A)]) 88)) (fun t =>
      t.err == 0x00000207 && t.dec.isEmpty && t.dec.rspChecksum == 0x0E4A && t.dec.hdrByte 38 == 3) = true := by decide +kernel
/-- Vector B7. -/
theorem test_deinit_b7 :
    leads (exec .deinit polled) (fun t => t.err == 0 && t.dec.isEmpty && !t.cache.valid && t.dec.hdrByte 38 == 2) = true := by
  decide +kernel
/-- Vector G5, with the status `FF`. -/
theorem test_refresh_g5 :
    leads (exec .refresh { polled with answers := oks7.map .ok ++ [.ok #v[0, 0, 0xFF, 0, 0, 0, 0, 0]] }) (fun t =>
      t.err == 0x0000FF03 && t.dec.isEmpty && !t.cache.valid && t.lastStatus == 0xFF && t.rawLen.val == 8) = true := by decide +kernel
/-- Vector G1: a miss polls; 18 calls. -/
theorem test_get_g1 :
    leads (exec .get { start with now := 100, answers := oks7.map .ok ++ p1Rows.map .ok }) (fun t =>
      t.res == 1 && t.err == 0 && t.cache == ⟨true, 100, 1⟩ && t.calls.length == 18 && t.rawLen.val == 88) = true := by decide +kernel
/-- Vector G2: a hit costs nothing. -/
theorem test_get_g2 : leads (exec .get polled) (fun t => t.res == 0 && t.err == 0 && t.calls == []) = true := by decide +kernel
/-- Vector V1. -/
theorem test_rd_temp_v1 :
    leads (exec (.rdTemp 0) { start with now := 7, answers := oks7.map .ok ++ p1Rows.map .ok }) (fun t =>
      t.res == 0x0003D090 && t.err == 0 && t.cache.lastUpdated == 7) = true := by decide +kernel
/-- Vector V2: call 8 answers `err`. -/
theorem test_rd_temp_v2 :
    leads (exec (.rdTemp 0) { start with answers := oks7.map .ok ++ [.err] }) (fun t =>
      t.res == 0 && t.err == 0x00010802 && t.calls.length == 8) = true := by decide +kernel
theorem test_rd_temp_id : ends (exec (.rdTempId 2) polled) 3 0 = true := by decide +kernel
theorem test_rd_freq : ends (exec (.rdFreq 0) polled2) 3200 0 = true := by decide +kernel
/-- Vector P1: no frequency block. -/
theorem test_rd_freq_absent : ends (exec (.rdFreq 0) polled) 0 0x00010009 = true := by decide +kernel
theorem test_rd_freq_id : ends (exec (.rdFreqId 0) polled2) 5 0 = true := by decide +kernel
theorem test_rd_powr : ends (exec (.rdPowr 0) polled) 42 0 = true := by decide +kernel
theorem test_rd_powr_id : ends (exec (.rdPowrId 0) polled) 10 0 = true := by decide +kernel
theorem test_rd_powr_tag : ends (exec (.rdPowrTag 0) polled) 5 0 = true := by decide +kernel
theorem test_rd_powr_acc : ends (exec (.rdPowrAcc 0) polled) 1000 0 = true := by decide +kernel
/-- Vector P2. -/
theorem test_rd_caps_user_limit : ends (exec (.rdCaps 5) polled2) 1300 0 = true := by decide +kernel
/-- R270: no poll. -/
theorem test_rd_caps_6 : ends (exec (.rdCaps 6) start) 0 0x0000000A = true := by decide +kernel
theorem test_rd_blk : ends (exec (.rdBlk 0) polled) 0x54454D50_00010403 0 = true := by decide +kernel
theorem test_rd_blk_2 : ends (exec (.rdBlk 2) polled) 0 0x00010009 = true := by decide +kernel
theorem test_rd_hdr : ends (exec (.rdHdr 38) polled) 2 0 = true := by decide +kernel
theorem test_rd_hdr_40 : ends (exec (.rdHdr 40) polled) 0 0x0000000A = true := by decide +kernel
/-- Vector V4. -/
theorem test_set_powercap_v4 :
    leads (exec (.setPowercap 300) { start with answers := oks7.map .ok ++ [.ok zero8] }) (fun t =>
      t.userPowercap == 300 && t.err == 0 && t.calls[4]? == some (.write 0x21 0x00220002 0x012C0051)) = true := by decide +kernel
/-- Vector V3. -/
theorem test_set_powercap_v3 :
    leads (exec (.setPowercap 65535) { polled with userPowercap := 300, answers := oks7.map .ok ++ [.ok #v[0, 0x22, 0x13, 0, 0, 0, 0, 0]] })
      (fun t => t.res == 0x13 && t.err == 0x00021303 && t.userPowercap == 300 && t.cache.valid) = true := by decide +kernel
/-- Vector P1, register views. -/
theorem test_csrr_blkidx : ends (exec (.csrr 8) polled) 0xFF0100FF 0 = true := by decide +kernel
theorem test_csrr_reccnt : ends (exec (.csrr 9) polled) 0x00010300 0 = true := by decide +kernel
/-- Vector V7. -/
theorem test_csrw_online_v7 :
    leads (exec (.csrw 1 1) { start with now := 9, answers := oks7.map .ok ++ p1Rows.map .ok }) (fun t =>
      t.res == 1 && t.err == 0 && t.online && t.cache == ⟨true, 9, 1⟩) = true := by decide +kernel
/-- Vector V9. -/
theorem test_csrw_offline_v9 :
    leads (exec (.csrw 1 0) { polled with online := true }) (fun t =>
      t.err == 0 && !t.online && t.dec.isEmpty && !t.cache.valid) = true := by decide +kernel

/-! ### Steps (R9) -/

/-- R9, R21: accepting is a step of its own: BUSY is 1 before ENCODE ends, and nothing else has happened. -/
theorem test_accept_is_a_step :
    leads (step (asked start 0x01002202 0x00000010)) (fun t =>
      t.busy && t.activity == .accepted && t.opw == 0x01002202 && t.now == 100 && t.work == start.work && t.res == 0) = true := by decide +kernel
/-- R9, R24, R158: call 8 is a step of its own: `step` is 8, the head is stored, and its status is not yet taken. -/
theorem test_step_8_is_a_state :
    leads (step { sendingState with seqStep := 7, answers := [.ok #v[0, 0, 5, 0, 0, 0, 0, 0]] }) (fun t =>
      t.busy && t.seqStep == 8 && t.rawLen.val == 8 && t.raw == [(2, 5)] && t.lastStatus == 0) = true := by decide +kernel
/-- R159: the step after it ends the SEND. -/
theorem test_send_completes_after_call_8 :
    leads (step { sendingState with seqStep := 8, raw := [(2, 5)], rawLen := 8, answers := [.err] }) (fun t =>
      isOver t && t.seqStep == 0 && t.lastStatus == 5 && t.err == 0x00000503 && t.calls == [] && t.answers == [.err]) = true := by decide +kernel
/-- R9, R160: a call answered `err` is one step; the operation is not over. -/
theorem test_failed_call_is_a_step :
    leads (step { sendingState with seqStep := 5, answers := [.err, .err] }) (fun t =>
      t.busy && t.activity == .sendBroken .host && t.answers == [.err] && t.calls == [.write 0x22 9 10] && t.err == 0) = true := by decide +kernel
/-- R160: the step after it ends the operation, with the number of the call. -/
theorem test_operation_ends_after_failed_call :
    leads (step { sendingState with seqStep := 5, activity := .sendBroken .host }) (fun t =>
      isOver t && t.seqStep == 0 && t.err == 0x00000602 && t.calls == []) = true := by decide +kernel

/-- R96: a line with a time, a register name and a comment. -/
theorem test_assembler_line :
    assemble bus ["@100 CSRW INTERVAL, 2 ; two ticks", "RD_TEMP 0"] =
      some [⟨0x31000000, 2, 100⟩, ⟨0x10000000, 0, 100⟩] := by decide +kernel
/-- R97: a pseudo-instruction is one operation. -/
theorem test_assembler_pseudo :
    assemble bus ["POLL", "SEND 0, 0, 3"] = some [⟨0x02000001, 0x1000, 0⟩, ⟨0x02000003, 0, 0⟩] := by decide +kernel

/-! ### The hypotheses of the statements are met

`witness_<Name>` gives, for the obligation of that name, concrete states and operands that meet all its hypotheses together, for each
clause at a boundary of its range. -/

/-- A request presented; an accepted operation that ends without a call, one whose next call is a write, one whose next is a read; and no
request. -/
theorem witness_StepRunsTheDecodedOperation :
    ((asked start 0x31000001 1).busy = false ∧ (asked start 0x31000001 1).requests = ⟨0x31000001, 1, 100⟩ :: []) ∧
    ((taken polled 0x07000000 0).busy = true ∧ (taken polled 0x07000000 0).activity = .accepted ∧
      decode (taken polled 0x07000000 0).opw (taken polled 0x07000000 0).imm = .ok .get ∧
      leads (exec .get { taken polled 0x07000000 0 with answers := [] }) (fun t => t.activity == .idle) = true) ∧
    leads (exec (.csrw 1 1) { taken start 0x31000001 1 with answers := [] }) (fun t => t.activity == .sending (.poll .online)) = true ∧
    leads (exec .fetch { taken (loaded p1Raw 8) 0x03000000 0 with answers := [] }) (fun t => t.activity == .fetching .host) = true ∧
    (start.busy = false ∧ start.requests = []) := by decide +kernel
theorem witness_DecodedWordIsTheEncoding : decode 0x31000001 7 = .ok (.csrw 1 7) ∧ (Instr.csrw 1 7).usesImm = true := ⟨rfl, rfl⟩
theorem witness_IllegalWordRaises :
    (taken polled 0x18000006 0).busy = true ∧ (taken polled 0x18000006 0).activity = .accepted ∧
      legalWord (taken polled 0x18000006 0).opw = false := ⟨rfl, rfl, by decide⟩
theorem witness_BusyHoldsRequestsBack :
    ∃ t, sendingState.busy = true ∧ step { sendingState with answers := [.ok zero8], requests := [⟨0, 0, 0⟩] } = .next t :=
  let ⟨t, h, _⟩ := leads_next (p := fun _ => true)
    (show leads (step { sendingState with answers := [.ok zero8], requests := [⟨0, 0, 0⟩] }) _ = true by decide +kernel)
  ⟨t, rfl, h⟩
/-- Call 1 and call 8 due; the first and the last read due. -/
theorem witness_StepStopsOnlyOnSilence :
    (sendingState.busy = true ∧ sendingState.answers = [] ∧ sendingState.activity = .sending .host ∧ sendingState.seqStep < 8) ∧
    ({ sendingState with seqStep := 7 } : State).seqStep < 8 ∧
    (fetchingState.busy = true ∧ fetchingState.answers = [] ∧ fetchingState.activity = .fetching .host ∧
      fetchingState.work.foff < fetchingState.work.total) ∧
    ({ fetchingState.work with foff := 80 } : Work).foff < fetchingState.work.total := by decide
theorem sequenced_of_sending {s : State} {o : SendOwner} (ha : s.activity = .sending o) (hb : s.busy = true)
    (hs : s.seqStep ≤ 8 ∧ s.rawLen.val = if s.seqStep = 8 then 8 else 0) : s.Sequenced where
  lock := by simp [ha, hb]
  restStep := by simp [ha]
  sending := fun _ _ => hs
  sendBroken := by simp [ha]
  fetching := by simp [ha]
  fetchBroken := by simp [ha]
/-- The only stop of a state in sequence is met. -/
theorem witness_StepStops : sendingState.Sequenced ∧ step sendingState = .fault .transportSilent := ⟨sequenced_of_sending rfl rfl (by decide), rfl⟩
/-- An accepted SEND that ends (at call 1, and after call 8) and one that runs out of answers (at call 1, and at call 8); and answers split
after an end and before one. -/
theorem witness_StepsRunTheOperation :
    let send := Instr.send 0 0x22 2 0x0010
    let s := taken start 0x02002202 0x0010
    (s.busy = true ∧ s.activity = .accepted ∧ decode s.opw s.imm = .ok send) ∧
    leads (exec send { s with answers := [.err] }) isOver = true ∧
    leads (exec send { s with answers := oks7.map .ok ++ [.ok zero8] }) isOver = true ∧
    leads (exec send s) (fun t => !isOver t) = true ∧
    leads (exec send { s with answers := oks7.map .ok }) (fun t => !isOver t && t.activity != .idle) = true := by decide +kernel
/-- An accept; a call of which one answer is left; a completion. -/
theorem witness_StepIsOneTransaction :
    ((asked start 0x01002202 0).requests ≠ [] ∧ leads (step (asked start 0x01002202 0)) (fun t => t.busy) = true) ∧
    (sendingState.busy = true ∧ leads (step { sendingState with answers := [.ok zero8, .err] }) (fun t => t.answers == [.err] && t.busy) = true) ∧
    leads (step { sendingState with seqStep := 8, rawLen := 8 }) isOver = true := by decide +kernel
theorem witness_CallsPerOperation :
    (∃ t, exec .get polled = .next t ∧ mayCall polled .get = false) ∧
    ∃ t, exec .refresh { polled with answers := oks7.map .ok ++ p1Rows.map .ok } = .next t ∧ (t.calls.length == 18) = true :=
  ⟨⟨_, rfl, by decide⟩, leads_next (p := fun t => t.calls.length == 18) (by decide +kernel)⟩
theorem witness_ResetMeetsInvariants : 0 < (Config.default bus).timeW := by decide

theorem start_consistent : start.dec.Consistent start.cfg where
  emptyTable := fun _ T => by cases T <;> exact ⟨rfl, rfl⟩
  indexNames := fun T i h => by cases T <;> cases h
  countsAgree := fun T i e h => by cases T <;> cases h
  absentEmpty := fun T _ => by cases T <;> rfl
  storesFit := fun T => by cases T <;> decide
  tableFits := by decide

theorem polled_consistent : polled.dec.Consistent polled.cfg where
  emptyTable := fun h => by cases h
  indexNames := fun T i h => by cases T <;> cases h <;> exact ⟨_, rfl, rfl⟩
  countsAgree := fun T i e h he => by cases T <;> cases h <;> cases he <;> decide
  absentEmpty := fun T => by cases T <;> decide
  storesFit := fun T => by cases T <;> decide
  tableFits := by decide

/-- A valid snapshot and a step that reads from it. -/
theorem witness_StepKeepsSnapshotConsistent :
    (taken polled 0x10000000 0).SnapshotOk ∧ ∃ t, step (taken polled 0x10000000 0) = .next t ∧ (t.res == 250000) = true :=
  ⟨⟨polled_consistent, fun _ => by decide⟩, leads_next (p := fun t => t.res == 250000) (by decide +kernel)⟩
theorem witness_StepKeepsRawBuffer :
    ({ sendingState with raw := [(4095, 0xAA)], seqStep := 7, answers := [.ok p1Head] } : State).RawOk ∧
    ∃ t, step { sendingState with raw := [(4095, 0xAA)], seqStep := 7, answers := [.ok p1Head] } = .next t ∧
      (t.raw.read 4 == 0x50) = true :=
  ⟨⟨by decide, fun a ha => by simp [Memory.read]; omega⟩, leads_next (p := fun t => t.raw.read 4 == 0x50) (by decide +kernel)⟩
/-- The last call of a SEND, and the step after it. -/
theorem witness_StepKeepsSequence :
    ({ sendingState with seqStep := 7, answers := [.ok p1Head] } : State).Sequenced ∧
    leads (step { sendingState with seqStep := 7, answers := [.ok p1Head] }) (fun t => t.seqStep == 8) = true ∧
    ({ sendingState with seqStep := 8, rawLen := 8 } : State).Sequenced ∧
    leads (step { sendingState with seqStep := 8, rawLen := 8 }) (fun t => t.seqStep == 0) = true :=
  ⟨sequenced_of_sending rfl rfl (by decide), by decide +kernel, sequenced_of_sending rfl rfl (by decide), by decide +kernel⟩
theorem witness_StepKeepsTimesInWidth :
    (taken polled 0x31000000 0xFFFFFFFF).TimesFit ∧
    ∃ t, step (taken polled 0x31000000 0xFFFFFFFF) = .next t ∧ (t.cache.interval == 0xFFFFFFFF) = true :=
  ⟨⟨by decide, by decide, by decide⟩, leads_next (p := fun t => t.cache.interval == 0xFFFFFFFF) (by decide +kernel)⟩
theorem witness_RawReadAfterWrite :
    7 < p1Head.toList.length ∧ ((3 : Nat) < 4 ∨ 4 + p1Head.toList.length ≤ 3) ∧ ((12 : Nat) < 4 ∨ 4 + p1Head.toList.length ≤ 12) := by decide
/-- SEND and SET_POWERCAP at offset 8; FETCH below and above what it stores; a poll that failed in its SEND; and PARSE. -/
theorem witness_RawBufferFrame :
    (∃ t, exec (.send 0 0x22 2 0x0010) { start with answers := oks7.map .ok ++ [.ok p1Head] } = .next t ∧ (8 : Nat) ≤ 8) ∧
    (∃ t, exec .fetch { loaded p1Raw 8 with answers := [.ok zero8, .err] } = .next t ∧ ((7 : Nat) < 8 ∨ t.rawLen.val ≤ 7)) ∧
    (∃ t, exec .fetch { loaded p1Raw 8 with answers := [.ok zero8, .err] } = .next t ∧ (t.rawLen.val == 16) = true) ∧
    (∃ t, exec .refresh { start with answers := [.err] } = .next t ∧ (t.rawLen.val == 0) = true) ∧
    (∃ t, exec .parse (loaded p1Raw 88) = .next t ∧ (t.err == 0) = true) := by
  refine ⟨?_, ?_, leads_next (p := fun t => t.rawLen.val == 16) (by decide +kernel),
    leads_next (p := fun t => t.rawLen.val == 0) (by decide +kernel), leads_next (p := fun t => t.err == 0) (by decide +kernel)⟩
  · obtain ⟨t, h, _⟩ := leads_next (p := fun _ => true)
      (show leads (exec (.send 0 0x22 2 0x0010) { start with answers := oks7.map .ok ++ [.ok p1Head] }) _ = true by decide +kernel)
    exact ⟨t, h, Nat.le_refl 8⟩
  · obtain ⟨t, h, _⟩ := leads_next (p := fun _ => true)
      (show leads (exec .fetch { loaded p1Raw 8 with answers := [.ok zero8, .err] }) _ = true by decide +kernel)
    exact ⟨t, h, .inl (by decide)⟩
theorem witness_EncodeBuildsFrame : (0 : Byte).toNat ≤ 2 ∧ (2 : Byte).toNat ≤ 2 := by decide
theorem witness_LongPayloadRefused : 2 < (3 : Byte).toNat ∧ 2 < (255 : Byte).toNat := by decide
/-- A status of 0 and another. -/
theorem witness_SendCompletes :
    ((2 : Byte).toNat ≤ 2 ∧ ({ start with answers := oks7.map .ok ++ [.ok p1Head, .err] } : State).answersSend oks7 p1Head [.err] ∧
      p1Head[2] = 0) ∧
    ((0 : Byte).toNat ≤ 2 ∧ ({ start with answers := oks7.map .ok ++ [.ok #v[0, 0, 0x13, 0, 0, 0, 0, 0]] } : State).answersSend oks7
      #v[0, 0, 0x13, 0, 0, 0, 0, 0] [] ∧ (#v[0, 0, 0x13, 0, 0, 0, 0, 0] : Vector Byte 8)[2] ≠ 0) :=
  ⟨⟨by decide, ⟨rfl, rfl⟩, rfl⟩, by decide, ⟨rfl, rfl⟩, by decide⟩
/-- Call 1 and call 8. -/
theorem witness_SendStopsAtTransportError :
    ((2 : Byte).toNat ≤ 2 ∧ ([] : List (Vector Byte 8)).length ≤ 7 ∧ ({ start with answers := [.err] } : State).answers = [].map .ok ++ .err :: []) ∧
    (oks7.length ≤ 7 ∧ ({ start with answers := oks7.map .ok ++ [.err] } : State).answers = oks7.map .ok ++ .err :: []) :=
  ⟨⟨by decide, by decide, rfl⟩, by decide, rfl⟩
theorem witness_SendWaitsAtItsStep :
    ((2 : Byte).toNat ≤ 2 ∧ ([] : List (Vector Byte 8)).length ≤ 7 ∧ start.answers = ([] : List (Vector Byte 8)).map .ok) ∧
    (oks7.length ≤ 7 ∧ ({ start with answers := oks7.map .ok } : State).answers = oks7.map .ok) := ⟨⟨by decide, by decide, rfl⟩, by decide, rfl⟩
/-- No read (`L = 0`) and ten reads (P1). -/
theorem witness_FetchCompletes :
    (8 ≤ (loaded [] 8).rawLen.val ∧ ([] : List (Vector Byte 8)).length = fetchReads (be16 (loaded [] 8).raw 3) ∧
      (loaded [] 8).answers = ([] : List (Vector Byte 8)).map .ok ++ []) ∧
    (8 ≤ (loaded p1Raw 8).rawLen.val ∧ p1Chunks.length = fetchReads (be16 (loaded p1Raw 8).raw 3) ∧
      ({ loaded p1Raw 8 with answers := p1Chunks.map .ok } : State).answers = p1Chunks.map .ok ++ []) :=
  ⟨⟨by decide, by decide, rfl⟩, by decide +kernel, by decide +kernel, by decide +kernel⟩
theorem witness_FetchErrors :
    start.rawLen.val < 8 ∧ (loaded [] 7).rawLen.val < 8 ∧
    (8 ≤ (loaded p1Raw 8).rawLen.val ∧ ([zero8] : List (Vector Byte 8)).length < fetchReads (be16 (loaded p1Raw 8).raw 3) ∧
      ({ loaded p1Raw 8 with answers := [.ok zero8, .err] } : State).answers = [zero8].map .ok ++ .err :: []) :=
  ⟨by decide, by decide, by decide +kernel, by decide +kernel, rfl⟩

/-- The block tests are decidable. -/
def fits (cfg : Config) (m : Memory) (limit b : Nat) : Bool :=
  let e := declared m b
  decide (blockStart m b + subhdrBytes ≤ limit) && (typeOfTag e.tag).isSome &&
  [SensorType.freq, .temp, .powr, .caps].all fun T =>
    decide (typeOfTag e.tag = some T → e.nonEmpty = true →
      e.count.toNat ≤ cfg.maxRec.get T ∧ blockStart m (b + 1) ≤ limit ∧
        ∀ s, s < e.count.toNat → blockStart m b + subhdrBytes + s * e.rl.toNat + recSize T ≤ limit)

theorem fits_blockFits {cfg : Config} {m : Memory} {limit b : Nat} (h : fits cfg m limit b = true) : BlockFits cfg m limit b := by
  simp only [fits, Bool.and_eq_true, decide_eq_true_eq, List.all_eq_true] at h
  obtain ⟨⟨h1, h2⟩, h3⟩ := h
  have h4 : ∀ T, typeOfTag (declared m b).tag = some T → (declared m b).nonEmpty = true →
      (declared m b).count.toNat ≤ cfg.maxRec.get T ∧ blockStart m (b + 1) ≤ limit ∧
        ∀ s, s < (declared m b).count.toNat → blockStart m b + subhdrBytes + s * (declared m b).rl.toNat + recSize T ≤ limit :=
    fun T => h3 T (by cases T <;> simp)
  obtain ⟨T, hT⟩ := Option.isSome_iff_exists.mp h2
  exact { subHeader := h1, known := by simp [hT], capacity := fun U hU hn => (h4 U hU hn).1,
          extent := fun hn => (h4 T hT hn).2.1, records := fun U hU hn => (h4 U hU hn).2.2 }

theorem p1_header {n : Nat} (h : n = 88 := by rfl) : HeaderAccepted p1Raw n := by
  subst h
  exact ⟨by decide +kernel, by decide +kernel, by decide +kernel⟩

theorem p1_accepted : Accepted (Config.default bus) p1Raw 88 where
  header := p1_header
  table := by decide +kernel
  blocks := fun b hb => by
    have h2 : b < 2 := lt_of_lt_of_eq hb (by decide +kernel)
    have : b = 0 ∨ b = 1 := by omega
    rcases this with rfl | rfl <;> exact fits_blockFits (by decide +kernel)

theorem witness_ParseRecoversResponse :
    (loaded p1Raw 88).dec.Consistent (loaded p1Raw 88).cfg ∧ Accepted (loaded p1Raw 88).cfg (loaded p1Raw 88).raw (loaded p1Raw 88).rawLen.val := by
  have h : (loaded p1Raw 88).rawLen.val = 88 := by decide
  rw [h, loaded_cfg, loaded_raw]
  exact ⟨start_consistent, p1_accepted⟩

/-- The five clauses of ParseRejectsBeforeCommit, at `limit` 42, 43, 43, 44 and 44 (vector P16). -/
theorem witness_ParseRejectsBeforeCommit :
    let limit := fun s : State => min s.rawLen.val (5 + (be16 s.raw 3).toNat)
    let eye := fun s : State => (List.range 6).map (fun k => s.raw.read (37 + k)) = [0x53, 0x45, 0x4E, 0x53, 0x4F, 0x52]
    limit (loaded (p1With [(4, 0x25)]) 88) = 42 ∧
    (limit (loaded (p1With [(4, 0x26), (42, 0)]) 88) = 43 ∧ ¬ eye (loaded (p1With [(4, 0x26), (42, 0)]) 88)) ∧
    (limit (loaded (p1With [(4, 0x26)]) 88) = 43 ∧ eye (loaded (p1With [(4, 0x26)]) 88)) ∧
    (limit (loaded (p1With [(4, 0x27), (43, 0)]) 88) = 44 ∧ eye (loaded (p1With [(4, 0x27), (43, 0)]) 88) ∧
      (p1With [(4, 0x27), (43, 0)]).read 43 = 0) ∧
    (limit (loaded (p1With [(4, 0x27)]) 88) = 44 ∧ eye (loaded (p1With [(4, 0x27)]) 88) ∧ (p1With [(4, 0x27)]).read 43 ≠ 0) := by
  decide +kernel

/-- The clauses of ParseFailsAtFirstBadBlock: too many blocks for the table; no room for a sub-header; an unknown tag; too many records;
a block that passes `limit` by one byte; a record that does. -/
theorem witness_ParseFailsAtFirstBadBlock :
    let limit := fun m : Memory => min 88 (5 + (be16 m 3).toNat)
    let three := p1With [(43, 3)]
    let volt := p1With [(65, 0x56)]
    let short := p1With [(4, 0x4F)]
    let narrow := p1With [(4, 0x34), (51, 2), (52, 2)]
    (HeaderAccepted p1Raw 88 ∧ start.dec.Consistent start.cfg ∧ 1 < (p1Raw.read 43).toNat) ∧
    (HeaderAccepted three 88 ∧ (∀ j, j < 2 → fits start.cfg three (limit three) j = true) ∧ 2 < (three.read 43).toNat ∧
      limit three < blockStart three 2 + 8) ∧
    (HeaderAccepted volt 88 ∧ (∀ j, j < 1 → fits start.cfg volt (limit volt) j = true) ∧ 1 < (volt.read 43).toNat ∧
      blockStart volt 1 + 8 ≤ limit volt ∧ typeOfTag (declared volt 1).tag = none) ∧
    ((p1Raw.read 43).toNat ≤ 255 ∧ blockStart p1Raw 0 + 8 ≤ limit p1Raw ∧ (declared p1Raw 0).tag = SensorType.tag .temp ∧
      (declared p1Raw 0).nonEmpty = true ∧ 2 < (declared p1Raw 0).count.toNat) ∧
    (HeaderAccepted short 88 ∧ (∀ j, j < 1 → fits start.cfg short (limit short) j = true) ∧ 1 < (short.read 43).toNat ∧
      blockStart short 1 + 8 ≤ limit short ∧ (declared short 1).tag = SensorType.tag .powr ∧ (declared short 1).nonEmpty = true ∧
      (declared short 1).count.toNat ≤ 11 ∧ limit short < blockStart short 1 + 8 + 12 * 1) ∧
    (HeaderAccepted narrow 88 ∧ 0 < (narrow.read 43).toNat ∧ blockStart narrow 0 + 8 ≤ limit narrow ∧
      (declared narrow 0).tag = SensorType.tag .temp ∧ (declared narrow 0).nonEmpty = true ∧ (declared narrow 0).count.toNat ≤ 22 ∧
      ¬ limit narrow < blockStart narrow 0 + 8 + 2 * 2 ∧ limit narrow < blockStart narrow 0 + 8 + 1 * 2 + recSize .temp) := by
  have hd : ∀ m : Memory, (decide (45 ≤ parseLimit 88 (be16 m offLen)) && magicPresent m && decide (m.read offNblk ≠ 0)) = true →
      HeaderAccepted m 88 := fun m h => by
    simp only [Bool.and_eq_true, decide_eq_true_eq] at h
    exact ⟨h.1.1, h.1.2, h.2⟩
  refine ⟨⟨p1_header, start_consistent, by decide +kernel⟩, ⟨hd _ (by decide +kernel), by decide +kernel, by decide +kernel, by decide +kernel⟩,
    ⟨hd _ (by decide +kernel), by decide +kernel, by decide +kernel, by decide +kernel, by decide +kernel⟩, by decide +kernel,
    ⟨hd _ (by decide +kernel), by decide +kernel, by decide +kernel, by decide +kernel, by decide +kernel, by decide +kernel,
      by decide +kernel, by decide +kernel⟩, ⟨hd _ (by decide +kernel), by decide +kernel⟩⟩

theorem witness_ParseIgnoresOldResponse :
    (loaded p1Raw 88).dec.Consistent (loaded p1Raw 88).cfg ∧
    ({ polled with raw := p1Raw, rawLen := RawLen.ofNat 88 } : State).dec.Consistent polled.cfg ∧ start.cfg = polled.cfg ∧
    (∃ t, exec .parse (loaded p1Raw 88) = .next t ∧ (t.err == 0) = true) ∧
    ∃ t, exec .parse { polled with raw := p1Raw, rawLen := RawLen.ofNat 88 } = .next t ∧ (t.err == 0) = true :=
  ⟨start_consistent, polled_consistent, rfl, leads_next (p := fun t => t.err == 0) (by decide +kernel),
    leads_next (p := fun t => t.err == 0) (by decide +kernel)⟩
/-- Two buffers that agree below `raw_len` and differ at it. -/
theorem witness_ParseReadsOnlyReceivedBytes :
    (∀ a, a < (loaded p1Raw 88).rawLen.val → (p1With [(88, 0xAA)]).read a = (loaded p1Raw 88).raw.read a) ∧
    ∃ t, exec .parse (loaded p1Raw 88) = .next t ∧ (t.err == 0) = true :=
  ⟨by decide +kernel, leads_next (p := fun t => t.err == 0) (by decide +kernel)⟩
theorem witness_ParseDocumentScenario :
    let s := loaded p1Raw 85
    s.dec.Consistent s.cfg ∧ 2 ≤ s.cfg.maxBlocks ∧ 3 ≤ s.cfg.maxRec.temp ∧ 1 ≤ s.cfg.maxRec.powr ∧ 85 ≤ s.rawLen.val ∧
    be16 s.raw 3 = 80 ∧ s.raw.read 43 = 2 ∧
    (List.range 6).map (fun k => s.raw.read (37 + k)) = [0x53, 0x45, 0x4E, 0x53, 0x4F, 0x52] ∧
    (List.range 40).map (fun k => s.raw.read (45 + k)) =
      [0x54, 0x45, 0x4D, 0x50, 0x00, 0x01, 0x04, 0x03, 0x00, 0x01, 0x00, 0xFA, 0x00, 0x02, 0x01, 0x2C, 0x00, 0x03, 0x01, 0x13,
       0x50, 0x4F, 0x57, 0x52, 0x00, 0x01, 0x0C, 0x01, 0x00, 0x0A, 0x00, 0x00, 0x00, 0x05, 0x00, 0x00, 0x03, 0xE8, 0x00, 0x2A] ∧
    ∃ t, exec .parse { s with cache := polled.cache, now := 100 } = .next t ∧ fresh t.cfg t.cache t.now = true := by
  obtain ⟨t, h, hp⟩ := leads_next (p := fun t => fresh t.cfg t.cache t.now)
    (show leads (exec .parse { loaded p1Raw 85 with cache := polled.cache, now := 100 }) _ = true by decide +kernel)
  exact ⟨start_consistent, by decide, by decide, by decide, by decide, by decide +kernel, by decide +kernel, by decide +kernel,
    by decide +kernel, t, h, hp⟩
/-- FETCH at `L` = 1 and 2, and at the last length with 510 reads and the first with 511. -/
theorem witness_FetchLengthLaw :
    (be16 (Memory.writeBytes [] 3 [0, 1]) 3).toNat = 1 ∧ leads (exec .fetch (loaded (Memory.writeBytes [] 3 [0, 1]) 8)) (fun t => isOver t && t.err == 0 && t.calls.length == 0) = true ∧
    (be16 (Memory.writeBytes [] 3 [0, 2]) 3).toNat = 2 ∧ leads (exec .fetch { loaded (Memory.writeBytes [] 3 [0, 2]) 8 with answers := [.ok zero8] })
      (fun t => isOver t && t.err == 0 && t.calls.length == 1) = true ∧
    (be16 (Memory.writeBytes [] 3 [0x0F, 0xF1]) 3).toNat = 4081 ∧ fetchReads 0x0FF1 = 510 ∧
    (be16 (Memory.writeBytes [] 3 [0x0F, 0xF2]) 3).toNat = 4082 ∧ fetchReads 0x0FF2 = 511 := by decide +kernel
/-- The four clauses of RenewCases on the store of TEMP with 3 records: a count of 0 and a length of 0, the same count, 23, and 22. -/
theorem witness_RenewCases :
    let d := polled.dec
    let maxRec := polled.cfg.maxRec
    ((0 : Byte) = 0 ∨ (4 : Byte) = 0) ∧ ((7 : Byte) = 0 ∨ (0 : Byte) = 0) ∧ d.recCount .temp = (3 : Byte).toNat ∧
    (d.recCount .temp ≠ (23 : Byte).toNat ∧ maxRec.get .temp < (23 : Byte).toNat) ∧
    (d.recCount .temp ≠ (22 : Byte).toNat ∧ (22 : Byte).toNat ≤ maxRec.get .temp) := by decide
theorem witness_GetHitsOrRefreshes :
    fresh polled.cfg polled.cache polled.now = true ∧
    (fresh start.cfg start.cache start.now = false ∧
      ∃ u, exec .refresh { start with answers := [.err] } = .next u ∧ u.finished) := by
  refine ⟨by decide, by decide, ?_⟩
  obtain ⟨u, h, hp⟩ := leads_next (p := isOver) (show leads (exec .refresh { start with answers := [.err] }) _ = true by decide +kernel)
  exact ⟨u, h, isOver_finished hp⟩

/-- The SEND of the poll command. -/
def pollSendOp : Instr := .send bus.pollSeq bus.pollType (BitVec.ofNat 8 bus.pollLen.val) ((0 : Half) ++ bus.pollPayload)

/-- A chain of SEND, FETCH, PARSE in which each ends with the given ERR; a list of fewer words stops earlier. -/
def chain (s : State) (e1 : Word) (rest : State → Bool) : Bool := leads (exec pollSendOp s) fun u => isOver u && u.err == e1 && rest u

/-- The four outcomes of RefreshIsSendFetchParse: the SEND fails, the FETCH fails, the PARSE fails, all succeed. -/
theorem witness_RefreshIsSendFetchParse :
    chain { start with answers := [.err] } 0x00000102 (fun _ => true) = true ∧
    chain { start with answers := oks7.map .ok ++ [.ok p1Head, .err] } 0
      (fun u => leads (exec .fetch u) fun v => isOver v && v.err == 0x00000902) = true ∧
    chain { start with answers := oks7.map .ok ++ [.ok zero8] } 0
      (fun u => leads (exec .fetch u) fun v => isOver v && v.err == 0 && leads (exec .parse v) fun w => w.err == 0x0000FF07) = true ∧
    chain { start with answers := oks7.map .ok ++ p1Rows.map .ok } 0
      (fun u => leads (exec .fetch u) fun v => isOver v && v.err == 0 && leads (exec .parse v) fun w => w.err == 0) = true := by
  decide +kernel

theorem witness_RefreshCompletes :
    let s : State := { start with answers := oks7.map .ok ++ p1Rows.map .ok }
    s.dec.Consistent s.cfg ∧ s.answersPoll oks7 p1Head p1Chunks [] ∧
      Accepted s.cfg (s.polled p1Head p1Chunks []).raw (s.polled p1Head p1Chunks []).rawLen.val := by
  refine ⟨start_consistent, ⟨⟨rfl, rfl⟩, rfl, rfl⟩, ?_⟩
  have hr : (({ start with answers := oks7.map .ok ++ p1Rows.map .ok } : State).polled p1Head p1Chunks []).raw = p1Raw := by decide +kernel
  have hl : (({ start with answers := oks7.map .ok ++ p1Rows.map .ok } : State).polled p1Head p1Chunks []).rawLen.val = 88 := by
    decide +kernel
  rw [hr, hl]
  exact p1_accepted
/-- Call 1 and call 8, a status, and the last read. -/
theorem witness_PollFailureEmptiesResponse :
    (([] : List (Vector Byte 8)).length ≤ 7 ∧ ({ start with answers := [.err] } : State).answers = [].map .ok ++ .err :: []) ∧
    (oks7.length ≤ 7 ∧ ({ start with answers := oks7.map .ok ++ [.err] } : State).answers = oks7.map .ok ++ .err :: []) ∧
    (({ start with answers := oks7.map .ok ++ [.ok #v[0, 0, 1, 0, 0, 0, 0, 0]] } : State).answersSend oks7 #v[0, 0, 1, 0, 0, 0, 0, 0] [] ∧
      (#v[0, 0, 1, 0, 0, 0, 0, 0] : Vector Byte 8)[2] ≠ 0) ∧
    (({ start with answers := oks7.map .ok ++ .ok p1Head :: ((p1Chunks.take 9).map .ok ++ [.err]) } : State).answersSend oks7 p1Head
        ((p1Chunks.take 9).map .ok ++ .err :: []) ∧ p1Head[2] = 0 ∧ (p1Chunks.take 9).length < fetchReads (p1Head[3] ++ p1Head[4])) :=
  ⟨⟨by decide, rfl⟩, ⟨by decide, rfl⟩, ⟨⟨rfl, rfl⟩, by decide⟩, ⟨rfl, rfl⟩, by decide, by decide⟩
/-- PARSE of a bad buffer with a valid cache, and a GET that polls. -/
theorem witness_ValidFlagWriters :
    (∃ t, exec .parse { polled with raw := [], rawLen := 0 } = .next t ∧ (!t.cache.valid) = true) ∧
    ∃ t, exec .get { start with now := 7, answers := oks7.map .ok ++ p1Rows.map .ok } = .next t ∧
      (t.cache.valid && t.cache.lastUpdated == 7) = true :=
  ⟨leads_next (p := fun t => !t.cache.valid) (by decide +kernel),
   leads_next (p := fun t => t.cache.valid && t.cache.lastUpdated == 7) (by decide +kernel)⟩
theorem witness_TemperatureAndFrequencyReads :
    (fresh polled.cfg polled.cache polled.now = true ∧ polled.dec.idx.temp ≠ none ∧ polled.dec.temp[(2 : Half).toNat]? = some ⟨3, 275⟩) ∧
    (fresh polled2.cfg polled2.cache polled2.now = true ∧ polled2.dec.idx.freq ≠ none ∧
      polled2.dec.freq[(0 : Half).toNat]? = some ⟨5, 3200⟩) := by decide
theorem witness_PowerReads :
    fresh polled.cfg polled.cache polled.now = true ∧ polled.dec.idx.powr ≠ none ∧
      polled.dec.powr[(0 : Half).toNat]? = some ⟨10, 5, 1000, 42⟩ := by decide
theorem witness_CappingReads :
    (fresh polled2.cfg polled2.cache polled2.now = true ∧ polled2.dec.idx.caps ≠ none ∧
      polled2.dec.caps[0]? = some ⟨1200, 950, 1500, 1800, 600, 1300⟩) ∧ 5 < (6 : Half).toNat := by decide
/-- No block of the type; a record at the count. -/
theorem witness_MissingSensorIsUnavailable :
    (readOf (.rdFreq 0) = some (.freqValue, 0) ∧ fresh polled.cfg polled.cache polled.now = true ∧
      polled.dec.idx.get ReadField.freqValue.sensor = none) ∧
    (readOf (.rdTempId 3) = some (.tempId, 3) ∧ polled.dec.recCount ReadField.tempId.sensor ≤ 3) := by decide
/-- A hit with and without the record; a poll that fails; one after which record 2 is there and record 3 is not. -/
theorem witness_ReadRunsGetThenLooksUp :
    readOf (.rdTemp 2) = some (.tempValue, 2) ∧
    (fresh polled.cfg polled.cache polled.now = true ∧ polled.dec.lookup .tempValue 2 = some 275000 ∧
      polled.dec.lookup .tempValue 3 = none) ∧
    fresh start.cfg start.cache start.now = false ∧
    leads (exec .refresh { start with answers := [.err] }) (fun u => isOver u && u.err != 0) = true ∧
    leads (exec .refresh { start with answers := oks7.map .ok ++ p1Rows.map .ok }) (fun u =>
      isOver u && u.err == 0 && u.dec.lookup .tempValue 2 == some 275000 && u.dec.lookup .tempValue 3 == none) = true := by
  decide +kernel
theorem witness_RdBlkReturnsEntry :
    polled.dec.blocks[(1 : Half).toNat]? = some ⟨0x504F5752, 1, 12, 1⟩ ∧ polled.dec.nblocks ≤ (2 : Half).toNat := by decide
theorem witness_RdHdrReturnsByte : (39 : Half).toNat < 40 ∧ 39 < (40 : Half).toNat := by decide
theorem witness_InspectionOnlyWritesResult : Instr.rdHdr 3 ∈ [Instr.rdBlk 3, Instr.rdHdr 3, Instr.csrr 7] := by decide
theorem witness_SetPowercapCompletes :
    ({ start with answers := oks7.map .ok ++ [.ok zero8] } : State).answersSend oks7 zero8 [] ∧ zero8[2] = 0 := ⟨⟨rfl, rfl⟩, rfl⟩
theorem witness_SetPowercapFailureKeepsRegister :
    (({ polled with answers := oks7.map .ok ++ [.ok #v[0, 0, 0x13, 0, 0, 0, 0, 0]] } : State).answersSend oks7
      #v[0, 0, 0x13, 0, 0, 0, 0, 0] [] ∧ (#v[0, 0, 0x13, 0, 0, 0, 0, 0] : Vector Byte 8)[2] ≠ 0) ∧
    (oks7.length ≤ 7 ∧ ({ polled with answers := oks7.map .ok ++ [.err] } : State).answers = oks7.map .ok ++ .err :: []) :=
  ⟨⟨⟨rfl, rfl⟩, by decide⟩, by decide, rfl⟩
/-- The step that writes it, the step that begins the operation, and the operation as a whole. -/
theorem witness_UserPowercapHasOneWriter :
    leads (step { sendingState with activity := .sending (.powercap 300), seqStep := 8, rawLen := 8 }) (fun t => t.userPowercap == 300) = true ∧
    leads (step { taken start 0x2000012C 0 with answers := [.ok zero8] }) (fun t => t.activity == .sending (.powercap 300)) = true ∧
    leads (exec (.setPowercap 300) { start with answers := oks7.map .ok ++ [.ok zero8] }) (fun t => t.userPowercap != start.userPowercap) = true := by
  decide +kernel
theorem witness_CsrrReadsRegisters : 11 < (12 : Byte).toNat ∧ 11 < (255 : Byte).toNat := by decide
theorem witness_CsrwIntervalAndRefusals : 1 < (2 : Byte).toNat ∧ 1 < (255 : Byte).toNat := by decide
/-- Bit 0 clear with other bits set; bit 0 set and a refresh that ends, with success and with an error. -/
theorem witness_CsrwOnline :
    (0xFFFFFFFE : Word).getLsbD 0 = false ∧ (1 : Word).getLsbD 0 = true ∧
    leads (exec .refresh { start with answers := [.err] }) (fun u => isOver u && u.err != 0) = true ∧
    leads (exec .refresh { start with answers := oks7.map .ok ++ p1Rows.map .ok }) (fun u => isOver u && u.err == 0) = true := by
  decide +kernel
/-- A CSRW of the interval, whose number is next to ONLINE. -/
theorem witness_OnlineGatesNothing :
    Instr.csrw 0 5 ≠ .csrr 1 ∧ (∀ imm, Instr.csrw 0 5 ≠ .csrw 1 imm) ∧ ∃ t, exec (.csrw 0 5) polled = .next t :=
  ⟨by decide, fun imm h => by injection h with h1; exact absurd h1 (by decide), _, rfl⟩
/-- A ProtocolError with the invalid-value status, and a read with UNAVAIL. -/
theorem witness_ErrWordLayout :
    leads (exec (.setPowercap 1) { start with answers := oks7.map .ok ++ [.ok #v[0, 0, 0x13, 0, 0, 0, 0, 0]] })
      (fun t => isOver t && t.err.getLsbD 17) = true ∧
    leads (exec (.rdFreq 0) polled) (fun t => isOver t && t.err.getLsbD 16) = true := by decide +kernel
theorem witness_SnapshotFrame :
    ∃ t, exec (.send 0 0x22 3 0) polled = .next t ∧ (t.err == 0x00000301) = true :=
  leads_next (p := fun t => t.err == 0x00000301) (by decide +kernel)

end Sys2Proof.Tests
end

section
/-! SUPPORT. What one step does to the interface (00_scope.md R9): an operation that goes on is over, its result published, or it stands
at its next call with BUSY, RES and ERR as they were; and only an answer lets a call be issued. -/

namespace Sys2Proof.Machine

/-! ### A procedure does not publish -/

/-- BUSY, RES and ERR, which the host reads (R21), are the same in both states. -/
structure State.SameResult (s t : State) : Prop where
  busy : t.busy = s.busy
  res : t.res = s.res
  err : t.err = s.err

theorem State.SameResult.refl (s : State) : s.SameResult s := ⟨rfl, rfl, rfl⟩

theorem State.SameResult.sendBegin {s t : State} (h : s.SameResult t) (o : SendOwner) (seq ctype : Byte) (len : Fin 3) (p0 p1 : Byte) :
    s.SameResult (sendBegin o seq ctype len p0 p1 t) := ⟨h.busy, h.res, h.err⟩

theorem State.SameResult.fetchBegin {s t : State} (h : s.SameResult t) (o : FetchOwner) : s.SameResult (fetchBegin o t) :=
  ⟨h.busy, h.res, h.err⟩

theorem State.SameResult.pollFailed {s t : State} (h : s.SameResult t) : s.SameResult t.pollFailed := ⟨h.busy, h.res, h.err⟩

/-- A SEND or a FETCH stands at its next call, and no answer is at hand for it. -/
structure State.AwaitsAnswer (t : State) : Prop where
  silent : t.answers = []
  due : (∃ o, t.activity = .sending o) ∨ ∃ o, t.activity = .fetching o

/-- The procedure publishes nothing, and where it waits it stands at a call. -/
def Proc.Unpublished (s : State) : Proc → Prop
  | .done t => s.SameResult t
  | .raised _ t => s.SameResult t
  | .waiting t => s.SameResult t ∧ t.AwaitsAnswer
  | .halted _ => True

theorem Proc.Unpublished.andThen {s : State} {p : Proc} {k : State → Proc} (h : p.Unpublished s)
    (hk : ∀ t, s.SameResult t → (k t).Unpublished s) : (p.andThen k).Unpublished s := by
  cases p with
  | done t => exact hk t h
  | raised e t => exact h
  | waiting t => exact h
  | halted f => exact h

theorem Proc.Unpublished.onRaise {s : State} {p : Proc} {g : State → State} (h : p.Unpublished s)
    (hg : ∀ t, s.SameResult t → s.SameResult (g t)) : (p.onRaise g).Unpublished s := by
  cases p with
  | done t => exact h
  | raised e t => exact hg t h
  | waiting t => exact h
  | halted f => exact h

theorem sendStatus_unpublished {s t : State} (h : s.SameResult t) : (sendStatus t).Unpublished s := by
  unfold sendStatus
  simp only
  split
  · exact ⟨h.busy, h.res, h.err⟩
  · exact ⟨h.busy, h.res, h.err⟩

theorem runWrites_unpublished (cs : List Call) {s t : State} {o : SendOwner} (h : s.SameResult t) (ha : t.activity = .sending o) :
    (runWrites cs t).Unpublished s := by
  induction cs generalizing t with
  | nil => exact h
  | cons c cs ih =>
    unfold runWrites
    split
    · rename_i hs
      exact ⟨h, hs, .inl ⟨o, ha⟩⟩
    · exact ⟨h.busy, h.res, h.err⟩
    · exact ih ⟨h.busy, h.res, h.err⟩ ha

theorem runWrites_activity (cs : List Call) {s t : State} (h : runWrites cs s = .done t) : t.activity = s.activity := by
  induction cs generalizing s with
  | nil => cases h; rfl
  | cons c cs ih =>
    unfold runWrites at h
    split at h
    · cases h
    · cases h
    · exact (ih h).trans rfl

theorem sendTail_unpublished {s t : State} {o : SendOwner} (h : s.SameResult t) (ha : t.activity = .sending o) :
    (sendTail t).Unpublished s := by
  unfold sendTail
  split
  · unfold sendRead
    split
    · rename_i hs
      exact ⟨h, hs, .inl ⟨o, ha⟩⟩
    · exact ⟨h.busy, h.res, h.err⟩
    · exact sendStatus_unpublished ⟨h.busy, h.res, h.err⟩
  · exact sendStatus_unpublished h

theorem sendRun_unpublished {s t : State} {o : SendOwner} (h : s.SameResult t) (ha : t.activity = .sending o) :
    (sendRun t).Unpublished s := by
  have hw := runWrites_unpublished ((sendWrites t.cfg.bus t.work.w1 t.work.w2).drop t.seqStep) h ha
  unfold sendRun
  cases hp : runWrites ((sendWrites t.cfg.bus t.work.w1 t.work.w2).drop t.seqStep) t with
  | done u =>
    rw [hp] at hw
    exact sendTail_unpublished hw ((runWrites_activity _ hp).trans ha)
  | raised e u =>
    rw [hp] at hw
    exact hw
  | waiting u =>
    rw [hp] at hw
    exact hw
  | halted f => exact True.intro

theorem fetchLoop_unpublished (n : Nat) {s t : State} {o : FetchOwner} (h : s.SameResult t) (ha : t.activity = .fetching o) :
    (fetchLoop n t).Unpublished s := by
  induction n generalizing t with
  | zero => exact h
  | succ n ih =>
    unfold fetchLoop
    split
    · split
      · rename_i hs
        exact ⟨h, hs, .inr ⟨o, ha⟩⟩
      · exact ⟨h.busy, h.res, h.err⟩
      · split
        · exact ih ⟨h.busy, h.res, h.err⟩ ha
        · exact True.intro
    · exact h

theorem fetchRun_unpublished {s t : State} {o : FetchOwner} (h : s.SameResult t) (ha : t.activity = .fetching o) :
    (fetchRun t).Unpublished s := fetchLoop_unpublished _ h ha

theorem parseProc_unpublished {s t : State} (h : s.SameResult t) : (parseProc t).Unpublished s := by
  unfold parseProc
  split
  · exact ⟨h.busy, h.res, h.err⟩
  · exact ⟨h.busy, h.res, h.err⟩

theorem afterFetch_unpublished {s : State} {f : Proc} (h : f.Unpublished s) : (afterFetch f).Unpublished s :=
  (h.onRaise fun _ ht => ht.pollFailed).andThen fun _ ht =>
    (parseProc_unpublished ht).andThen fun _ hu => ⟨hu.busy, hu.res, hu.err⟩

theorem afterSend_unpublished {s : State} (o : PollOwner) {f : Proc} (h : f.Unpublished s) : (afterSend o f).Unpublished s :=
  (h.onRaise fun _ ht => ht.pollFailed).andThen fun _ ht =>
    afterFetch_unpublished (fetchRun_unpublished (ht.fetchBegin (.poll o)) rfl)

/-! ### An operation ends, or waits at a call -/

/-- The operation that began in `s` is over in `t`, or it stands there at its next call and has published nothing. -/
def State.EndsOrWaits (s t : State) : Prop := t.finished ∨ s.SameResult t ∧ t.AwaitsAnswer

theorem raise_finished {s t : State} {e : Err} {lo : Word} {u : Bool} (h : raise s e lo u = .next t) : t.finished := by
  cases h
  exact ⟨rfl, rfl⟩

theorem succeed_finished {s t : State} {hi lo : Word} (h : succeed s hi lo = .next t) : t.finished := by
  cases h
  exact ⟨rfl, rfl⟩

theorem readEnd_finished {f : ReadField} {i : Nat} {s t : State} (h : readEnd f i s = .next t) : t.finished := by
  unfold readEnd at h
  split at h
  · exact raise_finished h
  · exact succeed_finished h

theorem Proc.Unpublished.finish {s t : State} {p : Proc} {ok : State → Result} {err : Err → State → Result} (h : p.Unpublished s)
    (hok : ∀ u, ok u = .next t → t.finished) (herr : ∀ e u, err e u = .next t → t.finished) (hf : p.finish ok err = .next t) :
    s.EndsOrWaits t := by
  cases p with
  | done u => exact .inl (hok u hf)
  | raised e u => exact .inl (herr e u hf)
  | waiting u => cases hf; exact .inr h
  | halted f => cases hf

theorem endSend_endsOrWaits {s t : State} {p : Proc} (h : p.Unpublished s) (hr : endSend p = .next t) : s.EndsOrWaits t :=
  h.finish (fun _ => succeed_finished) (fun _ _ => raise_finished) hr

theorem endFetch_endsOrWaits {s t : State} {p : Proc} (h : p.Unpublished s) (hr : endFetch p = .next t) : s.EndsOrWaits t :=
  h.finish (fun _ => succeed_finished) (fun _ _ => raise_finished) hr

theorem endPowercap_endsOrWaits {v : Half} {s t : State} {p : Proc} (h : p.Unpublished s) (hr : endPowercap v p = .next t) :
    s.EndsOrWaits t :=
  h.finish (fun _ => succeed_finished) (fun _ _ => raise_finished) hr

theorem endPoll_endsOrWaits {o : PollOwner} {s t : State} {p : Proc} (h : p.Unpublished s) (hr : endPoll o p = .next t) :
    s.EndsOrWaits t := by
  cases o with
  | refresh => exact h.finish (fun _ => succeed_finished) (fun _ _ => raise_finished) hr
  | get => exact h.finish (fun _ => succeed_finished) (fun _ _ => raise_finished) hr
  | online => exact h.finish (fun _ => succeed_finished) (fun _ _ => raise_finished) hr
  | read f i => exact h.finish (fun _ => readEnd_finished) (fun _ _ => raise_finished) hr

theorem closeSend_endsOrWaits {o : SendOwner} {s t : State} {f : Proc} (h : f.Unpublished s) (hr : closeSend o f = .next t) :
    s.EndsOrWaits t := by
  cases o with
  | host => exact endSend_endsOrWaits h hr
  | powercap v => exact endPowercap_endsOrWaits h hr
  | poll p => exact endPoll_endsOrWaits (afterSend_unpublished p h) hr

theorem closeFetch_endsOrWaits {o : FetchOwner} {s t : State} {f : Proc} (h : f.Unpublished s) (hr : closeFetch o f = .next t) :
    s.EndsOrWaits t := by
  cases o with
  | host => exact endFetch_endsOrWaits h hr
  | poll p => exact endPoll_endsOrWaits (afterFetch_unpublished h) hr

/-- A SEND from its first call, whatever operation it belongs to. -/
theorem sendRun_sendBegin_unpublished (o : SendOwner) (seq ctype : Byte) (len : Fin 3) (p0 p1 : Byte) (s : State) :
    (sendRun (sendBegin o seq ctype len p0 p1 s)).Unpublished s :=
  sendRun_unpublished ((State.SameResult.refl s).sendBegin o seq ctype len p0 p1) rfl

theorem runPoll_endsOrWaits {o : PollOwner} {s t : State} (hr : runPoll o s = .next t) : s.EndsOrWaits t :=
  endPoll_endsOrWaits (afterSend_unpublished o (sendRun_sendBegin_unpublished _ _ _ _ _ _ s)) hr

theorem consumerRead_endsOrWaits {f : ReadField} {i : Nat} {s t : State} (hr : consumerRead f i s = .next t) : s.EndsOrWaits t := by
  unfold consumerRead at hr
  split at hr
  · exact .inl (readEnd_finished hr)
  · exact runPoll_endsOrWaits hr

/-- R23: every operation runs to its completion or to a call without an answer. -/
theorem exec_endsOrWaits {i : Instr} {s t : State} (hr : exec i s = .next t) : s.EndsOrWaits t := by
  cases i with
  | encode seq ctype len imm =>
    simp only [exec, execEncode] at hr
    split at hr
    · exact .inl (raise_finished hr)
    · exact .inl (succeed_finished hr)
  | send seq ctype len imm =>
    simp only [exec, execSend] at hr
    split at hr
    · exact .inl (raise_finished hr)
    · exact endSend_endsOrWaits (sendRun_sendBegin_unpublished _ _ _ _ _ _ s) hr
  | fetch =>
    simp only [exec, execFetch] at hr
    split at hr
    · exact .inl (raise_finished hr)
    · exact endFetch_endsOrWaits (fetchRun_unpublished ((State.SameResult.refl s).fetchBegin .host) rfl) hr
  | parse =>
    exact (parseProc_unpublished (.refl s)).finish (fun _ => succeed_finished) (fun _ _ => raise_finished) hr
  | deinit => exact .inl (succeed_finished hr)
  | refresh => exact runPoll_endsOrWaits (o := .refresh) hr
  | get =>
    simp only [exec, execGet] at hr
    split at hr
    · exact .inl (succeed_finished hr)
    · exact runPoll_endsOrWaits hr
  | rdTemp index | rdTempId index | rdFreq index | rdFreqId index
  | rdPowr index | rdPowrId index | rdPowrTag index | rdPowrAcc index => exact consumerRead_endsOrWaits hr
  | rdCaps index =>
    simp only [exec, execRdCaps] at hr
    split at hr
    · exact .inl (raise_finished hr)
    · exact consumerRead_endsOrWaits hr
  | rdBlk index =>
    simp only [exec, execRdBlk] at hr
    split at hr
    · exact .inl (raise_finished hr)
    · exact .inl (succeed_finished hr)
  | rdHdr index =>
    simp only [exec, execRdHdr] at hr
    split at hr
    · exact .inl (raise_finished hr)
    · exact .inl (succeed_finished hr)
  | setPowercap v => exact endPowercap_endsOrWaits (sendRun_sendBegin_unpublished _ _ _ _ _ _ s) hr
  | csrr csr =>
    simp only [exec, execCsrr] at hr
    split at hr
    · exact .inl (raise_finished hr)
    · exact .inl (succeed_finished hr)
  | csrw csr imm =>
    simp only [exec, execCsrw] at hr
    split at hr
    · exact .inl (succeed_finished hr)
    · unfold writeOnline at hr
      split at hr
      · exact runPoll_endsOrWaits hr
      · exact .inl (succeed_finished hr)
    · exact .inl (raise_finished hr)

/-- The same for an operation in progress, wherever it stands. -/
theorem resume_endsOrWaits {s t : State} (hr : resume s = .next t) : s.EndsOrWaits t := by
  have hs := State.SameResult.refl s
  unfold resume at hr
  split at hr
  next => cases hr
  next =>
    unfold runLatched at hr
    split at hr
    · exact exec_endsOrWaits hr
    · exact .inl (raise_finished hr)
  next o ha => exact closeSend_endsOrWaits (sendRun_unpublished hs ha) hr
  next o _ =>
    have hb : (sendBroken s).Unpublished s := ⟨hs.busy, hs.res, hs.err⟩
    exact closeSend_endsOrWaits hb hr
  next o ha => exact closeFetch_endsOrWaits (fetchRun_unpublished hs ha) hr
  next o _ =>
    have hb : (fetchBroken s).Unpublished s := hs
    exact closeFetch_endsOrWaits hb hr

/-! ### Without an answer no call is issued -/

/-- The calls made are those of `s`, and no answer is at hand. -/
structure State.NoCallSince (s t : State) : Prop where
  silent : t.answers = []
  calls : t.calls = s.calls

/-- A call is recorded only with its answer (log entry 5), so that every update of the meanings but that one leaves the record. -/
theorem noCallSince_closed (s : State) : Closed s.NoCallSince where
  answered := fun t _ _ _ _ h ha => by simp [h.silent] at ha
  head := fun _ _ h => ⟨h.silent, h.calls⟩
  status := fun _ _ h => ⟨h.silent, h.calls⟩
  chunk := fun _ _ h _ => ⟨h.silent, h.calls⟩
  setup := fun _ _ _ _ _ h => ⟨h.silent, h.calls⟩
  parse := parse_all (fun _ _ _ h => ⟨h.silent, h.calls⟩) (fun _ h => ⟨h.silent, h.calls⟩)
  pollParse := pollParse_all (fun _ _ _ h => ⟨h.silent, h.calls⟩) (fun _ h => ⟨h.silent, h.calls⟩)
    (fun _ h => ⟨h.silent, h.calls⟩)
  pollFailed := fun _ h => ⟨h.silent, h.calls⟩
  interval := fun _ _ h => ⟨h.silent, h.calls⟩
  online := fun _ _ h => ⟨h.silent, h.calls⟩
  powercap := fun _ _ h => ⟨h.silent, h.calls⟩
  complete := fun _ _ _ h => ⟨h.silent, h.calls⟩

theorem resume_silent_calls {s t : State} (h : s.answers = []) (hr : resume s = .next t) : t.calls = s.calls :=
  ((noCallSince_closed s).resume ⟨h, rfl⟩ hr).calls

/-! ### One transaction -/

/-- `t` is `s` after one call more, which took its answer and left the answers `rest`; nothing is published. -/
structure State.AfterCall (s : State) (rest : List Answer) (t : State) : Prop where
  call : ∃ c, t.calls = s.calls ++ [c]
  answers : t.answers = rest
  same : s.SameResult t

theorem sendAnswered_afterCall (o : SendOwner) (a : Answer) (rest : List Answer) (s : State) :
    s.AfterCall rest (sendAnswered o a rest s) := by
  unfold sendAnswered
  split
  · exact ⟨⟨_, rfl⟩, rfl, rfl, rfl, rfl⟩
  · split
    · exact ⟨⟨_, rfl⟩, rfl, rfl, rfl, rfl⟩
    · exact ⟨⟨_, rfl⟩, rfl, rfl, rfl, rfl⟩

theorem fetchAnswered_afterCall {o : FetchOwner} {a : Answer} {rest : List Answer} {s t : State}
    (h : fetchAnswered o a rest s = .next t) : s.AfterCall rest t := by
  unfold fetchAnswered at h
  split at h
  · cases h
    exact ⟨⟨_, rfl⟩, rfl, rfl, rfl, rfl⟩
  · split at h
    · cases h
      exact ⟨⟨_, rfl⟩, rfl, rfl, rfl, rfl⟩
    · cases h

/-- Where a call is due, a transaction is that call and takes the first answer. -/
theorem transact_awaiting {as : List Answer} {u t : State} (hu : u.AwaitsAnswer) (h : transact as (.next u) = .next t) :
    ∃ a rest, as = a :: rest ∧ u.AfterCall rest t := by
  obtain ⟨o, ho⟩ | ⟨o, ho⟩ := hu.due
  · cases as with
    | nil => simp [transact, ho] at h
    | cons a rest =>
      simp only [transact, ho] at h
      cases h
      exact ⟨a, rest, rfl, sendAnswered_afterCall o a rest u⟩
  · cases as with
    | nil => simp [transact, ho] at h
    | cons a rest =>
      simp only [transact, ho] at h
      exact ⟨a, rest, rfl, fetchAnswered_afterCall h⟩

/-- Where the operation is over, a transaction is its completion and takes no answer. -/
theorem transact_finished {as : List Answer} {u : State} (hu : u.finished) :
    transact as (.next u) = .next { u with answers := as } := by
  obtain ⟨hidle, -⟩ := hu
  simp [transact, hidle]

/-- A transaction goes through a state that the operation comes to without an answer. -/
theorem transact_next {as : List Answer} {r : Result} {t : State} (h : transact as r = .next t) : ∃ u, r = .next u := by
  cases r with
  | next u => exact ⟨u, rfl⟩
  | fault f => cases h
  | refused e => cases h

/-- R9: a step of an operation in progress is one call with its answer, or the completion. -/
theorem advance_cases {s t : State} (h : advance s = .next t) :
    (∃ a, s.answers = a :: t.answers ∧ s.AfterCall t.answers t) ∨ t.finished ∧ t.calls = s.calls ∧ t.answers = s.answers := by
  unfold advance at h
  obtain ⟨u, hu⟩ := transact_next h
  have hcalls : u.calls = s.calls := resume_silent_calls (s := { s with answers := [] }) rfl hu
  rw [hu] at h
  obtain hf | ⟨hsame, hw⟩ := resume_endsOrWaits hu
  · rw [transact_finished hf] at h
    cases h
    exact .inr ⟨hf, hcalls, rfl⟩
  · obtain ⟨a, rest, has, hcall, hans, ht⟩ := transact_awaiting hw h
    refine .inl ⟨a, by rw [has, hans], hcalls ▸ hcall, rfl, ?_⟩
    exact ⟨ht.busy.trans hsame.busy, ht.res.trans hsame.res, ht.err.trans hsame.err⟩

/-- Settles O12: a step with BUSY 0 accepts the first request; with BUSY 1 it is a call or the completion, by `advance_cases`. -/
theorem stepIsOneTransaction : Obligations.StepIsOneTransaction := by
  unfold Obligations.StepIsOneTransaction
  intro s t hp hstep
  cases hb : s.busy with
  | false =>
    cases hq : s.requests with
    | nil => simp [hb, hq] at hp
    | cons r rest =>
      simp only [step, hb, hq] at hstep
      cases hstep
      exact .inl ⟨rfl, ⟨r, rfl, rfl⟩, rfl, rfl, rfl, rfl, rfl⟩
  | true =>
    have hadv : advance s = .next t := by simpa [step, hb] using hstep
    obtain ⟨a, has, ⟨c, hc⟩, -, hsame⟩ | hend := advance_cases hadv
    · exact .inr (.inl ⟨rfl, hsame.busy.trans hb, ⟨a, c, has, hc⟩, hsame.res, hsame.err⟩)
    · exact .inr (.inr ⟨rfl, hend⟩)

end Sys2Proof.Machine
end

section
/-! SUPPORT. The state after reset (10_state.md R45): its tables, read through the model's own accessors. -/

namespace Sys2Proof.Machine

/-- R45: every stored header byte is 0. -/
@[simp] theorem Decoded.hdrByte_reset {k : Nat} (hk : k < 40) : Decoded.reset.hdrByte k = 0 := by
  simp only [Decoded.hdrByte, Decoded.reset, Vector.toList_replicate]
  exact List.getD_replicate 0 hk

/-- R38, R45: DEINIT changes nothing in the decoded response of reset, which is empty already. -/
theorem Decoded.deinit_reset : Decoded.reset.deinit = Decoded.reset := rfl

/-- R45: no store holds a record. -/
@[simp] theorem Decoded.recCount_reset (T : SensorType) : Decoded.reset.recCount T = 0 := by
  rw [← Decoded.deinit_reset]
  exact Decoded.recCount_deinit _ T

/-- Settles O14: a scalar's value stands in `State.resetWith`; the header bytes and the record counts are `hdrByte_reset` and
`recCount_reset`. -/
theorem resetValues : Obligations.ResetValues := by
  unfold Obligations.ResetValues
  intro cfg s
  have hheader : ∀ k, k < 40 → s.dec.hdrByte k = 0 := fun _ hk => Decoded.hdrByte_reset hk
  have hcounts : ∀ T, s.dec.recCount T = 0 := Decoded.recCount_reset
  exact ⟨rfl, rfl, rfl, rfl, rfl, rfl, rfl, rfl, rfl, rfl, rfl, hheader, rfl, rfl, rfl, hcounts, rfl, rfl, rfl, rfl, rfl, rfl⟩

end Sys2Proof.Machine
end

section
/-! SUPPORT. The raw buffer's byte store (20_memory.md R69): what a read returns inside and outside a stored run of bytes. -/

namespace Sys2Proof.Machine

/-- R69: `raw[o + i] <- b[i]`, the order of the stored bytes. -/
theorem Memory.read_writeBytes_inside (m : Memory) (a : Nat) (bytes : List Byte) {k : Nat} (hk : k < bytes.length) :
    (m.writeBytes a bytes).read (a + k) = bytes[k] := by
  have hin : a ≤ a + k ∧ a + k < a + bytes.length := by omega
  rw [Memory.read_writeBytes, if_pos hin, Nat.add_sub_cancel_left, List.getD_eq_getElem _ _ hk]

/-- R69: the frame of a store. -/
theorem Memory.read_writeBytes_outside (m : Memory) {a x : Nat} {bytes : List Byte} (hx : x < a ∨ a + bytes.length ≤ x) :
    (m.writeBytes a bytes).read x = m.read x := by
  have hout : ¬ (a ≤ x ∧ x < a + bytes.length) := by omega
  rw [Memory.read_writeBytes, if_neg hout]

/-- Settles O20: the two sides of the condition in `Memory.read_writeBytes`. -/
theorem rawReadAfterWrite : Obligations.RawReadAfterWrite := by
  unfold Obligations.RawReadAfterWrite
  intro m a bytes x
  exact ⟨fun _ hk => Memory.read_writeBytes_inside m a bytes hk, Memory.read_writeBytes_outside m⟩

end Sys2Proof.Machine
end

section
/-! SUPPORT. The completion of ENCODE (40_encoder.md R130): a length that passes the check of R131. -/

namespace Sys2Proof.Machine

/-- R130, R136: a legal length leaves the frame of R98 in the working registers and answers it. -/
theorem execEncode_of_legal {seq ctype len : Byte} (imm : Word) (s : State) (h : len.toNat < 3) :
    execEncode seq ctype len imm s =
      succeed (s.framed seq ctype len (payload0 imm) (payload1 imm)) (frameHead seq ctype len)
        (frameTail seq ctype len (payload0 imm) (payload1 imm)) := by
  simp only [execEncode, legalLen_of_lt h, encodeFrame_eq]
  rfl

/-- Settles O22: the frame of `execEncode_of_legal`, published as RES = `W1 : W2`. -/
theorem encodeBuildsFrame : Obligations.EncodeBuildsFrame := by
  unfold Obligations.EncodeBuildsFrame
  intro seq ctype len imm s hlen
  have hlegal : len.toNat < 3 := by omega
  calc exec (.encode seq ctype len imm) s
      = execEncode seq ctype len imm s := rfl
    _ = succeed (s.framed seq ctype len (payload0 imm) (payload1 imm)) (frameHead seq ctype len)
          (frameTail seq ctype len (payload0 imm) (payload1 imm)) := execEncode_of_legal imm s hlegal
    _ = _ := succeed_eq _ _ _

end Sys2Proof.Machine
end

section
/-! SUPPORT. Illegal operation words (30_encoding.md R94): a word is illegal when the decoder refuses it or the operation it decodes to is
ill-formed, and either way it completes with IllegalOperation (60_exceptions.md R311). -/

namespace Sys2Proof.Machine

/-! ### What a format accepts (R90) -/

theorem formatF_ok {opw : Word} {f : Byte → Byte → Byte → Instr} {i : Instr} (h : formatF opw f = .ok i) :
    i = f (seqField opw) (typeField opw) (lenField opw) := by
  cases h
  rfl

theorem formatN_ok {opw : Word} {j i : Instr} (h : formatN opw j = .ok i) : opw.extractLsb' 0 24 = 0 ∧ i = j := by
  unfold formatN at h
  split at h
  case isTrue hz => cases h; exact ⟨hz, rfl⟩
  case isFalse => cases h

theorem formatI_ok {opw : Word} {f : Half → Instr} {i : Instr} (h : formatI opw f = .ok i) :
    opw.extractLsb' 16 8 = 0 ∧ i = f (indexField opw) := by
  unfold formatI at h
  split at h
  case isTrue hz => cases h; exact ⟨hz, rfl⟩
  case isFalse => cases h

theorem formatC_ok {opw : Word} {f : Byte → Instr} {i : Instr} (h : formatC opw f = .ok i) :
    opw.extractLsb' 8 16 = 0 ∧ i = f (csrField opw) := by
  unfold formatC at h
  split at h
  case isTrue hz => cases h; exact ⟨hz, rfl⟩
  case isFalse => cases h

/-- R94: a word that decodes has its zero fields zero, so it is legal exactly when its operand is in range, which both sides
read from the same bits. The cases are the rows of `decode`, by format. -/
theorem legalWord_of_decode {opw imm : Word} {i : Instr} (h : decode opw imm = .ok i) : legalWord opw = i.wellFormed := by
  simp only [decode, opField] at h
  split at h
  case h_1 hop | h_2 hop =>
    obtain rfl := formatF_ok h
    simp only [legalWord, hop]
    rfl
  case h_3 hop | h_4 hop | h_5 hop | h_6 hop | h_7 hop =>
    obtain ⟨hz, rfl⟩ := formatN_ok h
    simp only [legalWord, hop, hz]
    rfl
  case h_8 hop | h_9 hop | h_10 hop | h_11 hop | h_12 hop | h_13 hop | h_14 hop | h_15 hop | h_16 hop | h_17 hop | h_18 hop
      | h_19 hop =>
    obtain ⟨hz, rfl⟩ := formatI_ok h
    simp only [legalWord, hop, hz]
    rfl
  case h_20 hop | h_21 hop =>
    obtain ⟨hz, rfl⟩ := formatC_ok h
    simp only [legalWord, hop, hz]
    rfl
  case h_22 => cases h

/-! ### An operand out of range (R94, R311) -/

/-- R270: RD_CAPS numbers six fields. -/
theorem capsFieldOf_eq_none {f : Half} (h : 5 < f.toNat) : capsFieldOf f = none := by
  unfold capsFieldOf
  split
  case h_7 => rfl
  all_goals omega

/-- R41: the registers above 11 are reserved. -/
theorem csrValue_eq_none (s : State) {n : Nat} (h : 11 < n) : csrValue s n = none := by
  unfold csrValue
  split
  case h_13 => rfl
  all_goals omega

/-- R284: the registers above 1 are read-only or reserved. -/
theorem execCsrw_of_readOnly {csr : Byte} (imm : Word) (s : State) (h : 1 < csr.toNat) : execCsrw csr imm s = raiseIllegal s := by
  unfold execCsrw
  split
  case h_3 => rfl
  all_goals omega

/-- R311: an ill-formed operation does nothing but raise IllegalOperation. Only four operations have an operand range. -/
theorem exec_of_illFormed {i : Instr} (s : State) (h : i.wellFormed = false) : exec i s = raiseIllegal s := by
  cases i with
  | rdCaps index =>
    have hrange : 5 < index.toNat := by simpa [Instr.wellFormed] using h
    simp only [exec, execRdCaps, capsFieldOf_eq_none hrange]
  | rdHdr index =>
    have hrange : 39 < index.toNat := by simpa [Instr.wellFormed] using h
    simp only [exec, execRdHdr, if_pos hrange]
  | csrr csr =>
    have hrange : 11 < csr.toNat := by simpa [Instr.wellFormed] using h
    simp only [exec, execCsrr, csrValue_eq_none s hrange]
  | csrw csr imm =>
    have hrange : 1 < csr.toNat := by simpa [Instr.wellFormed] using h
    exact execCsrw_of_readOnly imm s hrange
  | _ => cases h

/-! ### The step of an illegal word -/

/-- R94: refused by the decoder, or decoded to an ill-formed operation. -/
theorem runLatched_of_illegal {s : State} (h : legalWord s.opw = false) : runLatched s = raiseIllegal s := by
  unfold runLatched
  split
  case h_1 i hdec =>
    have hill : i.wellFormed = false := by rw [← legalWord_of_decode hdec, h]
    exact exec_of_illFormed s hill
  case h_2 => rfl

/-- R9, R21: an accepted operation that ends without a call completes in one step. -/
theorem step_of_runLatched_finished {s t : State} (hb : s.busy = true) (ha : s.activity = .accepted)
    (hr : runLatched { s with answers := [] } = .next t) (ht : t.finished) : step s = .next { t with answers := s.answers } := by
  have hresume : resume { s with answers := [] } = .next t := by simpa only [resume, ha] using hr
  have hstep : step s = advance s := if_pos hb
  rw [hstep, advance, hresume, transact_finished ht]

/-- Settles O7: an illegal word comes to IllegalOperation without a call, which is the completion. -/
theorem illegalWordRaises : Obligations.IllegalWordRaises := by
  unfold Obligations.IllegalWordRaises
  intro s hb ha hillegal
  have hraise : runLatched { s with answers := [] } = .next (({ s with answers := [] } : State).complete 0 (errReg 0 0 0x0A)) :=
    (runLatched_of_illegal (s := { s with answers := [] }) hillegal).trans (raiseIllegal_eq _)
  exact step_of_runLatched_finished hb ha hraise ⟨rfl, rfl⟩

end Sys2Proof.Machine
end

section
/-! SUPPORT. The ends of SEND (41_sequencer.md R150): an operation with a legal length runs `Send` on its frame and publishes how that
ended, with the status as the result of R159 or with the error of R160. -/

namespace Sys2Proof.Machine

/-- R152: past the length check, the calls begin with the frame of R98 in the working registers. -/
theorem exec_send_of_legal {seq ctype len : Byte} (imm : Word) (s : State) (h : len.toNat < 3) :
    exec (.send seq ctype len imm) s =
      endSend (sendRun ((s.framed seq ctype len (payload0 imm) (payload1 imm)).begun .host)) := by
  simp only [exec, execSend, legalLen_of_lt h, sendBegin_eq]

/-- R24, R300: what an operation in progress held in `step` and `activity` does not outlive it. -/
theorem State.complete_inProgress (s : State) (k : Nat) (a : Activity) (res : DWord) (err : Word) :
    ({ s with seqStep := k, activity := a } : State).complete res err = s.complete res err := rfl

/-- R159: RES_LO is the status byte zero-extended, and so is RES. -/
theorem statusWord_setWidth (st : Byte) : (st.setWidth 32).setWidth 64 = st.setWidth 64 :=
  BitVec.setWidth_setWidth (by decide)

/-- R159: a SEND whose status is 0. -/
theorem endSend_done (s : State) : endSend (.done s) = .next (s.complete (s.lastStatus.setWidth 64) 0) :=
  calc endSend (.done s)
      = succeed s 0 (s.lastStatus.setWidth 32) := rfl
    _ = .next (s.complete (s.lastStatus.setWidth 64) 0) := by rw [succeed_lo, statusWord_setWidth]

/-- R159: a SEND whose status is not 0; RES keeps the status. -/
theorem endSend_protocol (st : Byte) (s : State) :
    endSend (.raised (.protocolError st) s) = .next (s.complete (st.setWidth 64) (errReg (statusFlags s.cfg st) st 0x03)) :=
  calc endSend (.raised (.protocolError st) s)
      = raise s (.protocolError st) (st.setWidth 32) false := rfl
    _ = _ := by rw [raise_protocol, statusWord_setWidth]

/-- R160: a SEND that met a transport error; RES is 0. -/
theorem endSend_transport (k : Byte) (s : State) :
    endSend (.raised (.transportError k) s) = .next (s.complete 0 (errReg 0 k 0x02)) := raise_transport s k 0

/-- Settles O24: the eight calls are `sendRun_begun_ok`; the two ends of R159 differ by the status. -/
theorem sendCompletes : Obligations.SendCompletes := by
  unfold Obligations.SendCompletes
  intro seq ctype len imm s oks b rest hlen hanswers
  have hlegal : len.toNat < 3 := by omega
  have hframed : (s.framed seq ctype len (payload0 imm) (payload1 imm)).answersSend oks b rest := hanswers
  rw [exec_send_of_legal imm s hlegal, sendRun_begun_ok _ .host oks b rest hframed]
  by_cases hb : b[2] = 0
  · rw [if_pos hb, if_pos hb, endSend_done, State.complete_inProgress]
    rfl
  · rw [if_neg hb, if_neg hb, endSend_protocol, State.complete_inProgress]
    rfl

/-- Settles O25: the calls up to the one answered `err` are `sendRun_begun_err`. -/
theorem sendStopsAtTransportError : Obligations.SendStopsAtTransportError := by
  unfold Obligations.SendStopsAtTransportError
  intro seq ctype len imm s oks rest hlen hoks hanswers
  have hlegal : len.toNat < 3 := by omega
  have hframed : (s.framed seq ctype len (payload0 imm) (payload1 imm)).answers = oks.map .ok ++ .err :: rest := hanswers
  rw [exec_send_of_legal imm s hlegal, sendRun_begun_err _ .host oks rest hoks hframed, endSend_transport,
    State.complete_inProgress]
  rfl

end Sys2Proof.Machine
end

section
/-! SUPPORT. The ends of FETCH (41_sequencer.md R162): illegal without a response head, else the reads of `Fetch` and how they ended. -/

namespace Sys2Proof.Machine

/-- R165: no response head in the buffer. -/
theorem exec_fetch_of_noHead {s : State} (h : s.rawLen.val < 8) : exec .fetch s = raiseIllegal s := if_pos h

/-- R162: a response head in the buffer. -/
theorem exec_fetch_of_head {s : State} (h : 8 ≤ s.rawLen.val) : exec .fetch s = endFetch (fetchRun (fetchBegin .host s)) :=
  if_neg (Nat.not_lt.mpr h)

/-- R163: the buffer ends after 511 reads, so `raw_len` holds the count of R164 as it is. -/
theorem fetchReads_le (len : Half) : fetchReads len ≤ 511 := by
  unfold fetchReads
  omega

/-- R162: a FETCH that read everything answers `raw_len`, which 32 bits hold. -/
theorem endFetch_done (s : State) : endFetch (.done s) = .next (s.complete (BitVec.ofNat 64 s.rawLen.val) 0) := by
  have hfits : (BitVec.ofNat 32 s.rawLen.val).setWidth 64 = BitVec.ofNat 64 s.rawLen.val :=
    BitVec.setWidth_ofNat_of_le_of_lt (by decide) (by omega)
  calc endFetch (.done s)
      = succeed s 0 (BitVec.ofNat 32 s.rawLen.val) := rfl
    _ = .next (s.complete (BitVec.ofNat 64 s.rawLen.val) 0) := by rw [succeed_lo, hfits]

/-- R165: a FETCH that met a transport error. -/
theorem endFetch_transport (k : Byte) (s : State) :
    endFetch (.raised (.transportError k) s) = .next (s.complete 0 (errReg 0 k 0x02)) := raise_transport s k 0

/-- Settles O27: the reads are `fetchRun_begun_ok`, and `fetchReads_le` keeps the final `raw_len` inside the buffer. -/
theorem fetchCompletes : Obligations.FetchCompletes := by
  unfold Obligations.FetchCompletes
  intro s chunks rest hhead hcount hanswers
  have hbound : chunks.length ≤ 511 := hcount ▸ fetchReads_le _
  have hlen : (s.fetched chunks 0 rest).rawLen.val = 8 + 8 * chunks.length := RawLen.ofNat_val (by omega)
  rw [exec_fetch_of_head hhead, fetchRun_begun_ok s .host chunks rest hcount hanswers, endFetch_done, ← hlen]
  rfl

/-- Settles O28: the check of `raw_len`, and the reads up to the one answered `err`, which are `fetchRun_begun_err`. -/
theorem fetchErrors : Obligations.FetchErrors := by
  unfold Obligations.FetchErrors
  constructor
  · intro s hnone
    exact (exec_fetch_of_noHead hnone).trans (raiseIllegal_eq s)
  · intro s chunks rest hhead hcount hanswers
    rw [exec_fetch_of_head hhead, fetchRun_begun_err s .host chunks rest hcount hanswers, endFetch_transport]
    rfl

end Sys2Proof.Machine
end

section
/-! SUPPORT. The errors of PARSE (42_parser.md R197 to R200): a response that fails a test before the commit point, with the error of that
test, and a response that fails after it. -/

namespace Sys2Proof.Machine

theorem exec_parse (s : State) : exec .parse s = execParse s := rfl

/-! ### Before the commit point -/

/-- R181 to R186: the tests before the commit point in their order, and the error of the first that fails. -/
inductive HeadFails (m : Memory) (rawLen : Nat) : Err → Prop where
  | header (h : parseLimit rawLen (be16 m offLen) < offNblk) : HeadFails m rawLen (.truncated 0xFF)
  | eyeCatcher (h : offNblk ≤ parseLimit rawLen (be16 m offLen)) (hm : ¬ magicPresent m = true) : HeadFails m rawLen .badMagic
  | blockCount (h : parseLimit rawLen (be16 m offLen) = offNblk) (hm : magicPresent m = true) : HeadFails m rawLen (.truncated 0xFF)
  | noBlocks (h : offNblk + 1 ≤ parseLimit rawLen (be16 m offLen)) (hm : magicPresent m = true) (hn : m.read offNblk = 0) :
      HeadFails m rawLen .noBlocks
  | firstBlock (h : parseLimit rawLen (be16 m offLen) = offNblk + 1) (hm : magicPresent m = true) (hn : m.read offNblk ≠ 0) :
      HeadFails m rawLen (.truncated 0xFF)

theorem HeadFails.ofParse {m : Memory} {rawLen : Nat} {e : Err} (h : HeadFails m rawLen e) : e.ofParse := by
  cases h <;> exact True.intro

/-- R181: a response of fewer than five bytes has a `limit` below every offset of the header. -/
theorem not_lt_offHdr_of_limit {rawLen : Nat} {len : Half} (h : offNblk ≤ parseLimit rawLen len) : ¬ rawLen < offHdr := by
  have hle : parseLimit rawLen len ≤ rawLen := Accepted_limit_le
  unfold offNblk at h
  unfold offHdr
  omega

/-- R200: the header stops at the test that fails, and only working registers are written. -/
theorem parseHead_fail {m : Memory} {rawLen : Nat} {e : Err} (h : HeadFails m rawLen e) (p : ParseState) :
    ∃ w, parseHead m rawLen p = .fail e { p with work := w } := by
  unfold parseHead
  cases h with
  | header h =>
    by_cases hshort : rawLen < offHdr
    · exact ⟨p.work, if_pos hshort⟩
    · simp only [if_neg hshort, if_pos h]
      exact ⟨_, rfl⟩
  | eyeCatcher h hm =>
    simp only [if_neg (not_lt_offHdr_of_limit h), if_neg (Nat.not_lt.mpr h), hm, Bool.not_false, if_true]
    exact ⟨_, rfl⟩
  | blockCount h hm =>
    simp only [if_neg (not_lt_offHdr_of_limit h.ge), if_neg (Nat.not_lt.mpr h.ge), if_pos (Nat.lt_succ_of_le h.le), hm,
      Bool.not_true, Bool.false_eq_true, if_false]
    exact ⟨_, rfl⟩
  | noBlocks h hm hn =>
    have h43 := Nat.le_of_succ_le h
    simp only [if_neg (not_lt_offHdr_of_limit h43), if_neg (Nat.not_lt.mpr h43), if_neg (Nat.not_lt.mpr h), if_pos hn, hm,
      Bool.not_true, Bool.false_eq_true, if_false]
    exact ⟨_, rfl⟩
  | firstBlock h hm hn =>
    have h43 := Nat.le_of_succ_le h.ge
    have h45 : parseLimit rawLen (be16 m offLen) < offBlk0 := Nat.lt_succ_of_le h.le
    simp only [if_neg (not_lt_offHdr_of_limit h43), if_neg (Nat.not_lt.mpr h43), if_neg (Nat.not_lt.mpr h.ge), if_neg hn, if_pos h45,
      hm, Bool.not_true, Bool.false_eq_true, if_false]
    exact ⟨_, rfl⟩

/-- R200: PARSE on a response rejected before the commit point. -/
theorem exec_parse_of_headFails (s : State) {e : Err} (h : HeadFails s.raw s.rawLen.val e) :
    ∃ w : Work, exec .parse s =
      .next ({ s with work := w, cache := { s.cache with valid := false } }.complete 0 (errReg 0 e.info e.code)) := by
  obtain ⟨w, hw⟩ := parseHead_fail h ⟨s.work, s.dec⟩
  have hcore : parseCore s.cfg s.raw s.rawLen.val ⟨s.work, s.dec⟩ = .fail e ⟨w, s.dec⟩ := by
    simp only [parseCore, hw]
  exact ⟨w, execParse_fail s hcore h.ofParse⟩

/-- Settles O31: each clause is a constructor of `HeadFails`. -/
theorem parseRejectsBeforeCommit : Obligations.ParseRejectsBeforeCommit := by
  unfold Obligations.ParseRejectsBeforeCommit
  intro s limit fails eye
  have heye : magicPresent s.raw = true ↔ eye := magicPresent_iff s.raw
  exact ⟨fun h => exec_parse_of_headFails s (e := .truncated 0xFF) (.header h),
    fun h hm => exec_parse_of_headFails s (e := .badMagic) (.eyeCatcher h (mt heye.mp hm)),
    fun h hm => exec_parse_of_headFails s (e := .truncated 0xFF) (.blockCount h (heye.mpr hm)),
    fun h hm hn => exec_parse_of_headFails s (e := .noBlocks) (.noBlocks h (heye.mpr hm) hn),
    fun h hm hn => exec_parse_of_headFails s (e := .truncated 0xFF) (.firstBlock h (heye.mpr hm) hn)⟩

/-! ### After the commit point -/

/-- R199: PARSE ended with the error `e` and left an empty decoded response, its envelope and header those of the new response. -/
def State.ParseEmptiedBy (s : State) (e : Err) : Prop :=
  ∃ (w : Work) (d : Decoded), d.isEmpty = true ∧ d.EnvelopeOf s.raw s.rawLen.val ∧
    exec .parse s =
      .next ({ s with work := w, dec := d, cache := { s.cache with valid := false } }.complete 0 (errReg 0 e.info e.code))

/-- R188, R199: more blocks than the table holds. -/
theorem parseEmptiedBy_of_table (s : State) (hc : s.dec.Consistent s.cfg) (hh : HeaderAccepted s.raw s.rawLen.val)
    (hmax : s.cfg.maxBlocks < (s.raw.read offNblk).toNat) : s.ParseEmptiedBy (.outOfMemory 0xFF) := by
  obtain ⟨q, hq, hempty, henv⟩ := parseCore_table_fails (p := ⟨s.work, s.dec⟩) hh hc.tableFits.1 hmax
  exact ⟨q.work, q.dec, hempty, henv, execParse_fail s hq True.intro⟩

/-- R199: the first block that does not fit. -/
theorem parseEmptiedBy_of_block (s : State) (hc : s.dec.Consistent s.cfg) (hh : HeaderAccepted s.raw s.rawLen.val)
    (hmax : (s.raw.read offNblk).toNat ≤ s.cfg.maxBlocks) {b : Nat} (hb : b < (s.raw.read offNblk).toNat)
    (hpre : ∀ j, j < b → BlockFits s.cfg s.raw (parseLimit s.rawLen.val (be16 s.raw offLen)) j) {e : Err}
    (hf : BlockFails s.cfg s.raw (parseLimit s.rawLen.val (be16 s.raw offLen)) b e) : s.ParseEmptiedBy e := by
  obtain ⟨q, hq, hempty, henv⟩ := parseCore_block_fails (p := ⟨s.work, s.dec⟩) hh hc.storesFit hmax hb hpre hf
  exact ⟨q.work, q.dec, hempty, henv, execParse_fail s hq hf.ofParse⟩

/-- Settles O32: the table clause, then each clause on block `b` is a constructor of `BlockFails`. -/
theorem parseFailsAtFirstBadBlock : Obligations.ParseFailsAtFirstBadBlock := by
  unfold Obligations.ParseFailsAtFirstBadBlock
  intro s b hc hh m limit fails cnt rl
  refine ⟨parseEmptiedBy_of_table s hc hh, fun hmax hb hpre => ?_⟩
  have hblock : ∀ e : Err, BlockFails s.cfg m limit b e → s.ParseEmptiedBy e := fun _ => parseEmptiedBy_of_block s hc hh hmax hb hpre
  refine ⟨fun h => hblock (.truncated (BitVec.ofNat 8 b)) (.subHeader h),
    fun h => ⟨fun ht => hblock (.unsupportedSensorType (BitVec.ofNat 8 b)) (.tag h (typeOfTag_eq_none ht)), fun T ht hn => ?_⟩⟩
  have hT : typeOfTag (declared m b).tag = some T := ht ▸ typeOfTag_tag T
  exact ⟨fun hcap => hblock (.outOfMemory (BitVec.ofNat 8 b)) (.capacity h T hT hn hcap),
    fun hcap hreach => hblock (.truncated (BitVec.ofNat 8 b)) (.reach h T hT hn hcap hreach)⟩

end Sys2Proof.Machine
end

section
/-! SUPPORT. The scenario of the document (42_parser.md R205): what the 40 bytes of its two blocks declare, and that the response fits. -/

namespace Sys2Proof.Machine

/-! ### A response that fits -/

/-- R195, R197: when the records are not longer than their stride, the block's extent covers them all. -/
theorem BlockFits.of_extent {cfg : Config} {m : Memory} {limit b : Nat} {T : SensorType}
    (htag : (declared m b).tag = SensorType.tag T) (hcap : (declared m b).count.toNat ≤ cfg.maxRec.get T)
    (hstride : recSize T ≤ (declared m b).rl.toNat) (hend : blockStart m (b + 1) ≤ limit) : BlockFits cfg m limit b := by
  have hT : typeOfTag (declared m b).tag = some T := htag ▸ typeOfTag_tag T
  have hnext : blockStart m (b + 1) = blockStart m b + subhdrBytes + (declared m b).rl.toNat * (declared m b).count.toNat := rfl
  have honly : ∀ {U}, typeOfTag (declared m b).tag = some U → T = U := fun hU => Option.some.inj (hT.symm.trans hU)
  refine ⟨by omega, by simp [hT], fun U hU _ => honly hU ▸ hcap, fun _ => hend, fun U hU _ k hk => ?_⟩
  obtain rfl := honly hU
  have hlast : (k + 1) * (declared m b).rl.toNat ≤ (declared m b).count.toNat * (declared m b).rl.toNat :=
    Nat.mul_le_mul_right _ hk
  rw [Nat.add_mul, Nat.one_mul, Nat.mul_comm (declared m b).count.toNat] at hlast
  omega

/-- R203: PARSE on an accepted response leaves what the response declares, and answers the final cursor and the block count. -/
theorem exec_parse_of_accepted (s : State) (hc : s.dec.Consistent s.cfg) (ha : Accepted s.cfg s.raw s.rawLen.val) :
    ∃ (w : Work) (d : Decoded), d.ParsedFrom s.raw s.rawLen.val ∧
      exec .parse s = .next ({ s with work := w, dec := d }.complete
        (BitVec.ofNat 32 (blockStart s.raw (s.raw.read offNblk).toNat) ++ BitVec.ofNat 32 (s.raw.read offNblk).toNat) 0) := by
  obtain ⟨q, hq, hparsed, hcursor⟩ := parseCore_accepted (p := ⟨s.work, s.dec⟩) hc.storesFit ha
  have hblocks : q.dec.nblocks = (s.raw.read offNblk).toNat := by simp [Decoded.nblocks, hparsed.table]
  refine ⟨q.work, q.dec, hparsed, ?_⟩
  rw [exec_parse, execParse_ok s hq, hcursor, hblocks]

/-! ### A temperature read with a fresh cache -/

theorem exec_rdTemp (index : Half) (s : State) : exec (.rdTemp index) s = execRdTemp index s := rfl

/-- R261, R262: no poll, and the value of the record in milli-degrees. -/
theorem exec_rdTemp_of_fresh {s : State} {index : Half} {r : SensorRec} {b : Nat} (hf : fresh s.cfg s.cache s.now = true)
    (hidx : s.dec.idx.temp = some b) (hrec : s.dec.temp[index.toNat]? = some r) :
    exec (.rdTemp index) s = .next (s.complete ((milliDegree r.value).setWidth 64) 0) := by
  have hlookup : s.dec.lookup .tempValue index.toNat = some (milliDegree r.value) := by
    simp [Decoded.lookup, Decoded.scalar, ReadField.sensor, PerType.get, hidx, hrec]
  rw [exec_rdTemp, execRdTemp, consumerRead, if_pos hf, readEnd, hlookup]
  exact succeed_lo s _

/-! ### The document's bytes -/

/-- R205: the 40 bytes of the two blocks, from offset 45 on. -/
def scenarioBytes : List Byte :=
  [0x54, 0x45, 0x4D, 0x50, 0x00, 0x01, 0x04, 0x03, 0x00, 0x01, 0x00, 0xFA, 0x00, 0x02, 0x01, 0x2C, 0x00, 0x03, 0x01, 0x13,
   0x50, 0x4F, 0x57, 0x52, 0x00, 0x01, 0x0C, 0x01, 0x00, 0x0A, 0x00, 0x00, 0x00, 0x05, 0x00, 0x00, 0x03, 0xE8, 0x00, 0x2A]

/-- The buffer holds the scenario's blocks. -/
def Memory.HoldsScenario (m : Memory) : Prop := (List.range 40).map (fun k => m.read (45 + k)) = scenarioBytes

/-- R190, R107, R108: the two sub-headers, the three TEMP records and the POWR record that the bytes decode to. -/
theorem Memory.HoldsScenario.decoded {m : Memory} (h : m.HoldsScenario) :
    (entryAt m 45 = ⟨0x54454D50, 1, 4, 3⟩ ∧ entryAt m 65 = ⟨0x504F5752, 1, 12, 1⟩) ∧
    (sensorRecAt m 53 = ⟨1, 250⟩ ∧ sensorRecAt m 57 = ⟨2, 300⟩ ∧ sensorRecAt m 61 = ⟨3, 275⟩) ∧
    powrRecAt m 73 = ⟨10, 5, 1000, 42⟩ := by
  simp only [Memory.HoldsScenario, scenarioBytes, List.range_succ, List.range_zero, List.nil_append, List.cons_append, List.map_cons,
    List.map_nil, Nat.add_zero, Nat.reduceAdd, List.cons.injEq, and_true] at h
  simp [entryAt, sensorRecAt, powrRecAt, be16, be32, h]

/-- R203: the first block stands at 45 and the second at 65; the response ends at 85. -/
theorem Memory.HoldsScenario.layout {m : Memory} (h : m.HoldsScenario) :
    declared m 0 = ⟨0x54454D50, 1, 4, 3⟩ ∧ blockStart m 1 = 65 ∧ declared m 1 = ⟨0x504F5752, 1, 12, 1⟩ ∧ blockStart m 2 = 85 := by
  obtain ⟨⟨htemp, hpowr⟩, -⟩ := h.decoded
  have h0 : declared m 0 = ⟨0x54454D50, 1, 4, 3⟩ := htemp
  have hs1 : blockStart m 1 = 65 :=
    calc blockStart m 1 = 45 + 8 + (declared m 0).rl.toNat * (declared m 0).count.toNat := rfl
      _ = 65 := by rw [h0]; rfl
  have h1 : declared m 1 = ⟨0x504F5752, 1, 12, 1⟩ := by rw [declared, hs1, hpowr]
  have hs2 : blockStart m 2 = 85 :=
    calc blockStart m 2 = blockStart m 1 + 8 + (declared m 1).rl.toNat * (declared m 1).count.toNat := rfl
      _ = 85 := by rw [h1, hs1]; rfl
  exact ⟨h0, hs1, h1, hs2⟩

/-- R203: only TEMP and POWR are seen, each in one block. -/
theorem Memory.HoldsScenario.lastNonEmpty {m : Memory} (h : m.HoldsScenario) :
    lastNonEmpty m .temp 2 = some 0 ∧ lastNonEmpty m .powr 2 = some 1 ∧ lastNonEmpty m .freq 2 = none ∧
      lastNonEmpty m .caps 2 = none := by
  obtain ⟨h0, -, h1, -⟩ := h.layout
  simp [Machine.lastNonEmpty, h0, h1, SensorType.tag, BlockEntry.nonEmpty]

/-- R180: with room for two blocks, three TEMP records and one POWR record, the scenario passes every test. -/
theorem Memory.HoldsScenario.accepted {cfg : Config} {m : Memory} {rawLen : Nat} (h : m.HoldsScenario)
    (hblocks : 2 ≤ cfg.maxBlocks) (htemp : 3 ≤ cfg.maxRec.temp) (hpowr : 1 ≤ cfg.maxRec.powr) (hraw : 85 ≤ rawLen)
    (hlen : be16 m offLen = 80) (hnb : m.read offNblk = 2) (hmagic : magicPresent m = true) : Accepted cfg m rawLen := by
  have hlimit : parseLimit rawLen (be16 m offLen) = 85 := by
    rw [hlen]
    exact min_eq_right hraw
  obtain ⟨h0, hs1, h1, hs2⟩ := h.layout
  refine ⟨⟨by omega, hmagic, by simp [hnb]⟩, by simpa [hnb] using hblocks, fun b hb => ?_⟩
  rw [hlimit]
  obtain rfl | rfl : b = 0 ∨ b = 1 := by
    have : b < 2 := by simpa [hnb] using hb
    omega
  · exact .of_extent (T := .temp) (by rw [h0]; rfl) (by rw [h0]; exact htemp) (by rw [h0]; decide) (by rw [hs1]; decide)
  · exact .of_extent (T := .powr) (by rw [h1]; rfl) (by rw [h1]; exact hpowr) (by rw [h1]; decide) hs2.le

/-- R205: the decoded response of the scenario. -/
structure Decoded.IsScenario (d : Decoded) : Prop where
  blocks : d.blocks = [⟨0x54454D50, 1, 4, 3⟩, ⟨0x504F5752, 1, 12, 1⟩]
  tempIdx : d.idx.temp = some 0
  powrIdx : d.idx.powr = some 1
  freqIdx : d.idx.freq = none
  capsIdx : d.idx.caps = none
  temp : d.temp = [⟨1, 250⟩, ⟨2, 300⟩, ⟨3, 275⟩]
  powr : d.powr = [⟨10, 5, 1000, 42⟩]

/-- R203, R205: what the scenario's bytes declare. TEMP is kept since the block after its own is of another type. -/
theorem Decoded.ParsedFrom.isScenario {d : Decoded} {m : Memory} {rawLen : Nat} (hd : d.ParsedFrom m rawLen) (h : m.HoldsScenario)
    (hnb : m.read offNblk = 2) : d.IsScenario := by
  have hn : (m.read offNblk).toNat = 2 := by rw [hnb]; rfl
  obtain ⟨h0, hs1, h1, -⟩ := h.layout
  obtain ⟨hlt, hlp, hlf, hlc⟩ := h.lastNonEmpty
  obtain ⟨-, ⟨ht0, ht1, ht2⟩, hp0⟩ := h.decoded
  have hrecords := hd.records
  have hindex := hd.index
  have htable := hd.table
  rw [hn] at hrecords hindex htable
  have htemp := hrecords .temp 0 hlt fun j hj hj2 => by
    obtain rfl : j = 1 := by omega
    rw [h1]
    decide
  have hpowr := hrecords .powr 1 hlp fun j hj hj2 => by omega
  rw [h0] at htemp
  rw [h1, hs1] at hpowr
  refine ⟨?_, (hindex .temp).trans hlt, (hindex .powr).trans hlp, (hindex .freq).trans hlf, (hindex .caps).trans hlc, ?_, ?_⟩
  · calc d.blocks = [declared m 0, declared m 1] := htable
      _ = _ := by rw [h0, h1]
  · calc d.temp = [sensorRecAt m 53, sensorRecAt m 57, sensorRecAt m 61] := htemp
      _ = _ := by rw [ht0, ht1, ht2]
  · calc d.powr = [powrRecAt m 73] := hpowr
      _ = _ := by rw [hp0]

/-- Settles O35: the scenario is accepted, its decoded response is `IsScenario`, and the read finds the first TEMP record. -/
theorem parseDocumentScenario : Obligations.ParseDocumentScenario := by
  unfold Obligations.ParseDocumentScenario
  intro s hc hblocks htemp hpowr hraw hlen hnb hmagic hbytes
  have hholds : s.raw.HoldsScenario := hbytes
  obtain ⟨w, d, hparsed, hexec⟩ :=
    exec_parse_of_accepted s hc (hholds.accepted hblocks htemp hpowr hraw hlen hnb (beq_iff_eq.mpr hmagic))
  have hd : d.IsScenario := hparsed.isScenario hholds hnb
  have hn : (s.raw.read offNblk).toNat = 2 := congrArg BitVec.toNat hnb
  obtain ⟨-, -, -, hend⟩ := hholds.layout
  rw [hn, hend] at hexec
  refine ⟨_, hexec, rfl, rfl, congrArg List.length hd.blocks, hd.blocks, hd.tempIdx, hd.powrIdx, hd.freqIdx, hd.capsIdx, hd.temp,
    hd.powr, fun hfresh => ?_⟩
  exact exec_rdTemp_of_fresh (r := ⟨1, 250⟩) hfresh hd.tempIdx (congrArg (fun l => l[0]?) hd.temp)

end Sys2Proof.Machine
end

section
/-! SUPPORT. The Sensor Buffer Manager (43_buffer_manager.md): `Renew` once per branch of R220, with the frame of an allocation, and the
completion and idempotence of DEINIT. -/

namespace Sys2Proof.Machine

/-! ### Renew -/

/-- The frame of `Renew` (R220): `e` differs from `d` in the record store of `T` at most. -/
def Decoded.OnlyStoreDiffers (T : SensorType) (d e : Decoded) : Prop :=
  (∀ U, U ≠ T → e.SameStore d U) ∧ e.idx = d.idx ∧ e.blocks = d.blocks ∧ e.SameEnvelope d

/-- R222 to R224: releasing a store or allocating it afresh writes that store alone. -/
theorem Decoded.allocate_onlyStoreDiffers (T : SensorType) (d : Decoded) (n : Nat) : d.OnlyStoreDiffers T (d.allocate T n) :=
  ⟨fun _ hU => d.sameStore_allocate hU n, d.allocate_idx T n, d.allocate_blocks T n, d.envelope_allocate T n⟩

section
variable {maxRec : PerType Nat} {T : SensorType} {rl n : Byte} {b : Nat} {d : Decoded}

/-- R223 to R226: a block with records is served by its count alone. -/
theorem renew_of_nonEmpty (hn : n ≠ 0) (hrl : rl ≠ 0) :
    renew maxRec T rl n b d =
      if d.recCount T = n.toNat then .ok d
      else if maxRec.get T < n.toNat then .outOfMemory
      else .ok (d.allocate T n.toNat) :=
  if_neg (not_or.mpr ⟨hn, hrl⟩)

/-- R225: an equal count keeps the store. -/
theorem renew_of_sameCount (hn : n ≠ 0) (hrl : rl ≠ 0) (hcount : d.recCount T = n.toNat) : renew maxRec T rl n b d = .ok d := by
  rw [renew_of_nonEmpty hn hrl, if_pos hcount]

/-- R226: another count above the capacity fails. -/
theorem renew_of_aboveCapacity (hn : n ≠ 0) (hrl : rl ≠ 0) (hcount : d.recCount T ≠ n.toNat) (hcap : maxRec.get T < n.toNat) :
    renew maxRec T rl n b d = .outOfMemory := by
  rw [renew_of_nonEmpty hn hrl, if_neg hcount, if_pos hcap]

/-- R223, R224: another count within the capacity is allocated afresh. -/
theorem renew_of_newCount (hn : n ≠ 0) (hrl : rl ≠ 0) (hcount : d.recCount T ≠ n.toNat) (hcap : n.toNat ≤ maxRec.get T) :
    renew maxRec T rl n b d = .ok (d.allocate T n.toNat) := by
  rw [renew_of_nonEmpty hn hrl, if_neg hcount, if_neg (Nat.not_lt.mpr hcap)]

end

/-- Settles O36: one clause per branch of R220; the two branches that write allocate, and `Decoded.allocate_onlyStoreDiffers` is their
frame. -/
theorem renewCases : Obligations.RenewCases := by
  unfold Obligations.RenewCases
  intro maxRec T rl n b d onlyStore
  have hframe (k : Nat) : onlyStore (d.allocate T k) := d.allocate_onlyStoreDiffers T k
  have hstored (k : Nat) : (d.allocate T k).recCount T = k := by simp
  refine ⟨fun hempty => ?_, renew_of_sameCount, renew_of_aboveCapacity, fun hn hrl hcount hcap => ?_⟩
  · exact ⟨_, (renew_cases maxRec T rl n b d).1 hempty, hstored 0, hframe 0⟩
  · exact ⟨_, renew_of_newCount hn hrl hcount hcap, hstored n.toNat, hframe n.toNat⟩

/-! ### DEINIT -/

/-- R229: DEINIT empties the decoded response, clears `valid`, and completes with RES = 0 and OK. -/
theorem exec_deinit (s : State) : exec .deinit s = .next (s.emptied.complete 0 0) := rfl

/-- R230: what empties writes constants, so a second time writes the same again. -/
theorem State.emptied_emptied (s : State) : s.emptied.emptied = s.emptied := rfl

theorem State.emptied_complete (s : State) (res : DWord) (err : Word) :
    (s.complete res err).emptied = s.emptied.complete res err := rfl

theorem State.complete_complete (s : State) (res : DWord) (err : Word) :
    (s.complete res err).complete res err = s.complete res err := rfl

/-- Settles O37: `exec_deinit` twice; emptying and completing are each idempotent and commute. -/
theorem deinitEmptiesResponse : Obligations.DeinitEmptiesResponse := by
  unfold Obligations.DeinitEmptiesResponse
  refine fun s => ⟨exec_deinit s, s.dec.deinit_isEmpty, ?_⟩
  calc exec .deinit (s.emptied.complete 0 0)
      = .next ((s.emptied.complete 0 0).emptied.complete 0 0) := exec_deinit _
    _ = .next ((s.emptied.emptied.complete 0 0).complete 0 0) := by rw [State.emptied_complete]
    _ = .next (s.emptied.complete 0 0) := by rw [State.emptied_emptied, State.complete_complete]

end Sys2Proof.Machine
end

section
/-! SUPPORT. The freshness test of the Poll Cache (44_poll_cache.md R241): the elapsed time as an integer remainder. -/

namespace Sys2Proof.Machine

/-- R241: the model's natural number, in which no subtraction goes below 0, is the integer difference modulo `2^TIME_W`. -/
theorem elapsed_eq_emod (cfg : Config) (now last : Nat) :
    (elapsed cfg now last : Int) = ((now : Int) - (last : Int)) % (2 ^ cfg.timeW : Int) := by
  have hle : last % 2 ^ cfg.timeW ≤ 2 ^ cfg.timeW := (Nat.mod_lt _ (Nat.two_pow_pos _)).le
  have hsplit : (last : Int) % 2 ^ cfg.timeW + 2 ^ cfg.timeW * (last / 2 ^ cfg.timeW) = last := Int.emod_add_mul_ediv _ _
  calc (elapsed cfg now last : Int)
      = ((now : Int) + (2 ^ cfg.timeW - (last : Int) % 2 ^ cfg.timeW)) % 2 ^ cfg.timeW := by
        simp [elapsed, Nat.cast_sub hle]
    _ = ((now : Int) - last + 2 ^ cfg.timeW * (1 + last / 2 ^ cfg.timeW)) % 2 ^ cfg.timeW := by
        congr 1
        linarith
    _ = ((now : Int) - last) % 2 ^ cfg.timeW := Int.add_mul_emod_self_left _ _ _

/-- Settles O38: the two conjuncts of `fresh`, with the elapsed time of `elapsed_eq_emod`. -/
theorem freshIsModularDifference : Obligations.FreshIsModularDifference := by
  unfold Obligations.FreshIsModularDifference
  intro cfg c now
  rw [← elapsed_eq_emod, Nat.cast_lt]
  simp [fresh]

end Sys2Proof.Machine
end

section
/-! SUPPORT. A procedure has the same effects whichever operation runs it (10_state.md R23): its states differ at most in what a
completion overwrites. A poll's `Send` and `Fetch` therefore do what the operations SEND and FETCH do. -/

namespace Sys2Proof.Machine

/-! ### States with the same effects -/

/-- The states differ at most in what `State.complete` writes: RES, ERR, BUSY, `step` and the operation in progress. -/
def State.SameEffects (s t : State) : Prop := s.complete 0 0 = t.complete 0 0

theorem State.SameEffects.symm {s t : State} (h : s.SameEffects t) : t.SameEffects s := Eq.symm h

theorem State.SameEffects.trans {s t u : State} (h : s.SameEffects t) (g : t.SameEffects u) : s.SameEffects u := Eq.trans h g

theorem State.SameEffects.exists_eq {s t : State} (h : s.SameEffects t) :
    ∃ res err busy k a, s = { t with res := res, err := err, busy := busy, seqStep := k, activity := a } := by
  refine ⟨s.res, s.err, s.busy, s.seqStep, s.activity, ?_⟩
  cases s
  cases t
  cases h
  rfl

theorem State.SameEffects.cfg {s t : State} (h : s.SameEffects t) : s.cfg = t.cfg := by
  obtain ⟨_, _, _, _, _, rfl⟩ := h.exists_eq
  rfl

theorem State.SameEffects.raw {s t : State} (h : s.SameEffects t) : s.raw = t.raw := by
  obtain ⟨_, _, _, _, _, rfl⟩ := h.exists_eq
  rfl

theorem State.SameEffects.rawLen {s t : State} (h : s.SameEffects t) : s.rawLen = t.rawLen := by
  obtain ⟨_, _, _, _, _, rfl⟩ := h.exists_eq
  rfl

theorem State.SameEffects.answers {s t : State} (h : s.SameEffects t) : s.answers = t.answers := by
  obtain ⟨_, _, _, _, _, rfl⟩ := h.exists_eq
  rfl

theorem State.SameEffects.pollFailed {s t : State} (h : s.SameEffects t) : s.pollFailed.SameEffects t.pollFailed := by
  obtain ⟨_, _, _, _, _, rfl⟩ := h.exists_eq
  rfl

theorem State.SameEffects.markFresh {s t : State} (h : s.SameEffects t) : s.markFresh.SameEffects t.markFresh := by
  obtain ⟨_, _, _, _, _, rfl⟩ := h.exists_eq
  rfl

theorem State.SameEffects.fetched {s t : State} (h : s.SameEffects t) (chunks : List (Vector Byte 8)) (extra : Nat)
    (rest : List Answer) : (s.fetched chunks extra rest).SameEffects (t.fetched chunks extra rest) := by
  obtain ⟨_, _, _, _, _, rfl⟩ := h.exists_eq
  rfl

/-- R21: a completion overwrites all the difference. -/
theorem State.SameEffects.complete {s t : State} (h : s.SameEffects t) (res : DWord) (err : Word) :
    s.complete res err = t.complete res err := by
  obtain ⟨_, _, _, _, _, rfl⟩ := h.exists_eq
  rfl

theorem State.SameEffects.succeed {s t : State} (h : s.SameEffects t) (hi lo : Word) : succeed s hi lo = succeed t hi lo :=
  congrArg Host.Outcome.next (h.complete _ _)

theorem State.SameEffects.raise {s t : State} (h : s.SameEffects t) (e : Err) (lo : Word) (u : Bool) :
    raise s e lo u = raise t e lo u := by
  simp only [Machine.raise, h.cfg, h.complete]

/-! ### Procedures with the same effects -/

/-- The procedures end alike in states with the same effects, or both wait. -/
inductive Proc.SameEffects : Proc → Proc → Prop
  | done {s t : State} (h : s.SameEffects t) : Proc.SameEffects (.done s) (.done t)
  | raised {s t : State} (e : Err) (h : s.SameEffects t) : Proc.SameEffects (.raised e s) (.raised e t)
  | waiting (s t : State) : Proc.SameEffects (.waiting s) (.waiting t)
  | halted (f : Fault) : Proc.SameEffects (.halted f) (.halted f)

theorem Proc.SameEffects.andThen {p q : Proc} {k l : State → Proc} (h : p.SameEffects q)
    (hk : ∀ s t, s.SameEffects t → (k s).SameEffects (l t)) : (p.andThen k).SameEffects (q.andThen l) := by
  cases h with
  | done h => exact hk _ _ h
  | raised e h => exact .raised e h
  | waiting s t => exact .waiting s t
  | halted f => exact .halted f

theorem Proc.SameEffects.onRaise {p q : Proc} {g : State → State} (h : p.SameEffects q)
    (hg : ∀ s t, s.SameEffects t → (g s).SameEffects (g t)) : (p.onRaise g).SameEffects (q.onRaise g) := by
  cases h with
  | done h => exact .done h
  | raised e h => exact .raised e (hg _ _ h)
  | waiting s t => exact .waiting s t
  | halted f => exact .halted f

/-- An operation in progress that waits at a call is not over. -/
theorem State.AwaitsAnswer.not_finished {t : State} (h : t.AwaitsAnswer) : ¬ t.finished := by
  rintro ⟨hidle, -⟩
  obtain ⟨o, ho⟩ | ⟨o, ho⟩ := h.due
  · simp [ho] at hidle
  · simp [ho] at hidle

/-- An operation whose last procedure has the same effects ends in the same state. -/
theorem Proc.SameEffects.finish {p q : Proc} {ok : State → Result} {err : Err → State → Result} {s t : State} (h : p.SameEffects q)
    (hok : ∀ u v, u.SameEffects v → ok u = ok v) (herr : ∀ e u v, u.SameEffects v → err e u = err e v)
    (hp : p.Unpublished s) (hr : p.finish ok err = .next t) (ht : t.finished) : q.finish ok err = .next t := by
  cases h with
  | done h => exact (hok _ _ h).symm.trans hr
  | raised e h => exact (herr e _ _ h).symm.trans hr
  | waiting u v =>
    cases hr
    exact absurd ht hp.2.not_finished
  | halted f => cases hr

/-! ### The procedures of a poll -/

/-- R150: what a SEND of the frame in `W1`, `W2` does is decided by the answers, not by its owner. -/
theorem sendRun_begun_sameEffects (s : State) (o o' : SendOwner) : (sendRun (s.begun o)).SameEffects (sendRun (s.begun o')) := by
  obtain ⟨oks, b, rest, hl, ha⟩ | ⟨oks, rest, hl, ha⟩ | ⟨oks, hl, ha⟩ := send_answers s.answers
  · rw [sendRun_begun_ok s o oks b rest ⟨hl, ha⟩, sendRun_begun_ok s o' oks b rest ⟨hl, ha⟩]
    split
    · exact .done rfl
    · exact .raised _ rfl
  · rw [sendRun_begun_err s o oks rest hl ha, sendRun_begun_err s o' oks rest hl ha]
    exact .raised _ rfl
  · rw [sendRun_begun_wait s o oks hl ha, sendRun_begun_wait s o' oks hl ha]
    exact .waiting _ _

/-- R158: a SEND that is done holds the head of a response, so that a FETCH after it is legal. -/
theorem rawLen_of_sendRun_done {s u : State} {o : SendOwner} (h : sendRun (s.begun o) = .done u) : u.rawLen.val = 8 := by
  obtain ⟨oks, b, rest, hl, ha⟩ | ⟨oks, rest, hl, ha⟩ | ⟨oks, hl, ha⟩ := send_answers s.answers
  · rw [sendRun_begun_ok s o oks b rest ⟨hl, ha⟩] at h
    split at h
    · cases h
      rfl
    · cases h
  · rw [sendRun_begun_err s o oks rest hl ha] at h
    cases h
  · rw [sendRun_begun_wait s o oks hl ha] at h
    cases h

/-- R162: what a FETCH does is decided by the buffer and the answers, not by its owner. -/
theorem fetchRun_begun_sameEffects {s t : State} (h : s.SameEffects t) (o o' : FetchOwner) :
    (fetchRun (fetchBegin o s)).SameEffects (fetchRun (fetchBegin o' t)) := by
  obtain ⟨chunks, rest, hl, ha⟩ | ⟨chunks, rest, hl, ha⟩ | ⟨chunks, hl, ha⟩ :=
    fetch_answers (fetchReads (be16 t.raw 3)) t.answers
  · rw [fetchRun_begun_ok s o chunks rest (h.raw ▸ hl) (h.answers.trans ha), fetchRun_begun_ok t o' chunks rest hl ha]
    exact .done (h.fetched chunks 0 rest)
  · rw [fetchRun_begun_err s o chunks rest (h.raw ▸ hl) (h.answers.trans ha), fetchRun_begun_err t o' chunks rest hl ha]
    exact .raised _ (h.fetched chunks 1 rest)
  · rw [fetchRun_begun_wait s o chunks (h.raw ▸ hl) (h.answers.trans ha), fetchRun_begun_wait t o' chunks hl ha]
    exact .waiting _ _

/-- R180: `Parse` looks at the buffer, the working registers and the decoded response only. -/
theorem parseProc_sameEffects {s t : State} (h : s.SameEffects t) : (parseProc s).SameEffects (parseProc t) := by
  obtain ⟨_, _, _, _, _, rfl⟩ := h.exists_eq
  simp only [parseProc]
  cases parseCore t.cfg t.raw t.rawLen.val ⟨t.work, t.dec⟩ with
  | ok p => exact .done rfl
  | fail e p => exact .raised e rfl

theorem afterFetch_sameEffects {f g : Proc} (h : f.SameEffects g) : (afterFetch f).SameEffects (afterFetch g) :=
  (h.onRaise fun _ _ => State.SameEffects.pollFailed).andThen fun _ _ hu =>
    (parseProc_sameEffects hu).andThen fun _ _ hv => .done hv.markFresh

/-- R243: after its `Send` a poll goes on with its `Fetch`. -/
theorem afterSend_done (o : PollOwner) (u : State) : afterSend o (.done u) = afterFetch (fetchRun (fetchBegin (.poll o) u)) := rfl

theorem afterSend_sameEffects (o o' : PollOwner) {f g : Proc} (h : f.SameEffects g) :
    (afterSend o f).SameEffects (afterSend o' g) :=
  (h.onRaise fun _ _ => State.SameEffects.pollFailed).andThen fun _ _ hu =>
    afterFetch_sameEffects (fetchRun_begun_sameEffects hu (.poll o) (.poll o'))

/-- R243: a poll's calls begin with its frame in the working registers. -/
theorem runPoll_eq (o : PollOwner) (s : State) :
    runPoll o s = endPoll o (afterSend o (sendRun (s.framedPoll.begun (.poll o)))) := by
  rw [runPoll, pollSend, pollBegin_eq]

theorem sendRun_framedPoll_unpublished (o : SendOwner) (s : State) : (sendRun (s.framedPoll.begun o)).Unpublished s :=
  sendRun_unpublished ⟨rfl, rfl, rfl⟩ rfl

end Sys2Proof.Machine
end

section
/-! SUPPORT. GET (44_poll_cache.md R240): a hit costs nothing, and a miss is the poll of REFRESH. -/

namespace Sys2Proof.Machine

theorem exec_refresh (s : State) :
    exec .refresh s = endRefresh (afterSend .refresh (sendRun (s.framedPoll.begun (.poll .refresh)))) := runPoll_eq .refresh s

/-- R242: a hit. -/
theorem exec_get_of_fresh {s : State} (h : fresh s.cfg s.cache s.now = true) : exec .get s = .next (s.complete 0 0) := if_pos h

/-- R240: a miss. -/
theorem exec_get_of_stale {s : State} (h : fresh s.cfg s.cache s.now = false) :
    exec .get s = endRefresh (afterSend .get (sendRun (s.framedPoll.begun (.poll .get)))) :=
  calc exec .get s
      = runPoll .get s := if_neg (Bool.eq_false_iff.mp h)
    _ = _ := runPoll_eq .get s

/-- Settles O39: the polls of GET and REFRESH differ in their owner alone, so they have the same effects and the same end. -/
theorem getHitsOrRefreshes : Obligations.GetHitsOrRefreshes := by
  unfold Obligations.GetHitsOrRefreshes
  refine ⟨fun _ => exec_get_of_fresh, fun s u hstale hrefresh hu => ?_⟩
  have hpoll := afterSend_sameEffects .refresh .get (sendRun_begun_sameEffects s.framedPoll (.poll .refresh) (.poll .get))
  rw [exec_get_of_stale hstale]
  rw [exec_refresh] at hrefresh
  exact hpoll.finish (fun _ _ h => h.succeed 0 1) (fun e _ _ h => h.raise e 0 false)
    (afterSend_unpublished .refresh (sendRun_framedPoll_unpublished _ s)) hrefresh hu

end Sys2Proof.Machine
end

section
/-! SUPPORT. REFRESH (44_poll_cache.md R243 to R246) composed of the operations SEND, FETCH and PARSE: what an operation published tells how
its procedure ended, and REFRESH goes on from there. -/

namespace Sys2Proof.Machine

/-! ### What a published end tells about the procedure -/

/-- R301: the ERR word of an error is not `OK`. -/
theorem Err.word_ne_zero (cfg : Config) (u : Bool) (e : Err) : e.word cfg u ≠ 0 := by
  rw [Err.word, errWord_eq]
  exact errReg_ne_zero e.code_ne_zero

/-- R300: how the last procedure ended of an operation that is over in `t`, told by its ERR. The consumer reads, whose errors carry UNAVAIL
(R271), are not meant. -/
inductive Proc.PublishedIn (t : State) : Proc → Prop
  | done {u : State} (h : u.SameEffects t) (herr : t.err = 0) : Proc.PublishedIn t (.done u)
  | raised {u : State} (e : Err) (h : u.SameEffects t) (herr : t.err = e.word t.cfg false) : Proc.PublishedIn t (.raised e u)

theorem publishedIn_of_succeed {u t : State} {hi lo : Word} (h : succeed u hi lo = .next t) : (Proc.done u).PublishedIn t := by
  cases h
  exact .done rfl rfl

theorem publishedIn_of_raise {u t : State} {e : Err} {lo : Word} (h : raise u e lo false = .next t) :
    (Proc.raised e u).PublishedIn t := by
  cases h
  exact .raised e rfl rfl

theorem Proc.publishedIn_of_finish {p : Proc} {ok : State → Result} {err : Err → State → Result} {s t : State} (hp : p.Unpublished s)
    (hok : ∀ u, ok u = .next t → (Proc.done u).PublishedIn t) (herr : ∀ e u, err e u = .next t → (Proc.raised e u).PublishedIn t)
    (hr : p.finish ok err = .next t) (ht : t.finished) : p.PublishedIn t := by
  cases p with
  | done u => exact hok u hr
  | raised e u => exact herr e u hr
  | waiting u =>
    cases hr
    exact absurd ht hp.2.not_finished
  | halted f => cases hr

theorem Proc.PublishedIn.of_sameEffects {p q : Proc} {t : State} (hp : p.PublishedIn t) (h : p.SameEffects q) : q.PublishedIn t := by
  cases hp with
  | done hu herr =>
    cases h with
    | done h => exact .done (h.symm.trans hu) herr
  | raised e hu herr =>
    cases h with
    | raised _ h => exact .raised e (h.symm.trans hu) herr

theorem Proc.PublishedIn.done_of_ok {p : Proc} {t : State} (hp : p.PublishedIn t) (h : t.err = 0) :
    ∃ u, p = .done u ∧ u.SameEffects t := by
  cases hp with
  | done hu herr => exact ⟨_, rfl, hu⟩
  | raised e hu herr => exact absurd (herr.symm.trans h) (e.word_ne_zero _ _)

theorem Proc.PublishedIn.raised_of_err {p : Proc} {t : State} (hp : p.PublishedIn t) (h : t.err ≠ 0) :
    ∃ e u, p = .raised e u ∧ u.SameEffects t ∧ t.err = e.word t.cfg false := by
  cases hp with
  | done hu herr => exact absurd herr h
  | raised e hu herr => exact ⟨e, _, rfl, hu, herr⟩

/-! ### SEND, FETCH and PARSE -/

/-- R8: the poll command's length is legal. -/
theorem pollLen_legal (bus : OpenParams) : (BitVec.ofNat 8 bus.pollLen.val).toNat < 3 := by
  have h := bus.pollLen.isLt
  rw [BitVec.toNat_ofNat, Nat.mod_eq_of_lt (by omega)]
  exact h

/-- R243: the SEND of the poll command. -/
def pollCommand (bus : OpenParams) : Instr :=
  .send bus.pollSeq bus.pollType (BitVec.ofNat 8 bus.pollLen.val) ((0 : Half) ++ bus.pollPayload)

theorem payload0_append (p : Half) : payload0 ((0 : Half) ++ p) = p.extractLsb' 8 8 :=
  BitVec.extractLsb'_append_eq_of_add_le (by decide)

theorem payload1_append (p : Half) : payload1 ((0 : Half) ++ p) = p.extractLsb' 0 8 :=
  BitVec.extractLsb'_append_eq_of_add_le (by decide)

/-- R243: the poll command's frame is the one that a poll sends. -/
theorem framed_pollCommand (s : State) :
    s.framed s.cfg.bus.pollSeq s.cfg.bus.pollType (BitVec.ofNat 8 s.cfg.bus.pollLen.val)
      (payload0 ((0 : Half) ++ s.cfg.bus.pollPayload)) (payload1 ((0 : Half) ++ s.cfg.bus.pollPayload)) = s.framedPoll := by
  rw [payload0_append, payload1_append, State.framedPoll]

theorem exec_pollCommand (s : State) : exec (pollCommand s.cfg.bus) s = endSend (sendRun (s.framedPoll.begun .host)) := by
  rw [pollCommand, exec_send_of_legal _ s (pollLen_legal _), framed_pollCommand]

/-- R243: REFRESH's `Send` ends as the SEND of the poll command does. -/
theorem pollSend_publishedIn {s t : State} (o : PollOwner) (h : exec (pollCommand s.cfg.bus) s = .next t) (ht : t.finished) :
    (sendRun (s.framedPoll.begun (.poll o))).PublishedIn t := by
  rw [exec_pollCommand] at h
  have hhost : (sendRun (s.framedPoll.begun .host)).PublishedIn t :=
    Proc.publishedIn_of_finish (sendRun_framedPoll_unpublished _ s) (fun _ => publishedIn_of_succeed)
      (fun _ _ => publishedIn_of_raise) h ht
  exact hhost.of_sameEffects (sendRun_begun_sameEffects _ _ _)

/-- R243: REFRESH's `Fetch` ends as a FETCH after that SEND does. -/
theorem pollFetch_publishedIn {s t u : State} (o : PollOwner) (hu : u.SameEffects s) (hhead : 8 ≤ u.rawLen.val)
    (h : exec .fetch s = .next t) (ht : t.finished) : (fetchRun (fetchBegin (.poll o) u)).PublishedIn t := by
  rw [exec_fetch_of_head (hu.rawLen ▸ hhead)] at h
  have hhost : (fetchRun (fetchBegin .host s)).PublishedIn t :=
    Proc.publishedIn_of_finish (fetchRun_unpublished ((State.SameResult.refl s).fetchBegin .host) rfl)
      (fun _ => publishedIn_of_succeed) (fun _ _ => publishedIn_of_raise) h ht
  exact hhost.of_sameEffects (fetchRun_begun_sameEffects hu.symm _ _)

/-! ### The ends of REFRESH -/

/-- R244: REFRESH with a failed `Send` or `Fetch`. -/
theorem endRefresh_pollFailed {u t : State} {e : Err} (h : u.SameEffects t) (herr : t.err = e.word t.cfg false) :
    endRefresh (.raised e u.pollFailed) = .next (t.emptied.complete 0 t.err) :=
  calc endRefresh (.raised e u.pollFailed)
      = raise u.pollFailed e 0 false := rfl
    _ = raise t.pollFailed e 0 false := h.pollFailed.raise e 0 false
    _ = .next (t.emptied.complete 0 (e.word t.cfg false)) := rfl
    _ = .next (t.emptied.complete 0 t.err) := by rw [herr]

/-- R180: `Parse` issues no call, so it never waits. -/
theorem parseProc_cases (s : State) : (∃ u, parseProc s = .done u) ∨ ∃ e u, parseProc s = .raised e u := by
  unfold parseProc
  split
  · exact .inl ⟨_, rfl⟩
  · exact .inr ⟨_, _, rfl⟩

/-- R245, R246: REFRESH from its `Parse` on, against the operation PARSE: an error ends both alike; a success marks the cache fresh. -/
theorem endRefresh_pollParse {v s t : State} (hv : v.SameEffects s) (h : exec .parse s = .next t) :
    (t.err ≠ 0 → endRefresh (pollParse v) = .next t) ∧
    (t.err = 0 → endRefresh (pollParse v) = .next (t.markFresh.complete 1 0)) := by
  have hsame : (parseProc s).SameEffects (parseProc v) := parseProc_sameEffects hv.symm
  rw [exec_parse, execParse] at h
  rw [pollParse]
  generalize parseProc v = q at hsame ⊢
  obtain ⟨x, hx⟩ | ⟨e, x, hx⟩ := parseProc_cases s
  · rw [hx] at h hsame
    cases hsame with
    | @done _ w hw =>
      cases h
      exact ⟨fun herr => absurd rfl herr, fun _ => hw.markFresh.symm.succeed 0 1⟩
  · rw [hx] at h hsame
    cases hsame with
    | @raised _ w _ hw =>
      have hend : raise w e 0 false = .next t := (hw.raise e 0 false).symm.trans h
      cases h
      exact ⟨fun _ => hend, fun hok => absurd hok (e.word_ne_zero _ _)⟩

/-- R21: NOW is written when a request is accepted, and by no operation. -/
theorem sameNow_closed (s : State) : Closed fun t => t.now = s.now where
  answered := fun _ _ _ _ _ h _ => h
  head := fun _ _ h => h
  status := fun _ _ h => h
  chunk := fun _ _ h _ => h
  setup := fun _ _ _ _ _ h => h
  parse := parse_all (fun _ _ _ h => h) (fun _ h => h)
  pollParse := pollParse_all (fun _ _ _ h => h) (fun _ h => h) (fun _ h => h)
  pollFailed := fun _ h => h
  interval := fun _ _ h => h
  online := fun _ _ h => h
  powercap := fun _ _ h => h
  complete := fun _ _ _ h => h

theorem exec_now {i : Instr} {s t : State} (h : exec i s = .next t) : t.now = s.now := (sameNow_closed s).exec rfl h

/-- Settles O40: each operation's published end is that of the same step of the poll; REFRESH goes on or ends accordingly. -/
theorem refreshIsSendFetchParse : Obligations.RefreshIsSendFetchParse := by
  unfold Obligations.RefreshIsSendFetchParse
  intro s s1 hsend hfin1
  have hS := pollSend_publishedIn .refresh hsend hfin1
  rw [exec_refresh]
  refine ⟨fun herr1 => ?_, fun hok1 s2 hfetch hfin2 => ?_⟩
  · obtain ⟨e, u, hu, hsame, hword⟩ := hS.raised_of_err herr1
    rw [hu]
    exact endRefresh_pollFailed hsame hword
  obtain ⟨u, hu, hsame1⟩ := hS.done_of_ok hok1
  have hF := pollFetch_publishedIn .refresh hsame1 (rawLen_of_sendRun_done hu).ge hfetch hfin2
  rw [hu]
  refine ⟨fun herr2 => ?_, fun hok2 s3 hparse => ?_⟩
  · obtain ⟨e, v, hv, hsame, hword⟩ := hF.raised_of_err herr2
    rw [afterSend_done, hv]
    exact endRefresh_pollFailed hsame hword
  obtain ⟨v, hv, hsame2⟩ := hF.done_of_ok hok2
  have hnow : s3.now = s.now := (exec_now hparse).trans ((exec_now hfetch).trans (exec_now hsend))
  rw [afterSend_done, hv, ← hnow]
  exact endRefresh_pollParse hsame2 hparse

end Sys2Proof.Machine
end

section
/-! SUPPORT. A poll whose command fails (44_poll_cache.md R244): the failures of SEND and FETCH, carried to REFRESH. -/

namespace Sys2Proof.Machine

/-- R244: the SEND of the poll command ended with an error. -/
theorem exec_refresh_of_sendFailed {s t : State} (h : exec (pollCommand s.cfg.bus) s = .next t) (ht : t.finished) (herr : t.err ≠ 0) :
    exec .refresh s = .next (t.emptied.complete 0 t.err) :=
  (refreshIsSendFetchParse s t h ht).1 herr

/-- R244: the FETCH after it ended with an error. -/
theorem exec_refresh_of_fetchFailed {s s1 t : State} (h1 : exec (pollCommand s.cfg.bus) s = .next s1) (hs1 : s1.finished)
    (hok : s1.err = 0) (h : exec .fetch s1 = .next t) (ht : t.finished) (herr : t.err ≠ 0) :
    exec .refresh s = .next (t.emptied.complete 0 t.err) :=
  ((refreshIsSendFetchParse s s1 h1 hs1).2 hok t h ht).1 herr

/-- R159: the SEND of the poll command, every call answered `ok`. -/
theorem exec_pollCommand_of_answersSend {s : State} {oks : List (Vector Byte 8)} {b : Vector Byte 8} {rest : List Answer}
    (h : s.answersSend oks b rest) :
    exec (pollCommand s.cfg.bus) s = .next ((s.framedPoll.sent b rest).complete (b[2].setWidth 64)
      (if b[2] = 0 then 0 else errReg (statusFlags s.cfg b[2]) b[2] 0x03)) := by
  rw [← framed_pollCommand]
  exact sendCompletes _ _ _ _ s oks b rest (Nat.le_of_lt_succ (pollLen_legal _)) h

/-- R160: the SEND of the poll command, a call answered `err`. -/
theorem exec_pollCommand_of_err {s : State} {oks : List (Vector Byte 8)} {rest : List Answer} (hl : oks.length ≤ 7)
    (h : s.answers = oks.map .ok ++ .err :: rest) :
    exec (pollCommand s.cfg.bus) s = .next ((s.framedPoll.sendAborted oks.length rest).complete 0
      (errReg 0 (BitVec.ofNat 8 (oks.length + 1)) 0x02)) := by
  rw [← framed_pollCommand]
  exact sendStopsAtTransportError _ _ _ _ s oks rest (Nat.le_of_lt_succ (pollLen_legal _)) hl h

/-- Settles O42: SEND fails by O25 or by the status of O24, or FETCH fails by O28; REFRESH then ends by O40. -/
theorem pollFailureEmptiesResponse : Obligations.PollFailureEmptiesResponse := by
  unfold Obligations.PollFailureEmptiesResponse
  intro s oks b chunks rest
  refine ⟨fun hl ha => ?_, fun ha hstatus => ?_, fun ha hstatus hl => ?_⟩
  · exact exec_refresh_of_sendFailed (exec_pollCommand_of_err hl ha) ⟨rfl, rfl⟩ (errReg_ne_zero (by decide))
  · have hsend := exec_pollCommand_of_answersSend ha
    rw [if_neg hstatus] at hsend
    exact exec_refresh_of_sendFailed hsend ⟨rfl, rfl⟩ (errReg_ne_zero (by decide))
  · have hsend := exec_pollCommand_of_answersSend ha
    rw [if_pos hstatus] at hsend
    have hlen : chunks.length < fetchReads (be16 (s.raw.writeBytes 0 b.toList) 3) := by rwa [Memory.be16_head_len]
    have hfetch := fetchErrors.2 ((s.framedPoll.sent b (chunks.map .ok ++ .err :: rest)).complete (b[2].setWidth 64) 0)
      chunks rest (le_refl 8) hlen rfl
    exact exec_refresh_of_fetchFailed hsend ⟨rfl, rfl⟩ rfl hfetch ⟨rfl, rfl⟩ (errReg_ne_zero (by decide))

end Sys2Proof.Machine
end

section
/-! SUPPORT. A poll inside another operation (44_poll_cache.md R243): it ends as REFRESH does, and its owner then publishes its own end of
it: a consumer read looks the record up (45_consumer_ops.md R261), a write to ONLINE records the outcome (R285). -/

namespace Sys2Proof.Machine

/-! ### How a poll ended, told by REFRESH -/

/-- R243: the calls and the parse of a poll do not depend on its owner. -/
theorem pollSend_sameEffects (o o' : PollOwner) (s : State) :
    (pollSend o (pollBegin o s)).SameEffects (pollSend o' (pollBegin o' s)) := by
  rw [pollSend, pollSend, pollBegin_eq, pollBegin_eq]
  exact afterSend_sameEffects o o' (sendRun_begun_sameEffects s.framedPoll (.poll o) (.poll o'))

theorem pollSend_unpublished (o : PollOwner) (s : State) : (pollSend o (pollBegin o s)).Unpublished s :=
  afterSend_unpublished o (sendRun_sendBegin_unpublished _ _ _ _ _ _ s)

/-- R243 to R246: where REFRESH is over in `u`, the poll `p` succeeded and RES is 1, or it raised the error that ERR holds. -/
inductive Proc.RefreshedTo (u : State) : Proc → Prop
  | done {v : State} (h : u = v.complete 1 0) : Proc.RefreshedTo u (.done v)
  | raised {v : State} (e : Err) (h : u = v.complete 0 (e.word v.cfg false)) : Proc.RefreshedTo u (.raised e v)

/-- R243: whatever operation polls, its poll ends as that of REFRESH from the same state. -/
theorem pollSend_refreshedTo {s u : State} (o : PollOwner) (h : exec .refresh s = .next u) (hu : u.finished) :
    (pollSend o (pollBegin o s)).RefreshedTo u := by
  have hsame := pollSend_sameEffects .refresh o s
  have hunpub := pollSend_unpublished .refresh s
  have hend : endRefresh (pollSend .refresh (pollBegin .refresh s)) = .next u := h
  generalize pollSend .refresh (pollBegin .refresh s) = p at hsame hunpub hend
  generalize pollSend o (pollBegin o s) = q at hsame ⊢
  cases hsame with
  | done hv =>
    cases (hv.succeed 0 1).symm.trans hend
    exact .done rfl
  | raised e hv =>
    cases (hv.raise e 0 false).symm.trans hend
    exact .raised e rfl
  | waiting v w =>
    cases hend
    exact absurd hu hunpub.2.not_finished
  | halted f => cases hend

/-! ### Consumer reads (45_consumer_ops.md section 1) -/

/-- R262 to R270: a consumer read is the procedure `Read` for its scalar and its record. -/
theorem exec_of_readOf {i : Instr} {f : ReadField} {n : Nat} (s : State) (h : readOf i = some (f, n)) :
    exec i s = consumerRead f n s := by
  cases i with
  | rdTemp _ | rdTempId _ | rdFreq _ | rdFreqId _ | rdPowr _ | rdPowrId _ | rdPowrTag _ | rdPowrAcc _ =>
    cases h
    rfl
  | rdCaps index =>
    obtain ⟨c, hc, hread⟩ := Option.map_eq_some_iff.mp h
    cases hread
    simp only [exec, execRdCaps, hc]
  | _ => cases h

theorem consumerRead_of_fresh {f : ReadField} {n : Nat} {s : State} (h : fresh s.cfg s.cache s.now = true) :
    consumerRead f n s = readEnd f n s := if_pos h

theorem consumerRead_of_stale {f : ReadField} {n : Nat} {s : State} (h : fresh s.cfg s.cache s.now = false) :
    consumerRead f n s = endRead f n (pollSend (.read f n) (pollBegin (.read f n) s)) := if_neg (Bool.eq_false_iff.mp h)

/-- R271, R313: NoSuchSensor is published with RES = 0 and UNAVAIL set. -/
theorem raise_noSuchSensor (s : State) : raise s .noSuchSensor 0 true = .next (s.complete 0 (errReg 1 0 0x09)) := raise_eq s _ 0 true

/-- R261: the two ends of the lookup. -/
theorem readEnd_cases (f : ReadField) (n : Nat) (s : State) :
    (∀ w, s.dec.lookup f n = some w → readEnd f n s = .next (s.complete (w.setWidth 64) 0)) ∧
    (s.dec.lookup f n = none → readEnd f n s = .next (s.complete 0 (errReg 1 0 0x09))) := by
  refine ⟨fun w hw => ?_, fun hnone => ?_⟩
  · rw [readEnd, hw]
    exact succeed_lo s w
  · rw [readEnd, hnone]
    exact raise_noSuchSensor s

/-- R261: the lookup reads the decoded response, which a completion leaves. -/
theorem readEnd_complete (f : ReadField) (n : Nat) (s : State) (res : DWord) (err : Word) :
    readEnd f n (s.complete res err) = readEnd f n s := by
  simp only [readEnd, State.complete_dec]
  cases s.dec.lookup f n with
  | none => rfl
  | some w => rfl

/-- R301: the flags stand above `info` and `code`, so flags can be set alone. -/
theorem errReg_or_flags (f g : Half) (info code : Byte) : errReg f info code ||| errReg g 0 0 = errReg (f ||| g) info code := by
  show (f ++ info ++ code : BitVec (16 + 8 + 8)) ||| g ++ (0 : Byte) ++ (0 : Byte) = (f ||| g) ++ info ++ code
  simp only [BitVec.or_append, BitVec.ofNat_eq_ofNat, BitVec.or_zero]

/-- R271, R301: UNAVAIL is bit 16 of ERR, and setting it changes nothing else of an error's word. -/
theorem Err.word_unavail (cfg : Config) (e : Err) : e.word cfg true = e.word cfg false ||| 0x00010000 := by
  have hflags : ∀ v : Bool, (1 + if v then 2 else 0 : Half) = (0 + if v then 2 else 0) ||| 1 := by decide
  calc e.word cfg true
      = errReg (1 + if e.invalidValue cfg then 2 else 0) e.info e.code := errWord_eq _ _ true _
    _ = errReg (0 + if e.invalidValue cfg then 2 else 0) e.info e.code ||| errReg 1 0 0 := by rw [hflags, errReg_or_flags]
    _ = e.word cfg false ||| 0x00010000 := congrArg (· ||| errReg 1 0 0) (errWord_eq _ _ false _).symm

/-- R261: what a consumer read with a cache that is not fresh does, once its poll is over. -/
theorem endRead_of_refreshedTo {f : ReadField} {n : Nat} {u : State} {p : Proc} (h : p.RefreshedTo u) :
    (u.err ≠ 0 → endRead f n p = .next (u.complete 0 (u.err ||| 0x00010000))) ∧
    (u.err = 0 → endRead f n p = readEnd f n u) := by
  cases h with
  | done h =>
    subst h
    exact ⟨fun herr => absurd rfl herr, fun _ => (readEnd_complete f n _ 1 0).symm⟩
  | @raised v e h =>
    subst h
    refine ⟨fun _ => ?_, fun hok => absurd hok (e.word_ne_zero _ _)⟩
    calc endRead f n (.raised e v)
        = .next (v.complete 0 (e.word v.cfg true)) := rfl
      _ = _ := by rw [e.word_unavail]; rfl

/-- Settles O48: a fresh cache is looked up at once; otherwise the read's poll ends as REFRESH, and the error or the lookup follows. -/
theorem readRunsGetThenLooksUp : Obligations.ReadRunsGetThenLooksUp := by
  unfold Obligations.ReadRunsGetThenLooksUp
  intro s i f n hread
  rw [exec_of_readOf s hread]
  refine ⟨fun hfresh => ?_, fun hstale u hrefresh hu => ?_⟩
  · rw [consumerRead_of_fresh hfresh]
    exact readEnd_cases f n s
  · obtain ⟨hfailed, hpolled⟩ :=
      endRead_of_refreshedTo (f := f) (n := n) (pollSend_refreshedTo (.read f n) hrefresh hu)
    rw [consumerRead_of_stale hstale]
    refine ⟨hfailed, fun hok => ?_⟩
    rw [hpolled hok]
    exact readEnd_cases f n u

end Sys2Proof.Machine
end

section
/-! SUPPORT. CSRW (45_consumer_ops.md R284 to R286): the interval, the teardown and the poll of a write to ONLINE, and the refusals. -/

namespace Sys2Proof.Machine

/-- R286: the interval is IMM in `TIME_W` bits. -/
theorem exec_csrw_interval (imm : Word) (s : State) : exec (.csrw 0 imm) s =
    .next ({ s with cache := { s.cache with interval := imm.toNat % 2 ^ s.cfg.timeW } }.complete 0 0) := rfl

/-- R284: the registers that are read-only or reserved. -/
theorem exec_csrw_of_readOnly {n : Byte} (imm : Word) (s : State) (h : 1 < n.toNat) :
    exec (.csrw n imm) s = .next (s.complete 0 (errReg 0 0 0x0A)) :=
  calc exec (.csrw n imm) s
      = execCsrw n imm s := rfl
    _ = raiseIllegal s := execCsrw_of_readOnly imm s h
    _ = _ := raiseIllegal_eq s

/-- Settles O56: the write of `exec_csrw_interval` and the refusal of `exec_csrw_of_readOnly`. -/
theorem csrwIntervalAndRefusals : Obligations.CsrwIntervalAndRefusals := by
  unfold Obligations.CsrwIntervalAndRefusals
  exact fun s imm => ⟨exec_csrw_interval imm s, fun n => exec_csrw_of_readOnly imm s⟩

/-- R285: 0 written to ONLINE. -/
theorem exec_csrw_offline {imm : Word} (s : State) (h : imm.getLsbD 0 = false) :
    exec (.csrw 1 imm) s = .next ({ s.emptied with online := false }.complete 0 0) :=
  calc exec (.csrw 1 imm) s
      = writeOnline imm s := rfl
    _ = _ := if_neg (Bool.eq_false_iff.mp h)

/-- R285: 1 written to ONLINE polls, whatever `online` and the cache hold. -/
theorem exec_csrw_online {imm : Word} (s : State) (h : imm.getLsbD 0 = true) :
    exec (.csrw 1 imm) s = endOnline (pollSend .online (pollBegin .online s)) :=
  calc exec (.csrw 1 imm) s
      = writeOnline imm s := rfl
    _ = _ := if_pos h

/-- R285: `online` becomes 1 when REFRESH reports no error and 0 when it does; all else is as REFRESH leaves it. -/
theorem endOnline_of_refreshedTo {u : State} {p : Proc} (h : p.RefreshedTo u) :
    endOnline p = .next { u with online := decide (u.err = 0) } := by
  cases h with
  | done h =>
    subst h
    rfl
  | @raised v e h =>
    subst h
    have hoffline : decide (e.word v.cfg false = 0) = false := decide_eq_false (e.word_ne_zero _ _)
    calc endOnline (.raised e v)
        = .next ({ v with online := false }.complete 0 (e.word v.cfg false)) := rfl
      _ = _ := by rw [State.complete_err, hoffline]; rfl

/-- Settles O57: the teardown, and the end of the poll that REFRESH ends in `u`. -/
theorem csrwOnline : Obligations.CsrwOnline := by
  unfold Obligations.CsrwOnline
  refine fun s imm => ⟨exec_csrw_offline s, fun hbit u hrefresh hu => ?_⟩
  rw [exec_csrw_online s hbit]
  exact endOnline_of_refreshedTo (pollSend_refreshedTo .online hrefresh hu)

end Sys2Proof.Machine
end

section
/-! SUPPORT. SET_POWERCAP (45_consumer_ops.md R275 to R278): the SEND of its frame, and the ends that follow it. -/

namespace Sys2Proof.Machine

/-- R275, R276: the calls begin with the frame of the value in the working registers. -/
theorem exec_setPowercap (v : Half) (s : State) :
    exec (.setPowercap v) s = endPowercap v (sendRun ((s.framedPowercap v).begun (.powercap v))) :=
  congrArg (fun t => endPowercap v (sendRun t)) (powercapBegin_eq v s)

/-- R277: status 0 stores the value. -/
theorem endPowercap_done (v : Half) (s : State) :
    endPowercap v (.done s) = .next ({ s with userPowercap := v }.complete 0 0) := rfl

/-- R278: an error ends a SET_POWERCAP as it ends a SEND. -/
theorem endPowercap_raised (v : Half) (e : Err) (s : State) : endPowercap v (.raised e s) = endSend (.raised e s) := rfl

/-- Settles O52: the eight calls are `sendRun_begun_ok`, with status 0. -/
theorem setPowercapCompletes : Obligations.SetPowercapCompletes := by
  unfold Obligations.SetPowercapCompletes
  intro v s oks b rest hanswers hstatus
  have hframed : (s.framedPowercap v).answersSend oks b rest := hanswers
  rw [exec_setPowercap, sendRun_begun_ok _ _ oks b rest hframed, if_pos hstatus, endPowercap_done]
  rfl

/-- Settles O53: a status that is not 0 is `sendRun_begun_ok`, a call answered `err` is `sendRun_begun_err`; both end as in a SEND. -/
theorem setPowercapFailureKeepsRegister : Obligations.SetPowercapFailureKeepsRegister := by
  unfold Obligations.SetPowercapFailureKeepsRegister
  intro v s oks b rest
  refine ⟨fun hanswers hstatus => ?_, fun hl hanswers => ?_⟩
  · have hframed : (s.framedPowercap v).answersSend oks b rest := hanswers
    rw [exec_setPowercap, sendRun_begun_ok _ _ oks b rest hframed, if_neg hstatus, endPowercap_raised, endSend_protocol,
      State.complete_inProgress]
    rfl
  · have hframed : (s.framedPowercap v).answers = oks.map .ok ++ .err :: rest := hanswers
    rw [exec_setPowercap, sendRun_begun_err _ _ oks rest hl hframed, endPowercap_raised, endSend_transport,
      State.complete_inProgress]

end Sys2Proof.Machine
end

section
/-! SUPPORT. The inspection operations RD_BLK, RD_HDR and CSRR (45_consumer_ops.md R272 to R274, R283): each answers a value of the state, or
an error, and writes nothing else. -/

namespace Sys2Proof.Machine

/-! ### RD_BLK -/

/-- R21, R272: RES is the tag, and below it the bytes of the low word in order. -/
theorem resWords_blockEntry (e : BlockEntry) :
    resWords e.tag ((0 : Byte) ++ e.format ++ e.rl ++ e.count) = e.tag ++ (0 : Byte) ++ e.format ++ e.rl ++ e.count := by
  show (e.tag ++ ((0 : Byte) ++ e.format ++ e.rl ++ e.count) : BitVec (32 + (8 + 8 + 8 + 8))) = _
  rw [BitVec.append_assoc', BitVec.append_assoc', BitVec.append_assoc']
  rfl

theorem exec_rdBlk_of_entry {s : State} {i : Half} {e : BlockEntry} (h : s.dec.blocks[i.toNat]? = some e) :
    exec (.rdBlk i) s = .next (s.complete (e.tag ++ (0 : Byte) ++ e.format ++ e.rl ++ e.count) 0) := by
  simp only [exec, execRdBlk, h, succeed, resWords_blockEntry]

theorem exec_rdBlk_of_none {s : State} {i : Half} (h : s.dec.blocks[i.toNat]? = none) :
    exec (.rdBlk i) s = .next (s.complete 0 (errReg 1 0 0x09)) := by
  simp only [exec, execRdBlk, h, raise_noSuchSensor]

/-- Settles O49: the two answers of the block table. -/
theorem rdBlkReturnsEntry : Obligations.RdBlkReturnsEntry := by
  unfold Obligations.RdBlkReturnsEntry
  exact fun s i => ⟨fun e => exec_rdBlk_of_entry, fun habove => exec_rdBlk_of_none (List.getElem?_eq_none habove)⟩

/-! ### RD_HDR -/

theorem Decoded.hdrByte_eq_getElem (d : Decoded) {k : Nat} (h : k < 40) : d.hdrByte k = d.hdrRaw[k] := by
  simp [Decoded.hdrByte, h]

theorem exec_rdHdr_of_lt (s : State) {k : Half} (h : k.toNat < 40) :
    exec (.rdHdr k) s = .next (s.complete (s.dec.hdrRaw[k.toNat].setWidth 64) 0) :=
  calc exec (.rdHdr k) s
      = succeed s 0 ((s.dec.hdrByte k.toNat).setWidth 32) := if_neg (by omega)
    _ = _ := by rw [succeed_lo, statusWord_setWidth, s.dec.hdrByte_eq_getElem h]

theorem exec_rdHdr_of_gt (s : State) {k : Half} (h : 39 < k.toNat) :
    exec (.rdHdr k) s = .next (s.complete 0 (errReg 0 0 0x0A)) :=
  calc exec (.rdHdr k) s
      = raiseIllegal s := if_pos h
    _ = _ := raiseIllegal_eq s

/-- Settles O50: the two sides of the check of the byte number. -/
theorem rdHdrReturnsByte : Obligations.RdHdrReturnsByte := by
  unfold Obligations.RdHdrReturnsByte
  exact fun s k => ⟨exec_rdHdr_of_lt s, exec_rdHdr_of_gt s⟩

/-! ### CSRR -/

/-- R283: a register of R41. -/
theorem exec_csrr_of_value {s : State} {n : Byte} {v : Word} (h : csrValue s n.toNat = some v) :
    exec (.csrr n) s = .next (s.complete (v.setWidth 64) 0) := by
  simp only [exec, execCsrr, h, succeed_lo]

/-- R283, R311: a reserved number. -/
theorem exec_csrr_of_none {s : State} {n : Byte} (h : csrValue s n.toNat = none) :
    exec (.csrr n) s = .next (s.complete 0 (errReg 0 0 0x0A)) := by
  simp only [exec, execCsrr, h, raiseIllegal_eq]

/-! R41: the values narrower than 32 bits, zero-extended. -/

theorem flagWord_eq (b : Bool) : flagWord b = if b then 1 else 0 := by cases b <;> rfl

theorem half_setWidth_word (v : Half) : v.setWidth 32 = (0 : Half) ++ v := BitVec.setWidth_eq_append (by decide)

theorem byte_setWidth_word (v : Byte) : v.setWidth 32 = (0 : BitVec 24) ++ v := BitVec.setWidth_eq_append (by decide)

/-- Settles O55: each register by its row of `csrValue`, whose zero-extensions are spelled out in the statement. -/
theorem csrrReadsRegisters : Obligations.CsrrReadsRegisters := by
  unfold Obligations.CsrrReadsRegisters
  intro s
  simp only [← flagWord_eq, ← half_setWidth_word, ← byte_setWidth_word]
  refine ⟨?_, ?_, ?_, ?_, ?_, ?_, ?_, ?_, ?_, ?_, ?_, ?_, fun n hn => exec_csrr_of_none (csrValue_eq_none s hn)⟩
  all_goals exact exec_csrr_of_value rfl

/-! ### The frame (R274) -/

/-- Settles O51: each of the three answers a value or an error, by the equations above. -/
theorem inspectionOnlyWritesResult : Obligations.InspectionOnlyWritesResult := by
  unfold Obligations.InspectionOnlyWritesResult
  intro s i n op hop
  simp only [List.mem_cons, List.not_mem_nil, or_false] at hop
  obtain rfl | rfl | rfl := hop
  · cases h : s.dec.blocks[i.toNat]? with
    | none => exact ⟨_, _, exec_rdBlk_of_none h⟩
    | some e => exact ⟨_, _, exec_rdBlk_of_entry h⟩
  · obtain h | h := Nat.lt_or_ge i.toNat 40
    · exact ⟨_, _, exec_rdHdr_of_lt s h⟩
    · exact ⟨_, _, exec_rdHdr_of_gt s h⟩
  · cases h : csrValue s n.toNat with
    | none => exact ⟨_, _, exec_csrr_of_none h⟩
    | some v => exact ⟨_, _, exec_csrr_of_value h⟩

end Sys2Proof.Machine
end

section
/-! SUPPORT. A payload length above 2 (60_exceptions.md R305): ENCODE and SEND refuse it by the same check, before anything else. -/

namespace Sys2Proof.Machine

/-- R131, R305: ENCODE fails the length check. -/
theorem exec_encode_of_long {seq ctype len : Byte} (imm : Word) (s : State) (h : 2 < len.toNat) :
    exec (.encode seq ctype len imm) s = raise s (.invalidPayloadLength len) 0 false := by
  simp only [exec, execEncode, legalLen_of_ge h]

/-- R152, R305: SEND fails the length check, before its first call. -/
theorem exec_send_of_long {seq ctype len : Byte} (imm : Word) (s : State) (h : 2 < len.toNat) :
    exec (.send seq ctype len imm) s = raise s (.invalidPayloadLength len) 0 false := by
  simp only [exec, execSend, legalLen_of_ge h]

/-- Settles O23: both operations take the error of the length check, and `raise_plain` is what that publishes. -/
theorem longPayloadRefused : Obligations.LongPayloadRefused := by
  unfold Obligations.LongPayloadRefused
  intro seq ctype len imm s hlong
  have hraise : raise s (.invalidPayloadLength len) 0 false = .next (s.complete 0 (errReg 0 len 0x01)) := raise_plain s _ 0 rfl
  exact ⟨(exec_encode_of_long imm s hlong).trans hraise, (exec_send_of_long imm s hlong).trans hraise⟩

end Sys2Proof.Machine
end

section
/-! SUPPORT. The ERR word (60_exceptions.md R301): its fields, and what an operation that is over has published in it, which is 0 or the
word of one error with the UNAVAIL bit that the operation gives to all its errors. -/

namespace Sys2Proof.Machine

/-! ### The fields of an ERR word -/

@[simp] theorem errWord_code (code info : Byte) (u v : Bool) : (errWord code info u v).extractLsb' 0 8 = code :=
  BitVec.extractLsb'_append_eq_right

@[simp] theorem errWord_info (code info : Byte) (u v : Bool) : (errWord code info u v).extractLsb' 8 8 = info := by
  show ((0 : BitVec 14) ++ BitVec.ofBool v ++ BitVec.ofBool u ++ info ++ code : BitVec (14 + 1 + 1 + 8 + 8)).extractLsb' 8 8 = info
  rw [BitVec.extractLsb'_append_eq_of_le (by decide)]
  exact BitVec.extractLsb'_append_eq_right

@[simp] theorem errWord_zeroBits (code info : Byte) (u v : Bool) : (errWord code info u v).extractLsb' 18 14 = 0 := by
  show ((0 : BitVec 14) ++ BitVec.ofBool v ++ BitVec.ofBool u ++ info ++ code : BitVec (14 + 1 + 1 + 8 + 8)).extractLsb' 18 14 = 0
  iterate 4 rw [BitVec.extractLsb'_append_eq_of_le (by decide)]
  exact BitVec.extractLsb'_eq_self

@[simp] theorem errWord_unavail (code info : Byte) (u v : Bool) : (errWord code info u v).getLsbD 16 = u := by
  simp only [errWord, BitVec.getLsbD_append, BitVec.getLsbD_ofBool]
  simp

@[simp] theorem errWord_invalidValue (code info : Byte) (u v : Bool) : (errWord code info u v).getLsbD 17 = v := by
  simp only [errWord, BitVec.getLsbD_append, BitVec.getLsbD_ofBool]
  simp

/-- R302: the codes of the list. -/
theorem Err.code_le (e : Err) : e.code.toNat ≤ 10 := by cases e <;> simp [Err.code]

/-- R304: INVALID_VALUE told by the other two fields, code 3 being that of ProtocolError alone. -/
theorem Err.invalidValue_iff (cfg : Config) (e : Err) :
    e.invalidValue cfg = true ↔ e.code = 3 ∧ e.info = cfg.bus.statusInvalidValue := by
  cases e with
  | protocolError status => simp [Err.invalidValue, Err.code, Err.info]
  | _ => simp [Err.invalidValue, Err.code]

/-! ### What an operation publishes in ERR -/

/-- ERR is 0, or it is the word of one error with `unavail` in its UNAVAIL bit. -/
def State.Reports (unavail : Bool) (t : State) : Prop := t.err = 0 ∨ ∃ e : Err, t.err = e.word t.cfg unavail

theorem succeed_reports {s t : State} {hi lo : Word} {u : Bool} (h : succeed s hi lo = .next t) : t.Reports u := by
  cases h
  exact .inl rfl

theorem raise_reports {s t : State} {e : Err} {lo : Word} {u : Bool} (h : raise s e lo u = .next t) : t.Reports u := by
  cases h
  exact .inr ⟨e, rfl⟩

theorem readEnd_reports {f : ReadField} {n : Nat} {s t : State} (h : readEnd f n s = .next t) : t.Reports true := by
  unfold readEnd at h
  split at h
  · exact raise_reports h
  · exact succeed_reports h

/-- The end of an operation that is over came from one of the two ends of its last procedure: a procedure that waits leaves the
operation in progress. -/
theorem Proc.Unpublished.finish_reports {s t : State} {p : Proc} {ok : State → Result} {err : Err → State → Result} {u : Bool}
    (hp : p.Unpublished s) (hok : ∀ v, ok v = .next t → t.Reports u) (herr : ∀ e v, err e v = .next t → t.Reports u)
    (hr : p.finish ok err = .next t) (ht : t.finished) : t.Reports u := by
  cases p with
  | done v => exact hok v hr
  | raised e v => exact herr e v hr
  | waiting v =>
    cases hr
    exact absurd ht hp.2.not_finished
  | halted f => cases hr

/-- R271: the UNAVAIL bit of the errors of a poll is set by a consumer read alone. -/
def PollOwner.unavail : PollOwner → Bool
  | .read _ _ => true
  | .refresh | .get | .online => false

theorem endPoll_reports {o : PollOwner} {s t : State} {p : Proc} (hp : p.Unpublished s) (hr : endPoll o p = .next t)
    (ht : t.finished) : t.Reports o.unavail := by
  cases o with
  | refresh | get | online => exact hp.finish_reports (fun _ => succeed_reports) (fun _ _ => raise_reports) hr ht
  | read f n => exact hp.finish_reports (fun _ => readEnd_reports) (fun _ _ => raise_reports) hr ht

theorem runPoll_reports {o : PollOwner} {s t : State} (hr : runPoll o s = .next t) (ht : t.finished) : t.Reports o.unavail :=
  endPoll_reports (pollSend_unpublished o s) hr ht

theorem consumerRead_reports {f : ReadField} {n : Nat} {s t : State} (hr : consumerRead f n s = .next t) (ht : t.finished) :
    t.Reports true := by
  unfold consumerRead at hr
  split at hr
  · exact readEnd_reports hr
  · exact runPoll_reports (o := .read f n) hr ht

/-- R271: RD_BLK sets UNAVAIL with its one error. -/
theorem exec_rdBlk_reports {n : Half} {s t : State} (hr : exec (.rdBlk n) s = .next t) : t.Reports true := by
  simp only [exec, execRdBlk] at hr
  split at hr
  · exact raise_reports hr
  · exact succeed_reports hr

/-- R301: every other operation leaves UNAVAIL 0 in its errors, an RD_CAPS of a field above 5 included. -/
theorem exec_reports_available {i : Instr} {s t : State} (hread : readOf i = none) (hblk : ∀ n, i ≠ .rdBlk n)
    (hr : exec i s = .next t) (ht : t.finished) : t.Reports false := by
  cases i with
  | encode seq ctype len imm =>
    simp only [exec, execEncode] at hr
    split at hr
    · exact raise_reports hr
    · exact succeed_reports hr
  | send seq ctype len imm =>
    simp only [exec, execSend] at hr
    split at hr
    · exact raise_reports hr
    · exact (sendRun_sendBegin_unpublished _ _ _ _ _ _ s).finish_reports (fun _ => succeed_reports) (fun _ _ => raise_reports) hr ht
  | fetch =>
    simp only [exec, execFetch] at hr
    split at hr
    · exact raise_reports hr
    · have hfetch : (fetchRun (fetchBegin .host s)).Unpublished s :=
        fetchRun_unpublished ((State.SameResult.refl s).fetchBegin .host) rfl
      exact hfetch.finish_reports (fun _ => succeed_reports) (fun _ _ => raise_reports) hr ht
  | parse => exact (parseProc_unpublished (.refl s)).finish_reports (fun _ => succeed_reports) (fun _ _ => raise_reports) hr ht
  | deinit => exact succeed_reports hr
  | refresh => exact runPoll_reports (o := .refresh) hr ht
  | get =>
    simp only [exec, execGet] at hr
    split at hr
    · exact succeed_reports hr
    · exact runPoll_reports (o := .get) hr ht
  | rdTemp _ | rdTempId _ | rdFreq _ | rdFreqId _ | rdPowr _ | rdPowrId _ | rdPowrTag _ | rdPowrAcc _ => cases hread
  | rdCaps index =>
    have hrange : capsFieldOf index = none := Option.map_eq_none_iff.mp hread
    simp only [exec, execRdCaps, hrange] at hr
    exact raise_reports hr
  | rdBlk n => exact absurd rfl (hblk n)
  | rdHdr index =>
    simp only [exec, execRdHdr] at hr
    split at hr
    · exact raise_reports hr
    · exact succeed_reports hr
  | setPowercap v =>
    exact (sendRun_sendBegin_unpublished _ _ _ _ _ _ s).finish_reports (fun _ => succeed_reports) (fun _ _ => raise_reports) hr ht
  | csrr csr =>
    simp only [exec, execCsrr] at hr
    split at hr
    · exact raise_reports hr
    · exact succeed_reports hr
  | csrw csr imm =>
    simp only [exec, execCsrw] at hr
    split at hr
    · exact succeed_reports hr
    · unfold writeOnline at hr
      split at hr
      · exact runPoll_reports (o := .online) hr ht
      · exact succeed_reports hr
    · exact raise_reports hr

/-- R271, R301: the operations are two kinds, and one UNAVAIL bit stands in every error of an operation. -/
theorem exec_reports {i : Instr} {s t : State} (hr : exec i s = .next t) (ht : t.finished) :
    ∃ u : Bool, (u = true ↔ (readOf i).isSome = true ∨ ∃ n, i = .rdBlk n) ∧ t.Reports u := by
  cases hread : readOf i with
  | some r =>
    rw [exec_of_readOf s hread] at hr
    exact ⟨true, by simp, consumerRead_reports hr ht⟩
  | none =>
    by_cases hblk : ∃ n, i = .rdBlk n
    · obtain ⟨n, rfl⟩ := hblk
      exact ⟨true, by simp, exec_rdBlk_reports hr⟩
    · exact ⟨false, by simpa using hblk, exec_reports_available hread (fun n hn => hblk ⟨n, hn⟩) hr ht⟩

/-- 00_scope.md R6 to R8: no operation changes a parameter. -/
theorem sameCfg_closed (s : State) : Closed fun t => t.cfg = s.cfg where
  answered := fun _ _ _ _ _ h _ => h
  head := fun _ _ h => h
  status := fun _ _ h => h
  chunk := fun _ _ h _ => h
  setup := fun _ _ _ _ _ h => h
  parse := parse_all (fun _ _ _ h => h) (fun _ h => h)
  pollParse := pollParse_all (fun _ _ _ h => h) (fun _ h => h) (fun _ h => h)
  pollFailed := fun _ h => h
  interval := fun _ _ h => h
  online := fun _ _ h => h
  powercap := fun _ _ h => h
  complete := fun _ _ _ h => h

theorem exec_cfg {i : Instr} {s t : State} (h : exec i s = .next t) : t.cfg = s.cfg := (sameCfg_closed s).exec rfl h

/-- Settles O59: ERR is 0, whose fields are all 0, or the word of one error, whose fields are those of `errWord`. -/
theorem errWordLayout : Obligations.ErrWordLayout := by
  unfold Obligations.ErrWordLayout
  intro i s t hr ht
  obtain ⟨u, hu, hok | ⟨e, he⟩⟩ := exec_reports hr ht
  · rw [hok]
    simp
  · have hne : t.err ≠ 0 := he ▸ e.word_ne_zero t.cfg u
    rw [exec_cfg hr] at he
    refine ⟨?_, ?_, fun hcode => ?_, ?_, ?_⟩
    · rw [he, Err.word, errWord_zeroBits]
    · rw [he, Err.word, errWord_code]
      exact e.code_le
    · rw [he, Err.word, errWord_code] at hcode
      exact absurd hcode e.code_ne_zero
    · rw [he, Err.word, errWord_invalidValue, errWord_code, errWord_info]
      exact e.invalidValue_iff s.cfg
    · rw [← hu, and_iff_right hne, he, Err.word, errWord_unavail]

end Sys2Proof.Machine
end

section
/-! SUPPORT. Operation words (30_encoding.md R90 to R95): a word is built by a format exactly when its fields are the ones the format puts
together, which is what the encoder, the decoder and the rows of the opcode table have in common. -/

namespace Sys2Proof.Machine

/-! ### A word and its fields -/

theorem eq_append_iff {v w : Nat} {x : BitVec (v + w)} {a : BitVec v} {b : BitVec w} :
    x = a ++ b ↔ x.extractLsb' w v = a ∧ x.extractLsb' 0 w = b := by
  constructor
  · rintro rfl
    exact ⟨BitVec.extractLsb'_append_eq_left, BitVec.extractLsb'_append_eq_right⟩
  · rintro ⟨rfl, rfl⟩
    rw [BitVec.extractLsb'_append_extractLsb'_eq_extractLsb' (Nat.zero_add w).symm, BitVec.extractLsb'_eq_self]

/-- A field of a field is a field of the word. -/
theorem extractLsb'_inside (x : Word) {s l s' l' : Nat} (h : s' + l' ≤ l) :
    (x.extractLsb' s l).extractLsb' s' l' = x.extractLsb' (s + s') l' := by
  apply BitVec.eq_of_getLsbD_eq
  intro k hk
  have hin : s' + k < l := by omega
  simp [hk, hin, Nat.add_assoc]

theorem eq_wordN_iff {opw : Word} {op : Byte} : opw = wordN op ↔ opField opw = op ∧ opw.extractLsb' 0 24 = 0 :=
  eq_append_iff (v := 8) (w := 24)

theorem eq_wordI_iff {opw : Word} {op : Byte} {index : Half} :
    opw = wordI op index ↔ opField opw = op ∧ opw.extractLsb' 16 8 = 0 ∧ indexField opw = index := by
  rw [wordI, eq_append_iff (v := 16) (w := 16), eq_append_iff (v := 8) (w := 8), extractLsb'_inside opw (by decide),
    extractLsb'_inside opw (by decide), and_assoc]
  rfl

theorem eq_wordC_iff {opw : Word} {op csr : Byte} :
    opw = wordC op csr ↔ opField opw = op ∧ opw.extractLsb' 8 16 = 0 ∧ csrField opw = csr := by
  rw [wordC, eq_append_iff (v := 24) (w := 8), eq_append_iff (v := 8) (w := 16), extractLsb'_inside opw (by decide),
    extractLsb'_inside opw (by decide), and_assoc]
  rfl

theorem eq_wordF_iff {opw : Word} {op seq ctype len : Byte} :
    opw = wordF op seq ctype len ↔ opField opw = op ∧ seqField opw = seq ∧ typeField opw = ctype ∧ lenField opw = len := by
  rw [wordF, eq_append_iff (v := 24) (w := 8), eq_append_iff (v := 16) (w := 8), eq_append_iff (v := 8) (w := 8)]
  rw [extractLsb'_inside opw (by decide), extractLsb'_inside opw (by decide), extractLsb'_inside opw (by decide),
    extractLsb'_inside opw (by decide), and_assoc, and_assoc]
  rfl

/-! ### Encoding and decoding -/

theorem formatN_wordN (op : Byte) (i : Instr) : formatN (wordN op) i = .ok i := if_pos (eq_wordN_iff.mp rfl).2

theorem formatI_wordI (op : Byte) (index : Half) (f : Half → Instr) : formatI (wordI op index) f = .ok (f index) := by
  obtain ⟨-, hzero, hindex⟩ := eq_wordI_iff.mp (rfl : wordI op index = wordI op index)
  rw [formatI, if_pos hzero, hindex]

theorem formatC_wordC (op csr : Byte) (f : Byte → Instr) : formatC (wordC op csr) f = .ok (f csr) := by
  obtain ⟨-, hzero, hcsr⟩ := eq_wordC_iff.mp (rfl : wordC op csr = wordC op csr)
  rw [formatC, if_pos hzero, hcsr]

theorem formatF_wordF (op seq ctype len : Byte) (f : Byte → Byte → Byte → Instr) :
    formatF (wordF op seq ctype len) f = .ok (f seq ctype len) := by
  obtain ⟨-, hseq, htype, hlen⟩ := eq_wordF_iff.mp (rfl : wordF op seq ctype len = wordF op seq ctype len)
  rw [formatF, hseq, htype, hlen]

@[simp] theorem opField_wordN (op : Byte) : opField (wordN op) = op := (eq_wordN_iff.mp rfl).1

@[simp] theorem opField_wordI (op : Byte) (index : Half) : opField (wordI op index) = op := (eq_wordI_iff.mp rfl).1

@[simp] theorem opField_wordC (op csr : Byte) : opField (wordC op csr) = op := (eq_wordC_iff.mp rfl).1

@[simp] theorem opField_wordF (op seq ctype len : Byte) : opField (wordF op seq ctype len) = op := (eq_wordF_iff.mp rfl).1

/-- Settles O1: the opcode of the operation's word selects the row of its format, and the format reads the operands back. -/
theorem decodeEncodeRoundTrip : Obligations.DecodeEncodeRoundTrip := by
  unfold Obligations.DecodeEncodeRoundTrip
  intro i
  cases i with
  | encode seq ctype len imm | send seq ctype len imm =>
    simp only [encode, decode, opField_wordF]
    exact formatF_wordF _ seq ctype len _
  | fetch | parse | deinit | refresh | get =>
    simp only [encode, decode, opField_wordN]
    exact formatN_wordN _ _
  | rdTemp index | rdTempId index | rdFreq index | rdFreqId index | rdPowr index | rdPowrId index | rdPowrTag index
  | rdPowrAcc index | rdCaps index | rdBlk index | rdHdr index | setPowercap index =>
    simp only [encode, decode, opField_wordI]
    exact formatI_wordI _ index _
  | csrr csr | csrw csr imm =>
    simp only [encode, decode, opField_wordC]
    exact formatC_wordC _ csr _

/-- Settles O2: the row of the opcode, with the fields that its format accepted, is the word of the operation. -/
theorem decodedWordIsTheEncoding : Obligations.DecodedWordIsTheEncoding := by
  unfold Obligations.DecodedWordIsTheEncoding
  intro i opw imm h
  simp only [decode] at h
  split at h
  case h_1 hop | h_2 hop =>
    obtain rfl := formatF_ok h
    exact ⟨eq_wordF_iff.mpr ⟨BitVec.eq_of_toNat_eq hop, rfl, rfl, rfl⟩, fun _ => rfl⟩
  case h_3 hop | h_4 hop | h_5 hop | h_6 hop | h_7 hop =>
    obtain ⟨hzero, rfl⟩ := formatN_ok h
    exact ⟨eq_wordN_iff.mpr ⟨BitVec.eq_of_toNat_eq hop, hzero⟩, nofun⟩
  case h_8 hop | h_9 hop | h_10 hop | h_11 hop | h_12 hop | h_13 hop | h_14 hop | h_15 hop | h_16 hop | h_17 hop | h_18 hop
      | h_19 hop =>
    obtain ⟨hzero, rfl⟩ := formatI_ok h
    exact ⟨eq_wordI_iff.mpr ⟨BitVec.eq_of_toNat_eq hop, hzero, rfl⟩, nofun⟩
  case h_20 hop =>
    obtain ⟨hzero, rfl⟩ := formatC_ok h
    exact ⟨eq_wordC_iff.mpr ⟨BitVec.eq_of_toNat_eq hop, hzero, rfl⟩, nofun⟩
  case h_21 hop =>
    obtain ⟨hzero, rfl⟩ := formatC_ok h
    exact ⟨eq_wordC_iff.mpr ⟨BitVec.eq_of_toNat_eq hop, hzero, rfl⟩, fun _ => rfl⟩
  case h_22 => cases h

/-! ### The rows of the opcode table -/

theorem and_high_eq_iff {v w : Nat} {x : BitVec (v + w)} {a : BitVec v} :
    x &&& (BitVec.allOnes v ++ 0#w) = a ++ 0#w ↔ x.extractLsb' w v = a := by
  have hx : x = x.extractLsb' w v ++ x.extractLsb' 0 w := eq_append_iff.mpr ⟨rfl, rfl⟩
  rw [hx, BitVec.and_append, BitVec.and_allOnes, BitVec.and_zero, BitVec.append_left_inj, ← hx]

/-- R90: the rows of each format, by their mask. -/
theorem matches_rowF (op : Byte) (opw : Word) : (⟨wordN op, 0xFF000000⟩ : OpcodeRow).matches opw = true ↔ opField opw = op :=
  beq_iff_eq.trans (and_high_eq_iff (v := 8) (w := 24))

theorem matches_rowN (op : Byte) (opw : Word) :
    (⟨wordN op, 0xFFFFFFFF⟩ : OpcodeRow).matches opw = true ↔ opField opw = op ∧ opw.extractLsb' 0 24 = 0 := by
  rw [← eq_wordN_iff]
  exact beq_iff_eq.trans (by rw [show (0xFFFFFFFF : Word) = BitVec.allOnes 32 from rfl, BitVec.and_allOnes])

theorem matches_rowI (op : Byte) (opw : Word) :
    (⟨wordI op 0, 0xFFFF0000⟩ : OpcodeRow).matches opw = true ↔ opField opw = op ∧ opw.extractLsb' 16 8 = 0 := by
  refine (beq_iff_eq.trans (and_high_eq_iff (v := 16) (w := 16))).trans ?_
  rw [eq_append_iff (v := 8) (w := 8), extractLsb'_inside opw (by decide), extractLsb'_inside opw (by decide)]
  rfl

theorem matches_rowC (op : Byte) (opw : Word) :
    (⟨wordC op 0, 0xFFFFFF00⟩ : OpcodeRow).matches opw = true ↔ opField opw = op ∧ opw.extractLsb' 8 16 = 0 := by
  refine (beq_iff_eq.trans (and_high_eq_iff (v := 24) (w := 8))).trans ?_
  rw [eq_append_iff (v := 8) (w := 16), extractLsb'_inside opw (by decide), extractLsb'_inside opw (by decide)]
  rfl

/-- R93: the table by formats. -/
theorem opcodeRows_eq : opcodeRows =
    [0x01, 0x02].map (fun op => ⟨wordN op, 0xFF000000⟩) ++
    [0x03, 0x04, 0x05, 0x06, 0x07].map (fun op => ⟨wordN op, 0xFFFFFFFF⟩) ++
    [0x10, 0x11, 0x12, 0x13, 0x14, 0x15, 0x16, 0x17, 0x18, 0x19, 0x1A, 0x20].map (fun op => ⟨wordI op 0, 0xFFFF0000⟩) ++
    [0x30, 0x31].map (fun op => ⟨wordC op 0, 0xFFFFFF00⟩) := by
  decide

/-- R93: a word is in the table when its opcode is one of a format's and the zero fields of that format are zero. -/
theorem exists_opcodeRow_iff (opw : Word) : (∃ r ∈ opcodeRows, r.matches opw = true) ↔
    opField opw ∈ [(0x01 : Byte), 0x02] ∨
    (opField opw ∈ [(0x03 : Byte), 0x04, 0x05, 0x06, 0x07] ∧ opw.extractLsb' 0 24 = 0) ∨
    (opField opw ∈ [(0x10 : Byte), 0x11, 0x12, 0x13, 0x14, 0x15, 0x16, 0x17, 0x18, 0x19, 0x1A, 0x20] ∧ opw.extractLsb' 16 8 = 0) ∨
    (opField opw ∈ [(0x30 : Byte), 0x31] ∧ opw.extractLsb' 8 16 = 0) := by
  have hrows : ∀ (ops : List Byte) (row : Byte → OpcodeRow),
      (∃ r ∈ ops.map row, r.matches opw = true) ↔ ∃ op ∈ ops, (row op).matches opw = true := by simp
  simp only [opcodeRows_eq, List.mem_append, or_and_right, exists_or, hrows, matches_rowF, matches_rowN, matches_rowI, matches_rowC,
    or_assoc]
  simp only [← and_assoc, exists_and_right, exists_eq_right']

/-- R90: what each format accepts. -/
theorem formatN_accepts (opw : Word) (j : Instr) : (∃ i, formatN opw j = .ok i) ↔ opw.extractLsb' 0 24 = 0 :=
  ⟨fun ⟨_, h⟩ => (formatN_ok h).1, fun h => ⟨_, if_pos h⟩⟩

theorem formatI_accepts (opw : Word) (f : Half → Instr) : (∃ i, formatI opw f = .ok i) ↔ opw.extractLsb' 16 8 = 0 :=
  ⟨fun ⟨_, h⟩ => (formatI_ok h).1, fun h => ⟨_, if_pos h⟩⟩

theorem formatC_accepts (opw : Word) (f : Byte → Instr) : (∃ i, formatC opw f = .ok i) ↔ opw.extractLsb' 8 16 = 0 :=
  ⟨fun ⟨_, h⟩ => (formatC_ok h).1, fun h => ⟨_, if_pos h⟩⟩

/-- Settles O3: opcode by opcode, the format that `decode` uses accepts what the row of the opcode asks for. -/
theorem decoderFollowsOpcodeTable : Obligations.DecoderFollowsOpcodeTable := by
  unfold Obligations.DecoderFollowsOpcodeTable
  intro opw imm
  have hopcode : ∀ op : Byte, opField opw = op ↔ (opField opw).toNat = op.toNat := fun _ => BitVec.toNat_inj.symm
  simp only [exists_opcodeRow_iff, List.mem_cons, List.not_mem_nil, or_false, hopcode]
  unfold decode
  split
  case h_1 hop | h_2 hop => simp [hop, formatF]
  case h_3 hop | h_4 hop | h_5 hop | h_6 hop | h_7 hop => simp [hop, formatN_accepts]
  case h_8 hop | h_9 hop | h_10 hop | h_11 hop | h_12 hop | h_13 hop | h_14 hop | h_15 hop | h_16 hop | h_17 hop | h_18 hop
      | h_19 hop => simp [hop, formatI_accepts]
  case h_20 hop | h_21 hop => simp [hop, formatC_accepts]
  case h_22 => simp_all

/-! ### Legal words (R94) -/

/-- R94, R95: what the decoder refuses is not legal. -/
theorem legalWord_of_refused {opw imm : Word} (h : ¬ ∃ i, decode opw imm = .ok i) : legalWord opw = false := by
  unfold decode opField at h
  split at h
  case h_1 | h_2 => exact absurd ⟨_, rfl⟩ h
  case h_3 hop | h_4 hop | h_5 hop | h_6 hop | h_7 hop =>
    rw [formatN_accepts] at h
    simpa only [legalWord, hop] using beq_eq_false_iff_ne.mpr h
  case h_8 hop | h_9 hop | h_10 hop | h_11 hop | h_12 hop | h_13 hop | h_14 hop | h_15 hop | h_16 hop | h_17 hop | h_18 hop
      | h_19 hop =>
    rw [formatI_accepts] at h
    simp only [legalWord, hop, beq_eq_false_iff_ne.mpr h, Bool.false_and]
  case h_20 hop | h_21 hop =>
    rw [formatC_accepts] at h
    simp only [legalWord, hop, beq_eq_false_iff_ne.mpr h, Bool.false_and]
  case h_22 =>
    unfold legalWord
    split
    case h_22 => rfl
    all_goals contradiction

/-- Settles O4: `legalWord_of_decode` where the word decodes, `legalWord_of_refused` where it does not. -/
theorem legalWordsAreWellFormedOperations : Obligations.LegalWordsAreWellFormedOperations := by
  unfold Obligations.LegalWordsAreWellFormedOperations
  intro opw imm
  constructor
  · intro hlegal
    obtain ⟨i, hdec⟩ : ∃ i, decode opw imm = .ok i := by
      by_contra hrefused
      exact absurd hlegal (Bool.eq_false_iff.mp (legalWord_of_refused hrefused))
    exact ⟨i, hdec, legalWord_of_decode hdec ▸ hlegal⟩
  · rintro ⟨i, hdec, hwf⟩
    exact (legalWord_of_decode hdec).trans hwf

/-- Settles O5: the decoder computes each answer. -/
theorem sampleWordsDecode : Obligations.SampleWordsDecode := by
  unfold Obligations.SampleWordsDecode
  exact ⟨rfl, rfl, rfl, rfl, rfl, rfl, rfl, rfl, rfl, rfl⟩

end Sys2Proof.Machine
end

section
/-! SUPPORT. Invariants of every step (10_state.md R26, R37, R39): each is kept by the elementary updates of `Closed`, and therefore by a
step; and the state after reset satisfies them. -/

namespace Sys2Proof.Machine

/-! ### The decoded response and the cache (R37) -/

/-- A stale cache asks for nothing but a consistent response. -/
theorem State.snapshotOk_invalidate {t : State} (h : t.dec.Consistent t.cfg) : t.invalidate.SnapshotOk := ⟨h, nofun⟩

theorem State.snapshotOk_pollFailed (t : State) : t.pollFailed.SnapshotOk :=
  State.snapshotOk_invalidate (t := t.deinit) (Decoded.consistent_of_isEmpty t.dec.deinit_isEmpty)

/-- R199, R200, R203: PARSE leaves a consistent response and a stale cache when it fails, and a response with a block when it succeeds. -/
theorem parseProc_snapshotOk {t : State} (h : t.dec.Consistent t.cfg) :
    (∃ u, parseProc t = .done u ∧ u.dec.Consistent u.cfg ∧ 0 < u.dec.nblocks) ∨
    (∃ e u, parseProc t = .raised e u ∧ u.SnapshotOk) := by
  unfold parseProc
  obtain ⟨q, hq, hc, hn⟩ | ⟨e, q, hq, hc⟩ := parseCore_consistent t.cfg t.raw t.rawLen.val t.work t.dec h
  · rw [hq]
    exact .inl ⟨_, rfl, hc, hn⟩
  · rw [hq]
    exact .inr ⟨e, _, rfl, State.snapshotOk_invalidate (t := t.withParse q) hc⟩

theorem snapshotOk_closed : Closed State.SnapshotOk where
  answered := fun _ _ _ _ _ h _ => ⟨h.consistent, h.validHolds⟩
  head := fun _ _ h => ⟨h.consistent, h.validHolds⟩
  status := fun _ _ h => ⟨h.consistent, h.validHolds⟩
  chunk := fun _ _ h _ => ⟨h.consistent, h.validHolds⟩
  setup := fun _ _ _ _ _ h => ⟨h.consistent, h.validHolds⟩
  parse := fun t h => by
    obtain ⟨u, hu, hc, hn⟩ | ⟨e, u, hu, hok⟩ := parseProc_snapshotOk h.consistent
    · rw [hu]
      exact ⟨hc, fun _ => hn⟩
    · rw [hu]
      exact hok
  pollParse := fun t h => by
    unfold pollParse
    obtain ⟨u, hu, hc, hn⟩ | ⟨e, u, hu, hok⟩ := parseProc_snapshotOk h.consistent
    · rw [hu]
      exact ⟨hc, fun _ => hn⟩
    · rw [hu]
      exact hok
  pollFailed := fun t _ => t.snapshotOk_pollFailed
  interval := fun _ _ h => ⟨h.consistent, h.validHolds⟩
  online := fun _ _ h => ⟨h.consistent, h.validHolds⟩
  powercap := fun _ _ h => ⟨h.consistent, h.validHolds⟩
  complete := fun _ _ _ h => ⟨h.consistent, h.validHolds⟩

/-- Settles O16: the invariant is closed under the updates of a step; accepting a request and the answers at hand do not touch it. -/
theorem stepKeepsSnapshotConsistent : Obligations.StepKeepsSnapshotConsistent := by
  unfold Obligations.StepKeepsSnapshotConsistent
  exact fun s t h hstep => snapshotOk_closed.step h (fun _ _ hu => ⟨hu.consistent, hu.validHolds⟩)
    (fun _ _ _ _ => ⟨h.consistent, h.validHolds⟩) hstep

/-! ### The raw buffer (R26, R61) -/

/-- Eight bytes stored inside `raw[0..4095]` leave the buffer canonical and inside. -/
theorem State.RawOk.store {s t : State} (h : s.RawOk) (b : Vector Byte 8) {a : Nat} (ha : a + 8 ≤ occDataMax)
    (ht : t.raw = s.raw.writeBytes a b.toList) : t.RawOk := by
  refine ⟨?_, fun x hx => ?_⟩
  · rw [ht]
    exact Memory.wf_writeBytes a _ h.canonical
  · unfold occDataMax at ha
    have hout : a + b.toList.length ≤ x := by simp; omega
    rw [ht, Memory.read_writeBytes_outside _ (.inr hout)]
    exact h.inside x hx

theorem rawOk_closed : Closed State.RawOk where
  answered := fun _ _ _ _ _ h _ => ⟨h.canonical, h.inside⟩
  head := fun _ b h => h.store b (a := 0) (by decide) rfl
  status := fun _ _ h => ⟨h.canonical, h.inside⟩
  chunk := fun _ b h hin => h.store b hin rfl
  setup := fun _ _ _ _ _ h => ⟨h.canonical, h.inside⟩
  parse := parse_all (fun _ _ _ h => ⟨h.canonical, h.inside⟩) (fun _ h => ⟨h.canonical, h.inside⟩)
  pollParse := pollParse_all (fun _ _ _ h => ⟨h.canonical, h.inside⟩) (fun _ h => ⟨h.canonical, h.inside⟩)
    (fun _ h => ⟨h.canonical, h.inside⟩)
  pollFailed := fun _ h => ⟨h.canonical, h.inside⟩
  interval := fun _ _ h => ⟨h.canonical, h.inside⟩
  online := fun _ _ h => ⟨h.canonical, h.inside⟩
  powercap := fun _ _ h => ⟨h.canonical, h.inside⟩
  complete := fun _ _ _ h => ⟨h.canonical, h.inside⟩

/-- Settles O17: only the two stores write the buffer, and both stay inside it. -/
theorem stepKeepsRawBuffer : Obligations.StepKeepsRawBuffer := by
  unfold Obligations.StepKeepsRawBuffer
  exact fun s t h hstep => rawOk_closed.step h (fun _ _ hu => ⟨hu.canonical, hu.inside⟩)
    (fun _ _ _ _ => ⟨h.canonical, h.inside⟩) hstep

/-! ### Times (R21, R39) -/

theorem wrapTime_lt (cfg : Config) (t : Nat) : wrapTime cfg t < 2 ^ cfg.timeW := Nat.mod_lt _ (Nat.two_pow_pos _)

theorem timesFit_closed : Closed State.TimesFit where
  answered := fun _ _ _ _ _ h _ => ⟨h.now, h.lastUpdated, h.interval⟩
  head := fun _ _ h => ⟨h.now, h.lastUpdated, h.interval⟩
  status := fun _ _ h => ⟨h.now, h.lastUpdated, h.interval⟩
  chunk := fun _ _ h _ => ⟨h.now, h.lastUpdated, h.interval⟩
  setup := fun _ _ _ _ _ h => ⟨h.now, h.lastUpdated, h.interval⟩
  parse := parse_all (fun _ _ _ h => ⟨h.now, h.lastUpdated, h.interval⟩) (fun _ h => ⟨h.now, h.lastUpdated, h.interval⟩)
  pollParse := pollParse_all (fun _ _ _ h => ⟨h.now, h.lastUpdated, h.interval⟩) (fun _ h => ⟨h.now, h.lastUpdated, h.interval⟩)
    (fun _ h => ⟨h.now, h.now, h.interval⟩)
  pollFailed := fun _ h => ⟨h.now, h.lastUpdated, h.interval⟩
  interval := fun t v h => ⟨h.now, h.lastUpdated, wrapTime_lt t.cfg v⟩
  online := fun _ _ h => ⟨h.now, h.lastUpdated, h.interval⟩
  powercap := fun _ _ h => ⟨h.now, h.lastUpdated, h.interval⟩
  complete := fun _ _ _ h => ⟨h.now, h.lastUpdated, h.interval⟩

/-- Settles O19: a time is written as the latched NOW or reduced to `TIME_W` bits, and NOW is reduced when it is latched. -/
theorem stepKeepsTimesInWidth : Obligations.StepKeepsTimesInWidth := by
  unfold Obligations.StepKeepsTimesInWidth
  exact fun s t h hstep => timesFit_closed.step h (fun _ _ hu => ⟨hu.now, hu.lastUpdated, hu.interval⟩)
    (fun r _ _ _ => ⟨wrapTime_lt s.cfg r.now, h.lastUpdated, h.interval⟩) hstep

/-! ### Reset (R45) -/

theorem State.sequenced_of_finished {t : State} (h : t.finished) (hstep : t.seqStep = 0) : t.Sequenced := by
  obtain ⟨hidle, hbusy⟩ := h
  constructor <;> simp [hidle, hbusy, hstep]

/-- Settles O15: reset holds an empty response and an empty buffer, no operation is in progress, and the interval 1 fits in one bit. -/
theorem resetMeetsInvariants : Obligations.ResetMeetsInvariants := by
  unfold Obligations.ResetMeetsInvariants
  refine ⟨fun cfg hw => ⟨?_, ?_, ?_, ?_⟩, Config.openParams, rfl⟩
  · exact ⟨Decoded.consistent_of_isEmpty Decoded.reset.deinit_isEmpty, nofun⟩
  · exact ⟨rfl, fun _ _ => rfl⟩
  · exact State.sequenced_of_finished ⟨rfl, rfl⟩ rfl
  · exact ⟨Nat.two_pow_pos _, Nat.two_pow_pos _, Nat.one_lt_two_pow hw.ne'⟩

end Sys2Proof.Machine
end

section
/-! SUPPORT. The lock and the counters (10_state.md R23 to R25): every operation ends, or it waits at a call that is due, and the step from
there is that call; the block stops nowhere else (70_reset_and_hazards.md R357). -/

namespace Sys2Proof.Machine

/-! ### A call that is due -/

/-- R24: a SEND of `o` stands before one of its eight calls. -/
structure State.SendDue (t : State) (o : SendOwner) : Prop where
  activity : t.activity = .sending o
  callLeft : t.seqStep < 8
  noHead : t.rawLen = 0

/-- R163: a FETCH of `o` stands before a read, at a multiple of 8 below `total`. `step` is 0, or the value `k` from before the operation. -/
structure State.FetchDue (k : Nat) (t : State) (o : FetchOwner) : Prop where
  activity : t.activity = .fetching o
  step : t.seqStep = 0 ∨ t.seqStep = k
  pastHead : 8 ≤ t.work.foff
  aligned : t.work.foff % 8 = 0
  readLeft : t.work.foff < t.work.total
  inBuffer : t.work.total ≤ 4096
  received : t.rawLen.val = t.work.foff

/-- The operation in progress stands before a call. -/
def State.CallDue (k : Nat) (t : State) : Prop := (∃ o, t.SendDue o) ∨ ∃ o, t.FetchDue k o

/-- A procedure that began with `step = k` leaves 0 or `k` there when it is done, waits only before a call, and never stops. -/
def Proc.InSequence (k : Nat) : Proc → Prop
  | .done t => t.seqStep = 0 ∨ t.seqStep = k
  | .raised _ _ => True
  | .waiting t => t.CallDue k
  | .halted _ => False

/-- An operation is over with `step = 0`, or stands before a call; it neither faults nor is refused. -/
def InSequence (k : Nat) : Result → Prop
  | .next t => (t.finished ∧ t.seqStep = 0) ∨ t.CallDue k
  | .fault _ => False
  | .refused _ => False

theorem succeed_inSequence (k : Nat) (s : State) (hi lo : Word) : InSequence k (succeed s hi lo) := .inl ⟨⟨rfl, rfl⟩, rfl⟩

theorem raise_inSequence (k : Nat) (s : State) (e : Err) (lo : Word) (u : Bool) : InSequence k (raise s e lo u) :=
  .inl ⟨⟨rfl, rfl⟩, rfl⟩

theorem readEnd_inSequence (k : Nat) (f : ReadField) (i : Nat) (s : State) : InSequence k (readEnd f i s) := by
  unfold readEnd
  split
  · exact raise_inSequence k s _ _ _
  · exact succeed_inSequence k s _ _

theorem Proc.InSequence.finish {k : Nat} {p : Proc} {ok : State → Result} {err : Err → State → Result} (h : p.InSequence k)
    (hok : ∀ u, Machine.InSequence k (ok u)) (herr : ∀ e u, Machine.InSequence k (err e u)) :
    Machine.InSequence k (p.finish ok err) := by
  cases p with
  | done u => exact hok u
  | raised e u => exact herr e u
  | waiting u => exact .inr h
  | halted f => exact h.elim

theorem Proc.InSequence.onRaise {k : Nat} {p : Proc} {g : State → State} (h : p.InSequence k) : (p.onRaise g).InSequence k := by
  cases p with
  | done u => exact h
  | raised e u => exact True.intro
  | waiting u => exact h
  | halted f => exact h

theorem Proc.InSequence.andThen {k : Nat} {p : Proc} {l : State → Proc} (h : p.InSequence k)
    (hl : ∀ u, u.seqStep = 0 ∨ u.seqStep = k → (l u).InSequence k) : (p.andThen l).InSequence k := by
  cases p with
  | done u => exact hl u h
  | raised e u => exact True.intro
  | waiting u => exact h
  | halted f => exact h

/-! ### The procedures -/

theorem sendStatus_inSequence (k : Nat) (s : State) : (sendStatus s).InSequence k := by
  unfold sendStatus
  simp only
  split
  · exact .inl rfl
  · exact True.intro

/-- R150: a SEND from its first call, by the answers it meets. -/
theorem sendRun_begun_inSequence (k : Nat) (s : State) (o : SendOwner) : (sendRun (s.begun o)).InSequence k := by
  obtain ⟨oks, b, rest, hl, ha⟩ | ⟨oks, rest, hl, ha⟩ | ⟨oks, hl, ha⟩ := send_answers s.answers
  · rw [sendRun_begun_ok s o oks b rest ⟨hl, ha⟩]
    split
    · exact .inl rfl
    · exact True.intro
  · rw [sendRun_begun_err s o oks rest hl ha]
    exact True.intro
  · rw [sendRun_begun_wait s o oks hl ha]
    exact .inl ⟨o, rfl, Nat.lt_succ_of_le hl, rfl⟩

/-- R162: a FETCH from its first read, by the answers it meets. -/
theorem fetchRun_begun_inSequence {k : Nat} {s : State} (hk : s.seqStep = 0 ∨ s.seqStep = k) (o : FetchOwner) :
    (fetchRun (fetchBegin o s)).InSequence k := by
  obtain ⟨chunks, rest, hl, ha⟩ | ⟨chunks, rest, hl, ha⟩ | ⟨chunks, hl, ha⟩ := fetch_answers (fetchReads (be16 s.raw 3)) s.answers
  · rw [fetchRun_begun_ok s o chunks rest hl ha]
    exact hk
  · rw [fetchRun_begun_err s o chunks rest hl ha]
    exact True.intro
  · rw [fetchRun_begun_wait s o chunks hl ha]
    have hle := fetchReads_le (be16 s.raw 3)
    have hfoff : 8 + 8 * chunks.length < min ((be16 s.raw 3).toNat + 7) 4096 := by
      unfold fetchReads at hl
      omega
    refine .inr ⟨o, rfl, hk, by simp, by simp, by simpa using hfoff, by simp, ?_⟩
    simpa using RawLen.ofNat_val (by omega)

theorem parseProc_inSequence {k : Nat} {s : State} (hk : s.seqStep = 0 ∨ s.seqStep = k) : (parseProc s).InSequence k := by
  unfold parseProc
  split
  · exact hk
  · exact True.intro

theorem afterFetch_inSequence {k : Nat} {f : Proc} (h : f.InSequence k) : (afterFetch f).InSequence k :=
  h.onRaise.andThen fun _ hu => (parseProc_inSequence hu).andThen fun _ hv => hv

theorem afterSend_inSequence {k : Nat} (o : PollOwner) {f : Proc} (h : f.InSequence k) : (afterSend o f).InSequence k :=
  h.onRaise.andThen fun _ hu => afterFetch_inSequence (fetchRun_begun_inSequence hu (.poll o))

/-! ### The operations -/

theorem endSend_inSequence {k : Nat} {p : Proc} (h : p.InSequence k) : InSequence k (endSend p) :=
  h.finish (fun u => succeed_inSequence k u _ _) (fun e u => raise_inSequence k u e _ _)

theorem endFetch_inSequence {k : Nat} {p : Proc} (h : p.InSequence k) : InSequence k (endFetch p) :=
  h.finish (fun u => succeed_inSequence k u _ _) (fun e u => raise_inSequence k u e _ _)

theorem endPowercap_inSequence {k : Nat} (v : Half) {p : Proc} (h : p.InSequence k) : InSequence k (endPowercap v p) :=
  h.finish (fun _ => succeed_inSequence k _ _ _) (fun e u => raise_inSequence k u e _ _)

theorem endPoll_inSequence {k : Nat} (o : PollOwner) {p : Proc} (h : p.InSequence k) : InSequence k (endPoll o p) := by
  cases o with
  | refresh | get | online => exact h.finish (fun _ => succeed_inSequence k _ _ _) (fun e _ => raise_inSequence k _ e _ _)
  | read f i => exact h.finish (fun u => readEnd_inSequence k f i u) (fun e u => raise_inSequence k u e _ _)

theorem closeSend_inSequence {k : Nat} (o : SendOwner) {f : Proc} (h : f.InSequence k) : InSequence k (closeSend o f) := by
  cases o with
  | host => exact endSend_inSequence h
  | powercap v => exact endPowercap_inSequence v h
  | poll p => exact endPoll_inSequence p (afterSend_inSequence p h)

theorem closeFetch_inSequence {k : Nat} (o : FetchOwner) {f : Proc} (h : f.InSequence k) : InSequence k (closeFetch o f) := by
  cases o with
  | host => exact endFetch_inSequence h
  | poll p => exact endPoll_inSequence p (afterFetch_inSequence h)

theorem runPoll_inSequence (k : Nat) (o : PollOwner) (s : State) : InSequence k (runPoll o s) := by
  rw [runPoll_eq]
  exact endPoll_inSequence o (afterSend_inSequence o (sendRun_begun_inSequence k s.framedPoll (.poll o)))

theorem consumerRead_inSequence (k : Nat) (f : ReadField) (i : Nat) (s : State) : InSequence k (consumerRead f i s) := by
  unfold consumerRead
  split
  · exact readEnd_inSequence k f i s
  · exact runPoll_inSequence k _ s

/-- R23, R346: every operation ends, or waits before a call. -/
theorem exec_inSequence (i : Instr) (s : State) : InSequence s.seqStep (exec i s) := by
  cases i with
  | encode seq ctype len imm =>
    simp only [exec, execEncode]
    split
    · exact raise_inSequence _ _ _ _ _
    · exact succeed_inSequence _ _ _ _
  | send seq ctype len imm =>
    obtain h | h := Nat.lt_or_ge len.toNat 3
    · rw [exec_send_of_legal imm s h]
      exact endSend_inSequence (sendRun_begun_inSequence _ _ .host)
    · rw [exec_send_of_long imm s h]
      exact raise_inSequence _ _ _ _ _
  | fetch =>
    simp only [exec, execFetch]
    split
    · exact raise_inSequence _ _ _ _ _
    · exact endFetch_inSequence (fetchRun_begun_inSequence (.inr rfl) .host)
  | parse =>
    exact (parseProc_inSequence (.inr rfl)).finish (fun _ => succeed_inSequence _ _ _ _) (fun _ _ => raise_inSequence _ _ _ _ _)
  | deinit => exact succeed_inSequence _ _ _ _
  | refresh => exact runPoll_inSequence _ .refresh s
  | get =>
    simp only [exec, execGet]
    split
    · exact succeed_inSequence _ _ _ _
    · exact runPoll_inSequence _ .get s
  | rdTemp index | rdTempId index | rdFreq index | rdFreqId index
  | rdPowr index | rdPowrId index | rdPowrTag index | rdPowrAcc index => exact consumerRead_inSequence _ _ _ s
  | rdCaps index =>
    simp only [exec, execRdCaps]
    split
    · exact raise_inSequence _ _ _ _ _
    · exact consumerRead_inSequence _ _ _ s
  | rdBlk index =>
    simp only [exec, execRdBlk]
    split
    · exact raise_inSequence _ _ _ _ _
    · exact succeed_inSequence _ _ _ _
  | rdHdr index =>
    simp only [exec, execRdHdr]
    split
    · exact raise_inSequence _ _ _ _ _
    · exact succeed_inSequence _ _ _ _
  | setPowercap v =>
    rw [exec_setPowercap]
    exact endPowercap_inSequence v (sendRun_begun_inSequence _ _ (.powercap v))
  | csrr csr =>
    simp only [exec, execCsrr]
    split
    · exact raise_inSequence _ _ _ _ _
    · exact succeed_inSequence _ _ _ _
  | csrw csr imm =>
    simp only [exec, execCsrw]
    split
    · exact succeed_inSequence _ _ _ _
    · unfold writeOnline
      split
      · exact runPoll_inSequence _ .online s
      · exact succeed_inSequence _ _ _ _
    · exact raise_inSequence _ _ _ _ _

theorem exists_next_of_inSequence {k : Nat} {r : Result} (h : InSequence k r) :
    ∃ t, r = .next t ∧ ((t.finished ∧ t.seqStep = 0) ∨ t.CallDue k) := by
  cases r with
  | next t => exact ⟨t, rfl, h⟩
  | fault f => exact h.elim
  | refused e => exact h.elim

/-- Settles O9: an operation is in sequence, so it answers a next state; and there it is over, or waits for an answer. -/
theorem everyOperationRuns : Obligations.EveryOperationRuns := by
  unfold Obligations.EveryOperationRuns
  intro i s
  obtain ⟨t, ht, -⟩ := exists_next_of_inSequence (exec_inSequence i s)
  refine ⟨t, ht, (exec_endsOrWaits ht).imp_right fun ⟨hsame, hwait⟩ => ⟨?_, hwait.silent, hsame.busy⟩⟩
  obtain ⟨o, ho⟩ | ⟨o, ho⟩ := hwait.due
  · simp [ho]
  · simp [ho]

/-! ### Without an answer at hand -/

/-- R357: a SEND goes no further than its next call; after call 8 only the status is left. -/
theorem sendRun_silent {s : State} (h : s.answers = []) : sendRun s = if s.seqStep < 8 then .waiting s else sendStatus s := by
  unfold sendRun
  by_cases h7 : s.seqStep < 7
  · rw [sendWrites_drop h7, if_pos (by omega)]
    simp only [runWrites, h, Proc.andThen_waiting]
  · have hdrop : (sendWrites s.cfg.bus s.work.w1 s.work.w2).drop s.seqStep = [] :=
      List.drop_eq_nil_of_le (Nat.le_of_not_lt h7)
    rw [hdrop]
    simp only [runWrites, Proc.andThen_done, sendTail, sendRead, h]

/-- R357: a FETCH goes no further than its next read. -/
theorem fetchRun_silent {s : State} (h : s.answers = []) :
    fetchRun s = if s.work.foff < s.work.total then .waiting s else .done s := by
  rw [← fetchLoop_fuel (s.work.total - s.work.foff + 1) s (by omega)]
  simp only [fetchLoop, h]

theorem closeSend_waiting (o : SendOwner) (s : State) : closeSend o (.waiting s) = .next s := by
  cases o with
  | host => rfl
  | powercap v => rfl
  | poll p => cases p <;> rfl

theorem closeFetch_waiting (o : FetchOwner) (s : State) : closeFetch o (.waiting s) = .next s := by
  cases o with
  | host => rfl
  | poll p => cases p <;> rfl

/-- An operation in progress, in a state in sequence, ends or comes to its next call. -/
theorem resume_inSequence {s : State} (hs : s.Sequenced) (hb : s.busy = true) (ha : s.answers = []) : InSequence 0 (resume s) := by
  unfold resume
  split
  next hact => exact absurd hact (hs.lock.mp hb)
  next hact =>
    unfold runLatched
    split
    · rw [← hs.restStep (.inr hact)]
      exact exec_inSequence _ s
    · exact raise_inSequence _ _ _ _ _
  next o hact =>
    obtain ⟨hstep, hlen⟩ := hs.sending o hact
    refine closeSend_inSequence o ?_
    rw [sendRun_silent ha]
    split
    next hlt =>
      rw [if_neg (by omega)] at hlen
      exact .inl ⟨o, hact, hlt, Fin.ext hlen⟩
    next => exact sendStatus_inSequence 0 s
  next o hact => exact closeSend_inSequence o True.intro
  next o hact =>
    obtain ⟨hstep, hpast, haligned, -, htotal, hlen⟩ := hs.fetching o (.inl hact)
    refine closeFetch_inSequence o ?_
    rw [fetchRun_silent ha]
    split
    next hlt => exact .inr ⟨o, hact, .inl hstep, hpast, haligned, hlt, htotal, hlen⟩
    next => exact .inl hstep
  next o hact => exact closeFetch_inSequence o True.intro

/-! ### One transaction -/

theorem State.SendDue.sequenced_answered {t : State} {o : SendOwner} (h : t.SendDue o) (hb : t.busy = true) (a : Answer)
    (rest : List Answer) : (sendAnswered o a rest t).Sequenced := by
  obtain ⟨hact, hstep, hlen⟩ := h
  unfold sendAnswered
  split
  · constructor <;> simp [hb, hlen]
    omega
  · split
    next h7 =>
      constructor <;> simp [hb, hact, hlen]
      omega
    next h7 => constructor <;> simp [hb, hact]

theorem State.FetchDue.sequenced_answered {t : State} {o : FetchOwner} (h : t.FetchDue 0 o) (hb : t.busy = true) (a : Answer)
    (rest : List Answer) : ∃ u, fetchAnswered o a rest t = .next u ∧ u.Sequenced := by
  obtain ⟨hact, hstep, hpast, haligned, hlt, htotal, hlen⟩ := h
  have hstep : t.seqStep = 0 := hstep.elim id id
  unfold fetchAnswered
  split
  · refine ⟨_, rfl, ?_⟩
    constructor <;> simp [hb, hstep, hpast, haligned, hlt, htotal, hlen]
    omega
  · have hin : t.work.foff + 8 ≤ occDataMax := by unfold occDataMax; omega
    rw [if_pos hin]
    refine ⟨_, rfl, ?_⟩
    constructor <;> simp [hb, hact, hstep, haligned, htotal, RawLen.ofNat_val hin]
    omega

/-- R9: where a call is due, a transaction needs an answer, and with one it goes on in sequence. -/
theorem transact_callDue {t : State} (h : t.CallDue 0) (hb : t.busy = true) (as : List Answer) :
    (as = [] ∧ transact as (.next t) = .fault .transportSilent) ∨ ∃ u, transact as (.next t) = .next u ∧ u.Sequenced := by
  obtain ⟨o, ho⟩ | ⟨o, ho⟩ := h
  · cases as with
    | nil => exact .inl ⟨rfl, by simp [transact, ho.activity]⟩
    | cons a rest => exact .inr ⟨_, by simp [transact, ho.activity], ho.sequenced_answered hb a rest⟩
  · cases as with
    | nil => exact .inl ⟨rfl, by simp [transact, ho.activity]⟩
    | cons a rest =>
      obtain ⟨u, hu, hseq⟩ := ho.sequenced_answered hb a rest
      exact .inr ⟨u, by simp [transact, ho.activity, hu], hseq⟩

theorem State.CallDue.not_finished {k : Nat} {t : State} (h : t.CallDue k) : ¬ t.finished := by
  rintro ⟨hidle, -⟩
  obtain ⟨o, ho⟩ | ⟨o, ho⟩ := h
  · simp [ho.activity] at hidle
  · simp [ho.activity] at hidle

theorem advance_sequenced {s : State} (hs : s.Sequenced) (hb : s.busy = true) :
    (s.answers = [] ∧ advance s = .fault .transportSilent) ∨ ∃ t, advance s = .next t ∧ t.Sequenced := by
  have hsilent : ({ s with answers := [] } : State).Sequenced :=
    ⟨hs.lock, hs.restStep, hs.sending, hs.sendBroken, hs.fetching, hs.fetchBroken⟩
  obtain ⟨u, hu, ⟨hfin, hstep⟩ | hdue⟩ := exists_next_of_inSequence (resume_inSequence hsilent hb rfl)
  · refine .inr ⟨_, by rw [advance, hu, transact_finished hfin], ?_⟩
    exact State.sequenced_of_finished ⟨hfin.1, hfin.2⟩ hstep
  · obtain hfin | ⟨hsame, -⟩ := resume_endsOrWaits hu
    · exact absurd hfin hdue.not_finished
    · rw [advance, hu]
      exact transact_callDue hdue (hsame.busy.trans hb) s.answers

/-- A step from a state in sequence ends in one, or finds no answer for the call that is due. -/
theorem step_sequenced {s : State} (hs : s.Sequenced) :
    (s.busy = true ∧ s.answers = [] ∧ step s = .fault .transportSilent) ∨ ∃ t, step s = .next t ∧ t.Sequenced := by
  unfold step
  split
  next hb =>
    obtain ⟨ha, hstop⟩ | hnext := advance_sequenced hs hb
    · exact .inl ⟨hb, ha, hstop⟩
    · exact .inr hnext
  next hb =>
    split
    · exact .inr ⟨s, rfl, hs⟩
    · have hidle : s.activity = .idle := by
        by_contra hne
        exact hb (hs.lock.mpr hne)
      refine .inr ⟨_, rfl, ?_⟩
      constructor <;> simp [hs.restStep (.inl hidle)]

/-- Settles O18: `step_sequenced`. -/
theorem stepKeepsSequence : Obligations.StepKeepsSequence := by
  unfold Obligations.StepKeepsSequence
  intro s t hs hstep
  obtain ⟨-, -, hstop⟩ | ⟨u, hu, hseq⟩ := step_sequenced hs
  · cases hstop.symm.trans hstep
  · cases hu.symm.trans hstep
    exact hseq

/-! ### A step of the operation accepted -/

/-- R21: a request is accepted while BUSY is 0. -/
theorem step_accept {s : State} {r : Request} {rest : List Request} (hb : s.busy = false) (hq : s.requests = r :: rest) :
    step s = .next (s.accept r rest) := by
  simp only [step, hb, hq, Bool.false_eq_true, if_false]

/-- R320: nothing presented. -/
theorem step_idle {s : State} (hb : s.busy = false) (hq : s.requests = []) : step s = .next s := by
  simp only [step, hb, hq, Bool.false_eq_true, if_false]

/-- R9: the step after acceptance is a transaction of the operation that the latched words decode to. -/
theorem step_accepted {s : State} {i : Instr} (hb : s.busy = true) (ha : s.activity = .accepted) (hdec : decode s.opw s.imm = .ok i) :
    step s = transact s.answers (exec i { s with answers := [] }) := by
  simp only [step, if_pos hb, advance, resume, ha, runLatched, hdec]

/-- Settles O6: the three kinds of step; after acceptance the transaction is told by where the operation stands. -/
theorem stepRunsTheDecodedOperation : Obligations.StepRunsTheDecodedOperation := by
  unfold Obligations.StepRunsTheDecodedOperation
  refine ⟨fun s r rest => step_accept, fun s i hb ha hdec => ?_, fun s => step_idle⟩
  have hstep := step_accepted hb ha hdec
  refine ⟨hstep, fun t ht => ?_⟩
  rw [ht] at hstep
  refine ⟨fun hidle => ?_, fun o a rest ho has => ?_, fun o a rest ho has => ?_⟩
  · simp [hstep, transact, hidle]
  · simp [hstep, transact, ho, has]
  · simp [hstep, transact, ho, has]

/-! ### A call without an answer -/

theorem step_of_silent_waiting {s : State} (hb : s.busy = true) (ha : s.answers = []) (hw : resume s = .next s)
    (hdue : (∃ o, s.activity = .sending o) ∨ ∃ o, s.activity = .fetching o) : step s = .fault .transportSilent := by
  have hsame : ({ s with answers := [] } : State) = s := by rw [← ha]
  have hstep : step s = transact [] (.next s) := by rw [step, if_pos hb, advance, hsame, hw, ha]
  obtain ⟨o, ho⟩ | ⟨o, ho⟩ := hdue
  · simp [hstep, transact, ho]
  · simp [hstep, transact, ho]

/-- Settles O10: a procedure with a call due waits where it stands; and a state in sequence has no other stop by `step_sequenced`. -/
theorem stepStopsOnlyOnSilence : Obligations.StepStopsOnlyOnSilence := by
  unfold Obligations.StepStopsOnlyOnSilence
  refine ⟨fun s hb ha hdue => ?_, fun s hs => ?_⟩
  · obtain ⟨⟨o, ho⟩, hlt⟩ | ⟨⟨o, ho⟩, hlt⟩ := hdue
    · refine step_of_silent_waiting hb ha ?_ (.inl ⟨o, ho⟩)
      simp only [resume, ho, sendRun_silent ha, if_pos hlt, closeSend_waiting]
    · refine step_of_silent_waiting hb ha ?_ (.inr ⟨o, ho⟩)
      simp only [resume, ho, fetchRun_silent ha, if_pos hlt, closeFetch_waiting]
  · obtain ⟨hb, ha, hstop⟩ | ⟨t, ht, -⟩ := step_sequenced hs
    · rw [hstop]
      exact ⟨nofun, fun f hf => by cases hf; exact ⟨rfl, hb, ha⟩⟩
    · rw [ht]
      exact ⟨nofun, nofun⟩

end Sys2Proof.Machine
end

section
/-! SUPPORT. What stands beside a procedure (10_state.md R21, 45_consumer_ops.md R277, R285, R286): the requests that wait, `online`,
`user_powercap` and the interval are neither read nor written by `Send`, `Fetch`, `Parse` or a poll, so that every change of them goes
through a procedure unchanged. -/

namespace Sys2Proof.Machine

/-! ### States changed beside a procedure -/

/-- The registers that no procedure reads or writes. -/
structure Aside where
  requests : List Request
  online : Bool
  userPowercap : Half
  interval : Nat

def State.aside (s : State) : Aside := ⟨s.requests, s.online, s.userPowercap, s.cache.interval⟩

/-- The state with these registers changed. -/
def State.onAside (g : Aside → Aside) (s : State) : State :=
  { s with requests := (g s.aside).requests, online := (g s.aside).online, userPowercap := (g s.aside).userPowercap,
           cache := { s.cache with interval := (g s.aside).interval } }

@[simp] theorem State.onAside_answers (g : Aside → Aside) (s : State) : (s.onAside g).answers = s.answers := rfl
@[simp] theorem State.onAside_seqStep (g : Aside → Aside) (s : State) : (s.onAside g).seqStep = s.seqStep := rfl
@[simp] theorem State.onAside_work (g : Aside → Aside) (s : State) : (s.onAside g).work = s.work := rfl
@[simp] theorem State.onAside_cfg (g : Aside → Aside) (s : State) : (s.onAside g).cfg = s.cfg := rfl
@[simp] theorem State.onAside_raw (g : Aside → Aside) (s : State) : (s.onAside g).raw = s.raw := rfl
@[simp] theorem State.onAside_rawLen (g : Aside → Aside) (s : State) : (s.onAside g).rawLen = s.rawLen := rfl
@[simp] theorem State.onAside_dec (g : Aside → Aside) (s : State) : (s.onAside g).dec = s.dec := rfl

/-- The same end of a procedure, in the state that `h` makes of its state. -/
def Proc.map (h : State → State) : Proc → Proc
  | .done t => .done (h t)
  | .raised e t => .raised e (h t)
  | .waiting t => .waiting (h t)
  | .halted f => .halted f

theorem Proc.map_andThen (h : State → State) (p : Proc) {k : State → Proc} (hk : ∀ t, k (h t) = (k t).map h) :
    (p.map h).andThen k = (p.andThen k).map h := by
  cases p with
  | done t => exact hk t
  | raised e t => rfl
  | waiting t => rfl
  | halted f => rfl

theorem Proc.map_onRaise (h : State → State) (p : Proc) {k : State → State} (hk : ∀ t, k (h t) = h (k t)) :
    (p.map h).onRaise k = (p.onRaise k).map h := by
  cases p with
  | done t => rfl
  | raised e t => simp only [Proc.map, Proc.onRaise_raised, hk]
  | waiting t => rfl
  | halted f => rfl

/-! ### The procedures -/

theorem runWrites_onAside (g : Aside → Aside) (cs : List Call) (s : State) :
    runWrites cs (s.onAside g) = (runWrites cs s).map (State.onAside g) := by
  induction cs generalizing s with
  | nil => rfl
  | cons c cs ih =>
    simp only [runWrites, State.onAside_answers]
    cases s.answers with
    | nil => rfl
    | cons a rest =>
      cases a with
      | err => rfl
      | ok _ => exact ih { s.answered c rest with seqStep := s.seqStep + 1 }

theorem sendStatus_onAside (g : Aside → Aside) (s : State) : sendStatus (s.onAside g) = (sendStatus s).map (State.onAside g) := by
  simp only [sendStatus, State.onAside_raw, apply_ite (Proc.map (State.onAside g))]
  rfl

theorem sendTail_onAside (g : Aside → Aside) (s : State) : sendTail (s.onAside g) = (sendTail s).map (State.onAside g) := by
  have hread : sendRead (s.onAside g) = (sendRead s).map (State.onAside g) := by
    simp only [sendRead, State.onAside_answers]
    cases s.answers with
    | nil => rfl
    | cons a rest =>
      cases a with
      | err => rfl
      | ok b => exact sendStatus_onAside g (storeHead b (s.answered (dataRead s.cfg.bus) rest))
  simp only [sendTail, State.onAside_seqStep, hread, sendStatus_onAside, apply_ite (Proc.map (State.onAside g))]

theorem sendRun_onAside (g : Aside → Aside) (s : State) : sendRun (s.onAside g) = (sendRun s).map (State.onAside g) := by
  simp only [sendRun, State.onAside_seqStep, State.onAside_cfg, State.onAside_work, runWrites_onAside]
  exact Proc.map_andThen _ _ (sendTail_onAside g)

theorem fetchLoop_onAside (g : Aside → Aside) (n : Nat) (s : State) :
    fetchLoop n (s.onAside g) = (fetchLoop n s).map (State.onAside g) := by
  induction n generalizing s with
  | zero => rfl
  | succ n ih =>
    simp only [fetchLoop, State.onAside_work, State.onAside_answers, apply_ite (Proc.map (State.onAside g))]
    cases s.answers with
    | nil => rfl
    | cons a rest =>
      cases a with
      | err => rfl
      | ok b =>
        have hchunk := ih (storeChunk b (s.answered (dataRead s.cfg.bus) rest))
        simp only [apply_ite (Proc.map (State.onAside g)), ← hchunk]
        rfl

theorem fetchRun_onAside (g : Aside → Aside) (s : State) : fetchRun (s.onAside g) = (fetchRun s).map (State.onAside g) :=
  fetchLoop_onAside g _ s

theorem parseProc_onAside (g : Aside → Aside) (s : State) : parseProc (s.onAside g) = (parseProc s).map (State.onAside g) := by
  simp only [parseProc, State.onAside_cfg, State.onAside_raw, State.onAside_rawLen, State.onAside_work, State.onAside_dec]
  split
  · rfl
  · rfl

theorem afterFetch_map_onAside (g : Aside → Aside) (f : Proc) :
    afterFetch (f.map (State.onAside g)) = (afterFetch f).map (State.onAside g) := by
  have hparse : ∀ t : State, pollParse (t.onAside g) = (pollParse t).map (State.onAside g) := fun t => by
    rw [pollParse, parseProc_onAside]
    exact Proc.map_andThen _ _ fun _ => rfl
  rw [afterFetch, Proc.map_onRaise (State.onAside g) f (k := State.pollFailed) fun _ => rfl]
  exact Proc.map_andThen _ _ hparse

theorem afterSend_map_onAside (g : Aside → Aside) (o : PollOwner) (f : Proc) :
    afterSend o (f.map (State.onAside g)) = (afterSend o f).map (State.onAside g) := by
  have hfetch : ∀ t : State, pollFetch (fetchBegin (.poll o) (t.onAside g)) =
      (pollFetch (fetchBegin (.poll o) t)).map (State.onAside g) := fun t => by
    rw [pollFetch, pollFetch, ← afterFetch_map_onAside, ← fetchRun_onAside]
    rfl
  rw [afterSend, Proc.map_onRaise (State.onAside g) f (k := State.pollFailed) fun _ => rfl]
  exact Proc.map_andThen _ _ hfetch

theorem pollSend_onAside (g : Aside → Aside) (o : PollOwner) (s : State) :
    pollSend o (pollBegin o (s.onAside g)) = (pollSend o (pollBegin o s)).map (State.onAside g) := by
  rw [pollSend, pollSend, ← afterSend_map_onAside, ← sendRun_onAside]
  rfl

/-! ### A procedure leaves what stands beside it -/

/-- A procedure that every change beside it goes through ends with the same registers there: take the change that puts back those of
`s`. -/
theorem aside_kept {s : State} {p : Proc} (h : ∀ g : Aside → Aside, g s.aside = s.aside → p = p.map (State.onAside g)) :
    p.All fun t => t.aside = s.aside := by
  have hp := h (fun _ => s.aside) rfl
  have back : ∀ t : State, t = t.onAside (fun _ => s.aside) → t.aside = s.aside := fun t ht => (congrArg State.aside ht).trans rfl
  cases p with
  | done t => exact back t (Proc.done.inj hp)
  | raised e t => exact back t (Proc.raised.inj hp).2
  | waiting t => exact back t (Proc.waiting.inj hp)
  | halted f => exact True.intro

theorem State.onAside_self {g : Aside → Aside} {s : State} (h : g s.aside = s.aside) : s.onAside g = s := by
  rw [State.onAside, h]
  rfl

theorem sendRun_aside (s : State) : (sendRun s).All fun t => t.aside = s.aside :=
  aside_kept fun g hg => by rw [← sendRun_onAside, State.onAside_self hg]

theorem fetchRun_aside (s : State) : (fetchRun s).All fun t => t.aside = s.aside :=
  aside_kept fun g hg => by rw [← fetchRun_onAside, State.onAside_self hg]

theorem parseProc_aside (s : State) : (parseProc s).All fun t => t.aside = s.aside :=
  aside_kept fun g hg => by rw [← parseProc_onAside, State.onAside_self hg]

theorem pollSend_aside (o : PollOwner) (s : State) : (pollSend o (pollBegin o s)).All fun t => t.aside = s.aside :=
  aside_kept fun g hg => by rw [← pollSend_onAside, State.onAside_self hg]

/-! ### The operations, with other requests waiting and another `online` -/

/-- The change beside an operation: the requests that wait, by `q`, and `online`, by `b`. -/
def hostSide (q : List Request → List Request) (b : Bool → Bool) (x : Aside) : Aside :=
  { x with requests := q x.requests, online := b x.online }

/-- The state so changed. -/
def State.hosted (q : List Request → List Request) (b : Bool → Bool) (s : State) : State := s.onAside (hostSide q b)

theorem State.hosted_eq (q : List Request → List Request) (b : Bool → Bool) (s : State) :
    s.hosted q b = { s with requests := q s.requests, online := b s.online } := rfl

/-- The result whose next state is changed by `h`. -/
def mapNext (h : State → State) : Result → Result
  | .next t => .next (h t)
  | .fault f => .fault f
  | .refused e => .refused e

section
variable (q : List Request → List Request) (b : Bool → Bool)

theorem readEnd_hosted (f : ReadField) (i : Nat) (s : State) :
    readEnd f i (s.hosted q b) = mapNext (State.hosted q b) (readEnd f i s) := by
  simp only [readEnd, State.hosted, State.onAside_dec]
  split
  · rfl
  · rfl

theorem Proc.finish_hosted (p : Proc) {ok : State → Result} {err : Err → State → Result}
    (hok : ∀ t : State, ok (t.hosted q b) = mapNext (State.hosted q b) (ok t))
    (herr : ∀ e (t : State), err e (t.hosted q b) = mapNext (State.hosted q b) (err e t)) :
    (p.map (State.hosted q b)).finish ok err = mapNext (State.hosted q b) (p.finish ok err) := by
  cases p with
  | done t => exact hok t
  | raised e t => exact herr e t
  | waiting t => rfl
  | halted f => rfl

theorem endSend_hosted (p : Proc) : endSend (p.map (State.hosted q b)) = mapNext (State.hosted q b) (endSend p) :=
  p.finish_hosted q b (fun _ => rfl) fun _ _ => rfl

theorem endFetch_hosted (p : Proc) : endFetch (p.map (State.hosted q b)) = mapNext (State.hosted q b) (endFetch p) :=
  p.finish_hosted q b (fun _ => rfl) fun _ _ => rfl

theorem endPowercap_hosted (v : Half) (p : Proc) :
    endPowercap v (p.map (State.hosted q b)) = mapNext (State.hosted q b) (endPowercap v p) :=
  p.finish_hosted q b (fun _ => rfl) fun _ _ => rfl

/-- R285: of the operations that poll, a write to ONLINE alone writes `online`. -/
theorem endPoll_hosted {o : PollOwner} (h : o = .online → b = id) (p : Proc) :
    endPoll o (p.map (State.hosted q b)) = mapNext (State.hosted q b) (endPoll o p) := by
  cases o with
  | refresh | get => exact p.finish_hosted q b (fun _ => rfl) fun _ _ => rfl
  | online =>
    rw [h rfl]
    exact p.finish_hosted q id (fun _ => rfl) fun _ _ => rfl
  | read f i => exact p.finish_hosted q b (readEnd_hosted q b f i) fun _ _ => rfl

theorem runPoll_hosted {o : PollOwner} (h : o = .online → b = id) (s : State) :
    runPoll o (s.hosted q b) = mapNext (State.hosted q b) (runPoll o s) := by
  rw [runPoll, runPoll, ← endPoll_hosted q b h]
  exact congrArg (endPoll o) (pollSend_onAside _ o s)

theorem consumerRead_hosted (f : ReadField) (i : Nat) (s : State) :
    consumerRead f i (s.hosted q b) = mapNext (State.hosted q b) (consumerRead f i s) := by
  have hfresh : fresh (s.hosted q b).cfg (s.hosted q b).cache (s.hosted q b).now = fresh s.cfg s.cache s.now := rfl
  simp only [consumerRead, hfresh]
  split
  · exact readEnd_hosted q b f i s
  · exact runPoll_hosted q b (o := .read f i) nofun s

/-- R41: of the registers, ONLINE alone is read from `online`. -/
theorem csrValue_hosted {n : Nat} (h : n = 1 → b = id) (s : State) : csrValue (s.hosted q b) n = csrValue s n := by
  unfold csrValue
  split
  case h_2 =>
    rw [h rfl]
    rfl
  all_goals rfl

/-- R21, R285: an operation does the same whatever waits, and whatever `online` is unless it reads or writes that register. -/
theorem exec_hosted {i : Instr} (h : b = id ∨ (i ≠ .csrr 1 ∧ ∀ imm, i ≠ .csrw 1 imm)) (s : State) :
    exec i (s.hosted q b) = mapNext (State.hosted q b) (exec i s) := by
  cases i with
  | encode seq ctype len imm =>
    simp only [exec, execEncode]
    split
    · rfl
    · rfl
  | send seq ctype len imm =>
    simp only [exec, execSend]
    split
    · rfl
    next n _ =>
      rw [← endSend_hosted]
      exact congrArg endSend (sendRun_onAside _ (sendBegin .host seq ctype n (payload0 imm) (payload1 imm) s))
  | fetch =>
    have hfetch : endFetch (fetchRun (fetchBegin .host (s.hosted q b))) =
        mapNext (State.hosted q b) (endFetch (fetchRun (fetchBegin .host s))) := by
      rw [← endFetch_hosted]
      exact congrArg endFetch (fetchRun_onAside _ (fetchBegin .host s))
    have hlen : (s.hosted q b).rawLen = s.rawLen := rfl
    simp only [exec, execFetch, hlen, hfetch, apply_ite (mapNext (State.hosted q b))]
    rfl
  | parse =>
    have hparse : parseProc (s.hosted q b) = (parseProc s).map (State.hosted q b) := parseProc_onAside _ s
    simp only [exec, execParse, hparse]
    exact (parseProc s).finish_hosted q b (fun _ => rfl) fun _ _ => rfl
  | deinit => rfl
  | refresh => exact runPoll_hosted q b (o := .refresh) nofun s
  | get =>
    have hfresh : fresh (s.hosted q b).cfg (s.hosted q b).cache (s.hosted q b).now = fresh s.cfg s.cache s.now := rfl
    simp only [exec, execGet, hfresh]
    split
    · rfl
    · exact runPoll_hosted q b (o := .get) nofun s
  | rdTemp index | rdTempId index | rdFreq index | rdFreqId index
  | rdPowr index | rdPowrId index | rdPowrTag index | rdPowrAcc index => exact consumerRead_hosted q b _ _ s
  | rdCaps index =>
    simp only [exec, execRdCaps]
    split
    · rfl
    · exact consumerRead_hosted q b _ _ s
  | rdBlk index =>
    simp only [exec, execRdBlk, State.hosted, State.onAside_dec]
    split
    · rfl
    · rfl
  | rdHdr index =>
    simp only [exec, execRdHdr]
    split
    · rfl
    · rfl
  | setPowercap v =>
    rw [exec_setPowercap, exec_setPowercap, ← endPowercap_hosted]
    exact congrArg (endPowercap v) (sendRun_onAside _ ((s.framedPowercap v).begun (.powercap v)))
  | csrr csr =>
    have hreg : csr.toNat = 1 → b = id := fun hcsr =>
      h.resolve_right fun hne => hne.1 (congrArg Instr.csrr (BitVec.eq_of_toNat_eq hcsr))
    simp only [exec, execCsrr, csrValue_hosted q b hreg]
    split
    · rfl
    · rfl
  | csrw csr imm =>
    simp only [exec, execCsrw]
    split
    next => rfl
    next hcsr =>
      have hid : b = id := h.resolve_right fun hne => hne.2 imm (congrArg (Instr.csrw · imm) (BitVec.eq_of_toNat_eq hcsr))
      subst hid
      unfold writeOnline
      split
      · exact runPoll_hosted q id (fun _ => rfl) s
      · rfl
    next => rfl

end

/-- Settles O58: `exec_hosted` with the flag replaced. -/
theorem onlineGatesNothing : Obligations.OnlineGatesNothing := by
  unfold Obligations.OnlineGatesNothing
  intro i s t b hread hwrite ht
  have h := exec_hosted id (fun _ => b) (.inr ⟨hread, hwrite⟩) s
  rw [ht] at h
  simpa only [State.hosted_eq, mapNext, id] using h

/-! ### A step, with other requests waiting -/

/-- The state with other requests waiting. -/
def State.waitingFor (r : List Request) (s : State) : State := s.hosted (fun _ => r) id

section
variable (r : List Request)

theorem closeSend_waitingFor (o : SendOwner) (f : Proc) :
    closeSend o (f.map (State.waitingFor r)) = mapNext (State.waitingFor r) (closeSend o f) := by
  cases o with
  | host => exact endSend_hosted _ id f
  | powercap v => exact endPowercap_hosted _ id v f
  | poll p =>
    refine Eq.trans ?_ (endPoll_hosted _ id (fun _ => rfl) (afterSend p f))
    exact congrArg (endPoll p) (afterSend_map_onAside _ p f)

theorem closeFetch_waitingFor (o : FetchOwner) (f : Proc) :
    closeFetch o (f.map (State.waitingFor r)) = mapNext (State.waitingFor r) (closeFetch o f) := by
  cases o with
  | host => exact endFetch_hosted _ id f
  | poll p =>
    refine Eq.trans ?_ (endPoll_hosted _ id (fun _ => rfl) (afterFetch f))
    exact congrArg (endPoll p) (afterFetch_map_onAside _ f)

theorem resume_waitingFor (s : State) : resume (s.waitingFor r) = mapNext (State.waitingFor r) (resume s) := by
  have hact : (s.waitingFor r).activity = s.activity := rfl
  simp only [resume, hact]
  split
  next => rfl
  next =>
    have hdec : decode (s.waitingFor r).opw (s.waitingFor r).imm = decode s.opw s.imm := rfl
    simp only [runLatched, hdec]
    split
    · exact exec_hosted _ id (.inl rfl) s
    · rfl
  next o _ =>
    rw [← closeSend_waitingFor]
    exact congrArg (closeSend o) (sendRun_onAside _ s)
  next o _ => exact closeSend_waitingFor r o (sendBroken s)
  next o _ =>
    rw [← closeFetch_waitingFor]
    exact congrArg (closeFetch o) (fetchRun_onAside _ s)
  next o _ => exact closeFetch_waitingFor r o (fetchBroken s)

theorem sendAnswered_waitingFor (o : SendOwner) (a : Answer) (rest : List Answer) (s : State) :
    sendAnswered o a rest (s.waitingFor r) = (sendAnswered o a rest s).waitingFor r := by
  have hstep : (s.waitingFor r).seqStep = s.seqStep := rfl
  simp only [sendAnswered, hstep]
  split
  · rfl
  · split
    · rfl
    · rfl

theorem fetchAnswered_waitingFor (o : FetchOwner) (a : Answer) (rest : List Answer) (s : State) :
    fetchAnswered o a rest (s.waitingFor r) = mapNext (State.waitingFor r) (fetchAnswered o a rest s) := by
  have hwork : (s.waitingFor r).work = s.work := rfl
  simp only [fetchAnswered, hwork]
  split
  · rfl
  · split
    · rfl
    · rfl

theorem transact_waitingFor (as : List Answer) (u : Result) :
    transact as (mapNext (State.waitingFor r) u) = mapNext (State.waitingFor r) (transact as u) := by
  cases u with
  | fault f => rfl
  | refused e => rfl
  | next t =>
    have hact : (t.waitingFor r).activity = t.activity := rfl
    simp only [mapNext, transact, hact]
    split
    next => rfl
    next => rfl
    next o a rest _ => exact congrArg Host.Outcome.next (sendAnswered_waitingFor r o a rest t)
    next o a rest _ => exact fetchAnswered_waitingFor r o a rest t
    all_goals rfl

theorem advance_waitingFor (s : State) : advance (s.waitingFor r) = mapNext (State.waitingFor r) (advance s) := by
  rw [advance, advance, ← transact_waitingFor, ← resume_waitingFor]
  rfl

end

/-! ### The words latched (R21) -/

/-- OPW, IMM and NOW are as in `s`, and the same requests wait. -/
structure State.SamePort (s t : State) : Prop where
  requests : t.requests = s.requests
  opw : t.opw = s.opw
  imm : t.imm = s.imm
  now : t.now = s.now

theorem samePort_closed (s : State) : Closed s.SamePort where
  answered := fun _ _ _ _ _ h _ => ⟨h.requests, h.opw, h.imm, h.now⟩
  head := fun _ _ h => ⟨h.requests, h.opw, h.imm, h.now⟩
  status := fun _ _ h => ⟨h.requests, h.opw, h.imm, h.now⟩
  chunk := fun _ _ h _ => ⟨h.requests, h.opw, h.imm, h.now⟩
  setup := fun _ _ _ _ _ h => ⟨h.requests, h.opw, h.imm, h.now⟩
  parse := parse_all (fun _ _ _ h => ⟨h.requests, h.opw, h.imm, h.now⟩) (fun _ h => ⟨h.requests, h.opw, h.imm, h.now⟩)
  pollParse := pollParse_all (fun _ _ _ h => ⟨h.requests, h.opw, h.imm, h.now⟩) (fun _ h => ⟨h.requests, h.opw, h.imm, h.now⟩)
    (fun _ h => ⟨h.requests, h.opw, h.imm, h.now⟩)
  pollFailed := fun _ h => ⟨h.requests, h.opw, h.imm, h.now⟩
  interval := fun _ _ h => ⟨h.requests, h.opw, h.imm, h.now⟩
  online := fun _ _ h => ⟨h.requests, h.opw, h.imm, h.now⟩
  powercap := fun _ _ h => ⟨h.requests, h.opw, h.imm, h.now⟩
  complete := fun _ _ _ h => ⟨h.requests, h.opw, h.imm, h.now⟩

/-- Settles O8: no update of a step but acceptance writes the port, and `advance_waitingFor` is the step with other requests. -/
theorem busyHoldsRequestsBack : Obligations.BusyHoldsRequestsBack := by
  unfold Obligations.BusyHoldsRequestsBack
  intro s t q hb hstep
  have hport : s.SamePort t := (samePort_closed s).step ⟨rfl, rfl, rfl, rfl⟩ (fun _ _ h => ⟨h.requests, h.opw, h.imm, h.now⟩)
    (fun _ _ hidle => by simp [hb] at hidle) hstep
  refine ⟨hport.requests, hport.opw, hport.imm, hport.now, ?_⟩
  have hadv : advance s = .next t := by rwa [step, if_pos hb] at hstep
  calc step (s.waitingFor q)
      = advance (s.waitingFor q) := if_pos hb
    _ = mapNext (State.waitingFor q) (advance s) := advance_waitingFor q s
    _ = .next (t.waitingFor q) := by rw [hadv]; rfl

end Sys2Proof.Machine
end

section
/-! SUPPORT. What an operation comes to (45_consumer_ops.md, 70_reset_and_hazards.md R363): it publishes at once, or it is one of the few
procedures with one of the few ends. Frames of all operations are told by these forms. -/

namespace Sys2Proof.Machine

/-! ### The forms of an operation -/

/-- R240, R243, R261, R285: the operation `i` polls in the state `s`, and `o` is what the poll runs in. -/
inductive Polls (s : State) : Instr → PollOwner → Prop
  | refresh : Polls s .refresh .refresh
  | get (h : fresh s.cfg s.cache s.now = false) : Polls s .get .get
  | read {i : Instr} {f : ReadField} {n : Nat} (hread : readOf i = some (f, n)) (h : fresh s.cfg s.cache s.now = false) :
      Polls s i (.read f n)
  | online {imm : Word} (h : imm.getLsbD 0 = true) : Polls s (.csrw 1 imm) .online

/-- The operation is PARSE, DEINIT or REFRESH, which never end without an effect of their own. -/
def alwaysActs : Instr → Bool
  | .parse | .deinit | .refresh => true
  | .encode _ _ _ _ | .send _ _ _ _ | .fetch | .get | .rdTemp _ | .rdTempId _ | .rdFreq _ | .rdFreqId _ | .rdPowr _ | .rdPowrId _ => false
  | .rdPowrTag _ | .rdPowrAcc _ | .rdCaps _ | .rdBlk _ | .rdHdr _ | .setPowercap _ | .csrr _ | .csrw _ _ => false

/-- What the operation `i` comes to in the state `s`. -/
inductive Form (s : State) : Instr → Result → Prop
  | publishes {i : Instr} (res : DWord) (err : Word) (h : alwaysActs i = false) : Form s i (.next (s.complete res err))
  | encodes {seq ctype len : Byte} {imm : Word} (w : Work) (res : DWord) :
      Form s (.encode seq ctype len imm) (.next ({ s with work := w }.complete res 0))
  | sends {seq ctype len : Byte} {imm : Word} :
      Form s (.send seq ctype len imm) (endSend (sendRun ((s.framed seq ctype len (payload0 imm) (payload1 imm)).begun .host)))
  | fetches : Form s .fetch (endFetch (fetchRun (fetchBegin .host s)))
  | parses : Form s .parse (execParse s)
  | releases : Form s .deinit (.next (s.emptied.complete 0 0))
  | polls {i : Instr} {o : PollOwner} (h : Polls s i o) : Form s i (endPoll o (pollSend o (pollBegin o s)))
  | caps {v : Half} : Form s (.setPowercap v) (endPowercap v (sendRun ((s.framedPowercap v).begun (.powercap v))))
  | times {imm : Word} :
      Form s (.csrw 0 imm) (.next ({ s with cache := { s.cache with interval := imm.toNat % 2 ^ s.cfg.timeW } }.complete 0 0))
  | tearsDown {imm : Word} : Form s (.csrw 1 imm) (.next ({ s.emptied with online := false }.complete 0 0))

theorem form_of_raise {s : State} {i : Instr} {e : Err} {lo : Word} {u : Bool} (h : alwaysActs i = false) :
    Form s i (raise s e lo u) := .publishes _ _ h

theorem form_of_succeed {s : State} {i : Instr} {hi lo : Word} (h : alwaysActs i = false) : Form s i (succeed s hi lo) :=
  .publishes _ _ h

theorem form_of_readEnd {s : State} {i : Instr} (f : ReadField) (n : Nat) (h : alwaysActs i = false) : Form s i (readEnd f n s) := by
  unfold readEnd
  split
  · exact form_of_raise h
  · exact form_of_succeed h

theorem form_of_readOf {s : State} {i : Instr} {f : ReadField} {n : Nat} (hread : readOf i = some (f, n))
    (h : alwaysActs i = false) : Form s i (exec i s) := by
  rw [exec_of_readOf s hread]
  cases hfresh : fresh s.cfg s.cache s.now with
  | true =>
    rw [consumerRead_of_fresh hfresh]
    exact form_of_readEnd f n h
  | false =>
    rw [consumerRead_of_stale hfresh]
    exact .polls (.read hread hfresh)

/-- Every operation has one of the forms. -/
theorem exec_form (i : Instr) (s : State) : Form s i (exec i s) := by
  cases i with
  | encode seq ctype len imm =>
    obtain h | h := Nat.lt_or_ge len.toNat 3
    · exact (encodeBuildsFrame seq ctype len imm s (Nat.le_of_lt_succ h)).symm ▸ .encodes _ _
    · exact (exec_encode_of_long imm s h).symm ▸ form_of_raise rfl
  | send seq ctype len imm =>
    obtain h | h := Nat.lt_or_ge len.toNat 3
    · exact (exec_send_of_legal imm s h).symm ▸ .sends
    · exact (exec_send_of_long imm s h).symm ▸ form_of_raise rfl
  | fetch =>
    obtain h | h := Nat.lt_or_ge s.rawLen.val 8
    · exact (exec_fetch_of_noHead h).symm ▸ form_of_raise rfl
    · exact (exec_fetch_of_head h).symm ▸ .fetches
  | parse => exact .parses
  | deinit => exact .releases
  | refresh => exact .polls .refresh
  | get =>
    cases hfresh : fresh s.cfg s.cache s.now with
    | true => exact (exec_get_of_fresh hfresh).symm ▸ .publishes _ _ rfl
    | false =>
      have hpoll : exec .get s = runPoll .get s := if_neg (Bool.eq_false_iff.mp hfresh)
      exact hpoll.symm ▸ .polls (.get hfresh)
  | rdTemp index | rdTempId index | rdFreq index | rdFreqId index
  | rdPowr index | rdPowrId index | rdPowrTag index | rdPowrAcc index => exact form_of_readOf rfl rfl
  | rdCaps index =>
    cases hfield : capsFieldOf index with
    | none =>
      simp only [exec, execRdCaps, hfield]
      exact form_of_raise rfl
    | some c =>
      have hread : readOf (.rdCaps index) = some (.caps c, 0) := by simp only [readOf, hfield, Option.map_some]
      exact form_of_readOf hread rfl
  | rdBlk index =>
    simp only [exec, execRdBlk]
    split
    · exact form_of_raise rfl
    · exact form_of_succeed rfl
  | rdHdr index =>
    simp only [exec, execRdHdr]
    split
    · exact form_of_raise rfl
    · exact form_of_succeed rfl
  | setPowercap v => exact (exec_setPowercap v s).symm ▸ .caps
  | csrr csr =>
    simp only [exec, execCsrr]
    split
    · exact form_of_raise rfl
    · exact form_of_succeed rfl
  | csrw csr imm =>
    by_cases h0 : csr = 0
    · subst h0
      exact .times
    by_cases h1 : csr = 1
    · subst h1
      cases hbit : imm.getLsbD 0 with
      | true => exact (exec_csrw_online s hbit).symm ▸ .polls (.online hbit)
      | false => exact (exec_csrw_offline s hbit).symm ▸ .tearsDown
    · have hrange : 1 < csr.toNat := by bv_omega
      exact (exec_csrw_of_readOnly imm s hrange).symm ▸ .publishes _ _ rfl

end Sys2Proof.Machine
end

section
/-! SUPPORT. Frames of all operations: the record of calls (70_reset_and_hazards.md R363), the raw buffer (10_state.md R26), the snapshot
(60_exceptions.md R312), the `valid` flag (44_poll_cache.md R247) and `user_powercap` (45_consumer_ops.md R277). -/

namespace Sys2Proof.Machine

/-! ### What a Send, a Fetch and a poll leave -/

/-- The decoded response, the cache and the latched NOW are those of `s`. -/
structure State.SameSnapshot (s t : State) : Prop where
  dec : t.dec = s.dec
  cache : t.cache = s.cache
  now : t.now = s.now

theorem State.SameSnapshot.trans {s t u : State} (h : s.SameSnapshot t) (g : t.SameSnapshot u) : s.SameSnapshot u :=
  ⟨g.dec.trans h.dec, g.cache.trans h.cache, g.now.trans h.now⟩

/-- R151, R158: a Send of `s` issued at most eight calls and stored at offsets 0 to 7 only. -/
structure State.SendFrame (s t : State) : Prop where
  snapshot : s.SameSnapshot t
  calls : t.calls.length ≤ s.calls.length + 8
  raw : ∀ a, 8 ≤ a → t.raw.read a = s.raw.read a

theorem commandCalls_length (bus : OpenParams) (w1 w2 : Word) : (commandCalls bus w1 w2).length = 8 := rfl

theorem sendRun_begun_frame (s : State) (o : SendOwner) : (sendRun (s.begun o)).All s.SendFrame := by
  obtain ⟨oks, b, rest, hl, ha⟩ | ⟨oks, rest, hl, ha⟩ | ⟨oks, hl, ha⟩ := send_answers s.answers
  · have hraw : ∀ a, 8 ≤ a → (s.sent b rest).raw.read a = s.raw.read a := fun a h =>
      Memory.read_writeBytes_outside _ (.inr (by simpa using h))
    have hcalls : (s.sent b rest).calls.length ≤ s.calls.length + 8 := by simp [commandCalls_length]
    rw [sendRun_begun_ok s o oks b rest ⟨hl, ha⟩]
    split
    · exact ⟨⟨rfl, rfl, rfl⟩, hcalls, hraw⟩
    · exact ⟨⟨rfl, rfl, rfl⟩, hcalls, hraw⟩
  · rw [sendRun_begun_err s o oks rest hl ha]
    exact ⟨⟨rfl, rfl, rfl⟩, by simp [commandCalls_length], fun _ _ => rfl⟩
  · rw [sendRun_begun_wait s o oks hl ha]
    exact ⟨⟨rfl, rfl, rfl⟩, by simp [commandCalls_length], fun _ _ => rfl⟩

/-- R163, R164: a Fetch of `s` issued at most 511 reads and stored from offset 8 up to its final `raw_len` only. -/
structure State.FetchFrame (s t : State) : Prop where
  snapshot : s.SameSnapshot t
  calls : t.calls.length ≤ s.calls.length + 511
  raw : ∀ a, a < 8 ∨ t.rawLen.val ≤ a → t.raw.read a = s.raw.read a

theorem State.fetched_frame {s : State} {chunks : List (Vector Byte 8)} {extra : Nat} (rest : List Answer)
    (h : chunks.length + extra ≤ 511) : s.FetchFrame (s.fetched chunks extra rest) := by
  refine ⟨⟨rfl, rfl, rfl⟩, by simpa using h, fun a ha => ?_⟩
  have hlen : (s.fetched chunks extra rest).rawLen.val = 8 + 8 * chunks.length := RawLen.ofNat_val (by omega)
  have hbytes : (chunks.flatMap fun b => b.toList).length = 8 * chunks.length := by
    simp [List.length_flatMap, Nat.mul_comm]
  exact Memory.read_writeBytes_outside _ (by rw [hlen] at ha; omega)

theorem fetchRun_begun_frame (s : State) (o : FetchOwner) : (fetchRun (fetchBegin o s)).All s.FetchFrame := by
  have hle := fetchReads_le (be16 s.raw 3)
  obtain ⟨chunks, rest, hl, ha⟩ | ⟨chunks, rest, hl, ha⟩ | ⟨chunks, hl, ha⟩ := fetch_answers (fetchReads (be16 s.raw 3)) s.answers
  · obtain ⟨hsnap, hcalls, hraw⟩ := State.fetched_frame (s := s) (chunks := chunks) (extra := 0) rest (by omega)
    rw [fetchRun_begun_ok s o chunks rest hl ha]
    exact ⟨⟨hsnap.dec, hsnap.cache, hsnap.now⟩, hcalls, hraw⟩
  · obtain ⟨hsnap, hcalls, hraw⟩ := State.fetched_frame (s := s) (chunks := chunks) (extra := 1) rest (by omega)
    rw [fetchRun_begun_err s o chunks rest hl ha]
    exact ⟨⟨hsnap.dec, hsnap.cache, hsnap.now⟩, hcalls, hraw⟩
  · obtain ⟨hsnap, hcalls, hraw⟩ := State.fetched_frame (s := s) (chunks := chunks) (extra := 0) [] (by omega)
    rw [fetchRun_begun_wait s o chunks hl ha]
    exact ⟨⟨hsnap.dec, hsnap.cache, hsnap.now⟩, hcalls, hraw⟩

/-- R243, R363: what a poll of `s` leaves, however it stands: at most 519 calls, and the bytes from its final `raw_len` on. -/
structure State.PollFrame (s t : State) : Prop where
  calls : t.calls.length ≤ s.calls.length + 519
  raw : ∀ a, 8 ≤ a → t.rawLen.val ≤ a → t.raw.read a = s.raw.read a

/-- The same, with the cache as each end of a poll leaves it (R244 to R246). -/
def Proc.Polled (s : State) : Proc → Prop
  | .done t => s.PollFrame t ∧ t.cache = { s.cache with valid := true, lastUpdated := s.now }
  | .raised _ t => s.PollFrame t ∧ t.cache = { s.cache with valid := false }
  | .waiting t => s.PollFrame t ∧ t.cache = s.cache
  | .halted _ => True

theorem State.SendFrame.poll {s t : State} (h : s.SendFrame t) : s.PollFrame t :=
  ⟨by have := h.calls; omega, fun a ha _ => h.raw a ha⟩

theorem State.SendFrame.fetch {s t u : State} (h : s.SendFrame t) (g : t.FetchFrame u) : s.PollFrame u :=
  ⟨by have := h.calls; have := g.calls; omega, fun a ha hlen => (g.raw a (.inr hlen)).trans (h.raw a ha)⟩

theorem pollParse_polled {s t : State} (h : s.PollFrame t) (hs : s.SameSnapshot t) : (pollParse t).Polled s := by
  rw [pollParse_eq]
  split
  · exact ⟨⟨h.calls, h.raw⟩, by simp [hs.cache, hs.now]⟩
  · exact ⟨⟨h.calls, h.raw⟩, by simp [hs.cache]⟩

theorem afterFetch_polled {s t : State} {f : Proc} (h : s.SendFrame t) (hf : f.All t.FetchFrame) : (afterFetch f).Polled s := by
  cases f with
  | done u => exact pollParse_polled (h.fetch hf) (h.snapshot.trans hf.snapshot)
  | raised e u =>
    have hpoll := h.fetch hf
    exact ⟨⟨hpoll.calls, hpoll.raw⟩, by simp [(h.snapshot.trans hf.snapshot).cache]⟩
  | waiting u => exact ⟨h.fetch hf, (h.snapshot.trans hf.snapshot).cache⟩
  | halted f => exact True.intro

theorem afterSend_polled {s : State} (o : PollOwner) {f : Proc} (h : f.All s.SendFrame) : (afterSend o f).Polled s := by
  cases f with
  | done t => exact afterFetch_polled h (fetchRun_begun_frame t (.poll o))
  | raised e t =>
    have hpoll := State.SendFrame.poll h
    exact ⟨⟨hpoll.calls, hpoll.raw⟩, by simp [h.snapshot.cache]⟩
  | waiting t => exact ⟨State.SendFrame.poll h, h.snapshot.cache⟩
  | halted f => exact True.intro

theorem Proc.All.imp {P Q : State → Prop} {p : Proc} (h : p.All P) (hpq : ∀ t, P t → Q t) : p.All Q := by
  cases p with
  | done t => exact hpq t h
  | raised e t => exact hpq t h
  | waiting t => exact hpq t h
  | halted f => exact True.intro

theorem pollSend_polled (o : PollOwner) (s : State) : (pollSend o (pollBegin o s)).Polled s := by
  rw [pollSend, pollBegin_eq]
  refine afterSend_polled o ((sendRun_begun_frame s.framedPoll (.poll o)).imp fun t h => ?_)
  exact ⟨⟨h.snapshot.dec, h.snapshot.cache, h.snapshot.now⟩, h.calls, h.raw⟩

theorem Proc.Polled.frame {s : State} {p : Proc} (h : p.Polled s) : p.All s.PollFrame := by
  cases p with
  | done t => exact h.1
  | raised e t => exact h.1
  | waiting t => exact h.1
  | halted f => exact True.intro

/-! ### What the end of an operation keeps -/

/-- An operation's result comes from one of its forms. -/
theorem form_of_exec {i : Instr} {s t : State} (h : exec i s = .next t) : ∃ r, Form s i r ∧ r = .next t := ⟨_, exec_form i s, h⟩

theorem succeed_keeps {P : State → Prop} (hc : ∀ u r e, P u → P (u.complete r e)) {s t : State} {hi lo : Word} (h : P s)
    (hr : succeed s hi lo = .next t) : P t := by
  cases hr
  exact hc _ _ _ h

theorem raise_keeps {P : State → Prop} (hc : ∀ u r e, P u → P (u.complete r e)) {s t : State} {e : Err} {lo : Word} {u : Bool}
    (h : P s) (hr : raise s e lo u = .next t) : P t := by
  cases hr
  exact hc _ _ _ h

theorem endSend_keeps {P : State → Prop} (hc : ∀ u r e, P u → P (u.complete r e)) {p : Proc} {t : State} (h : p.All P)
    (hr : endSend p = .next t) : P t :=
  h.finish (fun _ => succeed_keeps hc) (fun _ _ => raise_keeps hc) hr

theorem endFetch_keeps {P : State → Prop} (hc : ∀ u r e, P u → P (u.complete r e)) {p : Proc} {t : State} (h : p.All P)
    (hr : endFetch p = .next t) : P t :=
  h.finish (fun _ => succeed_keeps hc) (fun _ _ => raise_keeps hc) hr

theorem endPowercap_keeps {P : State → Prop} (hc : ∀ u r e, P u → P (u.complete r e))
    {v : Half} (hv : ∀ u, P u → P { u with userPowercap := v }) {p : Proc} {t : State} (h : p.All P)
    (hr : endPowercap v p = .next t) : P t :=
  h.finish (fun u hu => succeed_keeps hc (hv u hu)) (fun _ _ => raise_keeps hc) hr

theorem readEnd_keeps {P : State → Prop} (hc : ∀ u r e, P u → P (u.complete r e)) {f : ReadField} {n : Nat} {s t : State} (h : P s)
    (hr : readEnd f n s = .next t) : P t := by
  unfold readEnd at hr
  split at hr
  · exact raise_keeps hc h hr
  · exact succeed_keeps hc h hr

theorem endPoll_keeps {P : State → Prop} (hc : ∀ u r e, P u → P (u.complete r e)) {o : PollOwner}
    (ho : o = .online → ∀ u b, P u → P { u with online := b }) {p : Proc} {t : State} (h : p.All P)
    (hr : endPoll o p = .next t) : P t := by
  cases o with
  | refresh | get => exact h.finish (fun _ => succeed_keeps hc) (fun _ _ => raise_keeps hc) hr
  | online => exact h.finish (fun u hu => succeed_keeps hc (ho rfl u _ hu)) (fun _ u hu => raise_keeps hc (ho rfl u _ hu)) hr
  | read f n => exact h.finish (fun _ => readEnd_keeps hc) (fun _ _ => raise_keeps hc) hr

/-! ### The snapshot and the settings (R312) -/

/-- R39, R285, R286: `online` and the interval are those of `s`. -/
def State.SameSettings (s t : State) : Prop := t.online = s.online ∧ t.cache.interval = s.cache.interval

theorem State.SameSettings.of_aside {s t : State} (h : t.aside = s.aside) : s.SameSettings t :=
  ⟨congrArg Aside.online h, congrArg Aside.interval h⟩

/-- R285: only a write to ONLINE polls as the owner that sets `online`. -/
theorem Polls.owner {s : State} {i : Instr} {o : PollOwner} (h : Polls s i o) (hi : ∀ csr imm, i ≠ .csrw csr imm) : o ≠ .online := by
  rintro rfl
  cases h with
  | online hbit => exact hi _ _ rfl

theorem exec_settings {i : Instr} {s t : State} (hi : ∀ csr imm, i ≠ .csrw csr imm) (h : exec i s = .next t) :
    s.SameSettings t := by
  have hc : ∀ (u : State) (r : DWord) (e : Word), s.SameSettings u → s.SameSettings (u.complete r e) := fun _ _ _ hu => hu
  obtain ⟨r, hform, hr⟩ := form_of_exec h
  cases hform with
  | publishes _ _ _ | encodes | releases => cases hr; exact ⟨rfl, rfl⟩
  | sends =>
    refine endSend_keeps hc ?_ hr
    exact (sendRun_aside _).imp fun _ ht => State.SameSettings.of_aside ht
  | fetches =>
    refine endFetch_keeps hc ?_ hr
    exact (fetchRun_aside _).imp fun _ ht => State.SameSettings.of_aside ht
  | parses =>
    have hparse : (parseProc s).All s.SameSettings := (parseProc_aside s).imp fun _ => State.SameSettings.of_aside
    exact hparse.finish (fun _ => succeed_keeps hc) (fun _ _ => raise_keeps hc) hr
  | @polls _ o hpoll =>
    exact endPoll_keeps hc (fun ho => absurd ho (hpoll.owner hi))
      ((pollSend_aside o s).imp fun _ => State.SameSettings.of_aside) hr
  | caps =>
    refine endPowercap_keeps hc (fun _ hu => hu) ?_ hr
    exact (sendRun_aside _).imp fun _ ht => State.SameSettings.of_aside ht
  | times => exact absurd rfl (hi _ _)
  | tearsDown => exact absurd rfl (hi _ _)

/-- R312: the operations that leave the decoded response and the poll cache alone. -/
def keepsSnapshot : Instr → Bool
  | .encode _ _ _ _ | .send _ _ _ _ | .fetch | .setPowercap _ | .rdBlk _ | .rdHdr _ | .csrr _ => true
  | .parse | .deinit | .refresh | .get | .rdTemp _ | .rdTempId _ | .rdFreq _ | .rdFreqId _ | .rdPowr _ | .rdPowrId _ => false
  | .rdPowrTag _ | .rdPowrAcc _ | .rdCaps _ | .csrw _ _ => false

theorem Polls.not_keepsSnapshot {s : State} {i : Instr} {o : PollOwner} (h : Polls s i o) : keepsSnapshot i = false := by
  cases h with
  | refresh | get | online => rfl
  | read hread =>
    cases i with
    | encode | send | fetch | setPowercap | rdBlk | rdHdr | csrr => cases hread
    | _ => rfl

theorem exec_snapshot {i : Instr} {s t : State} (hi : keepsSnapshot i = true) (h : exec i s = .next t) :
    t.dec = s.dec ∧ t.cache = s.cache := by
  have hc : ∀ (u : State) (r : DWord) (e : Word), s.SameSnapshot u → s.SameSnapshot (u.complete r e) :=
    fun _ _ _ hu => ⟨hu.dec, hu.cache, hu.now⟩
  have hkept : s.SameSnapshot t := by
    obtain ⟨r, hform, hr⟩ := form_of_exec h
    cases hform with
    | publishes | encodes => cases hr; exact ⟨rfl, rfl, rfl⟩
    | sends =>
      refine endSend_keeps hc ?_ hr
      exact (sendRun_begun_frame _ _).imp fun _ hu => ⟨hu.snapshot.dec, hu.snapshot.cache, hu.snapshot.now⟩
    | fetches => exact endFetch_keeps hc ((fetchRun_begun_frame s .host).imp fun _ hu => hu.snapshot) hr
    | caps =>
      refine endPowercap_keeps hc (fun _ hu => ⟨hu.dec, hu.cache, hu.now⟩) ?_ hr
      exact (sendRun_begun_frame _ _).imp fun _ hu => ⟨hu.snapshot.dec, hu.snapshot.cache, hu.snapshot.now⟩
    | polls hpoll => exact absurd hi (Bool.eq_false_iff.mp hpoll.not_keepsSnapshot)
    | parses | releases | times | tearsDown => cases hi
  exact ⟨hkept.dec, hkept.cache⟩

/-- Settles O60: the operations of the first part are those of `exec_snapshot`, the second part is `exec_settings`. -/
theorem snapshotFrame : Obligations.SnapshotFrame := by
  unfold Obligations.SnapshotFrame
  intro i s t h
  constructor
  · cases i with
    | encode | send | fetch | setPowercap | rdBlk | rdHdr | csrr => exact exec_snapshot rfl h
    | _ => exact True.intro
  · cases i with
    | csrw => exact True.intro
    | _ => exact exec_settings (fun _ _ hi => by cases hi) h

/-! ### The calls (R363) -/

theorem Polls.mayCall {s : State} {i : Instr} {o : PollOwner} (h : Polls s i o) : mayCall s i = true := by
  cases h with
  | refresh => rfl
  | get hstale => simp [Machine.mayCall, hstale]
  | read hread hstale =>
    cases i with
    | rdTemp | rdTempId | rdFreq | rdFreqId | rdPowr | rdPowrId | rdPowrTag | rdPowrAcc | rdCaps =>
      simp [Machine.mayCall, hread, hstale]
    | _ => cases hread
  | online hbit => simpa [Machine.mayCall] using hbit

theorem execParse_calls {s t : State} (h : execParse s = .next t) : t.calls = s.calls ∧ t.answers = s.answers := by
  have hparse : (parseProc s).All fun u => u.calls = s.calls ∧ u.answers = s.answers :=
    parse_all (fun _ _ _ h => h) (fun _ h => h) s ⟨rfl, rfl⟩
  have hc : ∀ (u : State) (r : DWord) (e : Word), u.calls = s.calls ∧ u.answers = s.answers →
      (u.complete r e).calls = s.calls ∧ (u.complete r e).answers = s.answers := fun _ _ _ hu => hu
  exact hparse.finish (fun _ => succeed_keeps hc) (fun _ _ => raise_keeps hc) h

theorem exec_silent {i : Instr} {s t : State} (hi : mayCall s i = false) (h : exec i s = .next t) :
    t.calls = s.calls ∧ t.answers = s.answers := by
  obtain ⟨r, hform, hr⟩ := form_of_exec h
  cases hform with
  | publishes | encodes | releases | times | tearsDown => cases hr; exact ⟨rfl, rfl⟩
  | parses => exact execParse_calls hr
  | polls hpoll => exact absurd hpoll.mayCall (Bool.eq_false_iff.mp hi)
  | sends | fetches | caps => cases hi

/-- At most `n` calls more than in `s`. -/
def State.CallsWithin (n : Nat) (s t : State) : Prop := t.calls.length ≤ s.calls.length + n

theorem exec_calls_le {i : Instr} {s t : State} (h : exec i s = .next t) : s.CallsWithin 519 t := by
  have hc : ∀ (u : State) (r : DWord) (e : Word), s.CallsWithin 519 u → s.CallsWithin 519 (u.complete r e) := fun _ _ _ hu => hu
  have hle : ∀ {n : Nat} {u : State}, n ≤ 519 → u.calls.length ≤ s.calls.length + n → s.CallsWithin 519 u :=
    fun hn hu => hu.trans (Nat.add_le_add_left hn _)
  obtain ⟨r, hform, hr⟩ := form_of_exec h
  cases hform with
  | publishes | encodes | releases | times | tearsDown => cases hr; exact Nat.le_add_right _ _
  | parses => exact hle (n := 0) (by decide) (congrArg List.length (execParse_calls hr).1).le
  | sends =>
    refine endSend_keeps hc ?_ hr
    exact (sendRun_begun_frame _ _).imp fun _ hu => hle (by decide) hu.calls
  | fetches => exact endFetch_keeps hc ((fetchRun_begun_frame s .host).imp fun _ hu => hle (by decide) hu.calls) hr
  | caps =>
    refine endPowercap_keeps hc (fun _ hu => hu) ?_ hr
    exact (sendRun_begun_frame _ _).imp fun _ hu => hle (by decide) hu.calls
  | @polls _ o hpoll =>
    exact endPoll_keeps hc (fun _ _ _ hu => hu) ((pollSend_polled o s).frame.imp fun _ hu => hu.calls) hr

/-- Settles O13: `exec_silent` and `exec_calls_le`. -/
theorem callsPerOperation : Obligations.CallsPerOperation := by
  unfold Obligations.CallsPerOperation
  exact fun i s t h => ⟨fun hi => exec_silent hi h, exec_calls_le h⟩

/-! ### The raw buffer (R26) -/

/-- The raw buffer of `s`, but for the offsets below 8 and those below the final `raw_len`. -/
def State.RawAbove (s t : State) : Prop := ∀ a, 8 ≤ a ∧ t.rawLen.val ≤ a → t.raw.read a = s.raw.read a

theorem poll_rawAbove {o : PollOwner} {s t : State} (h : endPoll o (pollSend o (pollBegin o s)) = .next t) : s.RawAbove t := by
  have hpoll : (pollSend o (pollBegin o s)).All s.RawAbove := (pollSend_polled o s).frame.imp fun _ hu a ha => hu.raw a ha.1 ha.2
  exact endPoll_keeps (fun _ _ _ hu => hu) (fun _ _ _ hu => hu) hpoll h

theorem execParse_raw {s t : State} (h : execParse s = .next t) : t.raw = s.raw := by
  have hparse : (parseProc s).All fun u => u.raw = s.raw := parse_all (fun _ _ _ h => h) (fun _ h => h) s rfl
  have hc : ∀ (u : State) (r : DWord) (e : Word), u.raw = s.raw → (u.complete r e).raw = s.raw := fun _ _ _ hu => hu
  exact hparse.finish (fun _ => succeed_keeps hc) (fun _ _ => raise_keeps hc) h

/-- R158: a SEND or a SET_POWERCAP stores the head only. -/
def State.RawFrom8 (s t : State) : Prop := ∀ a, 8 ≤ a → t.raw.read a = s.raw.read a

/-- R164: a FETCH stores from offset 8 up to its final `raw_len`. -/
def State.RawOutside (s t : State) : Prop := ∀ a, a < 8 ∨ t.rawLen.val ≤ a → t.raw.read a = s.raw.read a

/-- Settles O21: by form; the stores are those of the frames of `Send`, `Fetch` and the poll. -/
theorem rawBufferFrame : Obligations.RawBufferFrame := by
  unfold Obligations.RawBufferFrame
  intro i s t h
  obtain ⟨r, hform, hr⟩ := form_of_exec h
  cases hform with
  | publishes | encodes | releases | times | tearsDown => cases hr; exact fun _ _ => rfl
  | parses => exact fun a _ => congrArg (Memory.read · a) (execParse_raw hr)
  | sends =>
    have hkept : s.RawFrom8 t := by
      refine endSend_keeps (fun _ _ _ hu => hu) ?_ hr
      exact (sendRun_begun_frame _ _).imp fun _ hu => hu.raw
    exact hkept
  | caps =>
    have hkept : s.RawFrom8 t := by
      refine endPowercap_keeps (fun _ _ _ hu => hu) (fun _ hu => hu) ?_ hr
      exact (sendRun_begun_frame _ _).imp fun _ hu => hu.raw
    exact hkept
  | fetches =>
    have hkept : s.RawOutside t :=
      endFetch_keeps (fun _ _ _ hu => hu) ((fetchRun_begun_frame s .host).imp fun _ hu => hu.raw) hr
    exact hkept
  | polls hpoll =>
    have hkept : s.RawAbove t := poll_rawAbove hr
    cases hpoll with
    | refresh | get | online => exact hkept
    | read hread =>
      cases i with
      | rdTemp | rdTempId | rdFreq | rdFreqId | rdPowr | rdPowrId | rdPowrTag | rdPowrAcc | rdCaps => exact hkept
      | _ => cases hread

/-! ### The `valid` flag (R247) -/

/-- What an operation that polled left in the cache: the mark of R246, a stale cache, or the cache of `s`. -/
def State.CacheAfterPoll (s t : State) : Prop :=
  t.cache = { s.cache with valid := true, lastUpdated := s.now } ∨ t.cache = { s.cache with valid := false } ∨ t.cache = s.cache

theorem poll_cache {o : PollOwner} {s t : State} (h : endPoll o (pollSend o (pollBegin o s)) = .next t) : s.CacheAfterPoll t := by
  have hpolled := pollSend_polled o s
  have hpoll : (pollSend o (pollBegin o s)).All s.CacheAfterPoll := by
    cases hp : pollSend o (pollBegin o s) with
    | done u => rw [hp] at hpolled; exact .inl hpolled.2
    | raised e u => rw [hp] at hpolled; exact .inr (.inl hpolled.2)
    | waiting u => rw [hp] at hpolled; exact .inr (.inr hpolled.2)
    | halted f => exact True.intro
  exact endPoll_keeps (fun _ _ _ hu => hu) (fun _ _ _ hu => hu) hpoll h

/-- R240, R247: what such an operation may have done to `valid` and to `last_updated`. -/
theorem State.CacheAfterPoll.flag {s t : State} (h : s.CacheAfterPoll t) :
    (t.cache.valid = true → s.cache.valid = false → t.cache.lastUpdated = s.now) ∧
    (t.cache.lastUpdated ≠ s.cache.lastUpdated → t.cache.valid = true ∧ t.cache.lastUpdated = s.now) := by
  obtain h | h | h := h
  · simp [h]
  · simp [h]
  · rw [h]
    exact ⟨fun hv hs => absurd (hs.symm.trans hv) Bool.false_ne_true, fun hne => absurd rfl hne⟩

/-- R244 to R246: a REFRESH that is over left the cache valid, at the latched NOW, exactly when it reports no error. -/
theorem refresh_valid {s t : State} (h : endRefresh (pollSend .refresh (pollBegin .refresh s)) = .next t) (ht : t.finished) :
    (t.cache.valid = true ↔ t.err = 0) ∧ (t.err = 0 → t.cache.lastUpdated = s.now) := by
  have hpolled := pollSend_polled .refresh s
  have hunpub := pollSend_unpublished .refresh s
  cases hp : pollSend .refresh (pollBegin .refresh s) with
  | done u =>
    rw [hp] at hpolled h
    cases h
    simp [hpolled.2]
  | raised e u =>
    rw [hp] at hpolled h
    cases h
    have hne : e.word u.cfg false ≠ 0 := e.word_ne_zero _ _
    exact ⟨iff_of_false (by simp [hpolled.2]) hne, fun hok => absurd hok hne⟩
  | waiting u =>
    rw [hp] at hunpub h
    cases h
    exact absurd ht hunpub.2.not_finished
  | halted f =>
    rw [hp] at h
    cases h

/-- R199, R200: PARSE never sets `valid`, and clears it with every error. -/
theorem execParse_valid {s t : State} (h : execParse s = .next t) :
    (t.cache.valid = true → s.cache.valid = true ∧ t.err = 0) ∧ t.cache.lastUpdated = s.cache.lastUpdated := by
  unfold execParse parseProc at h
  split at h
  · cases h
    exact ⟨fun hv => ⟨hv, rfl⟩, rfl⟩
  · cases h
    exact ⟨nofun, rfl⟩

/-- Settles O43: by form; the operations of the first row keep the cache (`exec_snapshot`), the others are PARSE, a teardown or a poll. -/
theorem validFlagWriters : Obligations.ValidFlagWriters := by
  unfold Obligations.ValidFlagWriters
  intro i s t h
  cases hkeep : keepsSnapshot i with
  | true =>
    have hcache := (exec_snapshot hkeep h).2
    rw [hcache]
    cases i with
    | encode | send | fetch | setPowercap | rdBlk | rdHdr | csrr => exact ⟨rfl, fun hne => absurd rfl hne⟩
    | _ => cases hkeep
  | false =>
    obtain ⟨r, hform, hr⟩ := form_of_exec h
    cases hform with
    | publishes _ _ hacts =>
      cases hr
      cases i with
      | encode | send | fetch | setPowercap | rdBlk | rdHdr | csrr => cases hkeep
      | parse | deinit | refresh => cases hacts
      | _ => exact ⟨fun hv hs => absurd (hs.symm.trans hv) Bool.false_ne_true, fun hne => absurd rfl hne⟩
    | encodes | sends | fetches | caps => cases hkeep
    | parses =>
      obtain ⟨hvalid, hlast⟩ := execParse_valid hr
      exact ⟨hvalid, fun hne => absurd hlast hne⟩
    | releases => cases hr; exact ⟨rfl, fun hne => absurd rfl hne⟩
    | times => cases hr; exact ⟨fun hv hs => absurd (hs.symm.trans hv) Bool.false_ne_true, fun hne => absurd rfl hne⟩
    | tearsDown => cases hr; exact ⟨nofun, fun hne => absurd rfl hne⟩
    | polls hpoll =>
      have hflag := (poll_cache hr).flag
      cases hpoll with
      | refresh => exact ⟨refresh_valid hr, hflag.2⟩
      | get | online => exact hflag
      | read hread =>
        cases i with
        | rdTemp | rdTempId | rdFreq | rdFreqId | rdPowr | rdPowrId | rdPowrTag | rdPowrAcc | rdCaps => exact hflag
        | _ => cases hread

end Sys2Proof.Machine
end

section
/-! SUPPORT. Where an operation waits (00_scope.md R9, log entry 4): a procedure that waits stands before a call with no answer left, in the
activity it runs in. -/

namespace Sys2Proof.Machine

/-! ### Procedures that wait -/

/-- R24: a SEND waits before one of its eight calls. -/
theorem sendRun_waiting {s w : State} (h : sendRun s = .waiting w) :
    w.activity = s.activity ∧ w.seqStep < 8 ∧ w.answers = [] := by
  unfold sendRun at h
  cases hp : runWrites ((sendWrites s.cfg.bus s.work.w1 s.work.w2).drop s.seqStep) s with
  | done t =>
    rw [hp] at h
    obtain ⟨rfl, hans, hstep⟩ := sendTail_waiting t w h
    exact ⟨runWrites_activity _ hp, hstep, hans⟩
  | waiting t =>
    rw [hp] at h
    cases h
    obtain ⟨-, -, hans, hact, -, hstep⟩ := runWrites_waiting _ _ _ hp
    rw [List.length_drop, sendWrites_length] at hstep
    exact ⟨hact, by omega, hans⟩
  | raised e t =>
    rw [hp] at h
    cases h
  | halted f =>
    rw [hp] at h
    cases h

theorem fetchLoop_waiting (n : Nat) {s w : State} (h : fetchLoop n s = .waiting w) :
    w.activity = s.activity ∧ w.work.foff < w.work.total ∧ w.answers = [] := by
  induction n generalizing s with
  | zero => cases h
  | succ n ih =>
    unfold fetchLoop at h
    split at h
    next hlt =>
      split at h
      next hans =>
        cases h
        exact ⟨rfl, hlt, hans⟩
      next => cases h
      next =>
        split at h
        · obtain ⟨hact, hrest⟩ := ih h
          exact ⟨hact, hrest⟩
        · cases h
    next => cases h

/-- R162: a FETCH waits before a read. -/
theorem fetchRun_waiting {s w : State} (h : fetchRun s = .waiting w) :
    w.activity = s.activity ∧ w.work.foff < w.work.total ∧ w.answers = [] := fetchLoop_waiting _ h

/-- The procedure waits, if it waits, in a state of `A`. -/
def Proc.WaitsIn (A : State → Prop) : Proc → Prop
  | .waiting w => A w
  | .done _ => True
  | .raised _ _ => True
  | .halted _ => True

theorem sendRun_waitsIn {A : State → Prop} {s : State} (h : ∀ w, w.activity = s.activity → w.seqStep < 8 → A w) :
    (sendRun s).WaitsIn A := by
  cases hp : sendRun s with
  | waiting w =>
    obtain ⟨hact, hstep, -⟩ := sendRun_waiting hp
    exact h w hact hstep
  | done t | raised e t | halted f => exact True.intro

theorem fetchRun_waitsIn {A : State → Prop} {s : State} (h : ∀ w, w.activity = s.activity → w.work.foff < w.work.total → A w) :
    (fetchRun s).WaitsIn A := by
  cases hp : fetchRun s with
  | waiting w =>
    obtain ⟨hact, hleft, -⟩ := fetchRun_waiting hp
    exact h w hact hleft
  | done t | raised e t | halted f => exact True.intro

theorem afterFetch_waitsIn {A : State → Prop} {f : Proc} (h : f.WaitsIn A) : (afterFetch f).WaitsIn A := by
  cases f with
  | done u =>
    have hparse : (pollParse u).WaitsIn A := by
      rw [pollParse_eq]
      split
      · exact True.intro
      · exact True.intro
    exact hparse
  | raised e u => exact True.intro
  | waiting u => exact h
  | halted f => exact True.intro

/-- The poll of `o` may wait in its Fetch. -/
def FetchIn (A : State → Prop) (o : PollOwner) : Prop := ∀ w : State, w.activity = .fetching (.poll o) → w.work.foff < w.work.total → A w

theorem afterSend_waitsIn {A : State → Prop} {o : PollOwner} {f : Proc} (h : f.WaitsIn A) (ho : FetchIn A o) :
    (afterSend o f).WaitsIn A := by
  cases f with
  | done u => exact afterFetch_waitsIn (fetchRun_waitsIn ho)
  | raised e u => exact True.intro
  | waiting u => exact h
  | halted f => exact True.intro

/-- The operation is over, or it stands in a state of `A`. -/
def OverOrIn (A : State → Prop) (t : State) : Prop := t.finished ∨ A t

theorem Proc.WaitsIn.finish {A : State → Prop} {p : Proc} {ok : State → Result} {err : Err → State → Result} {t : State}
    (h : p.WaitsIn A) (hok : ∀ u, ok u = .next t → t.finished) (herr : ∀ e u, err e u = .next t → t.finished)
    (hr : p.finish ok err = .next t) : OverOrIn A t := by
  cases p with
  | done u => exact .inl (hok u hr)
  | raised e u => exact .inl (herr e u hr)
  | waiting u => cases hr; exact .inr h
  | halted f => cases hr

theorem endSend_in {A : State → Prop} {p : Proc} {t : State} (h : p.WaitsIn A) (hr : endSend p = .next t) : OverOrIn A t :=
  h.finish (fun _ => succeed_finished) (fun _ _ => raise_finished) hr

theorem endFetch_in {A : State → Prop} {p : Proc} {t : State} (h : p.WaitsIn A) (hr : endFetch p = .next t) : OverOrIn A t :=
  h.finish (fun _ => succeed_finished) (fun _ _ => raise_finished) hr

theorem endPowercap_in {A : State → Prop} {v : Half} {p : Proc} {t : State} (h : p.WaitsIn A) (hr : endPowercap v p = .next t) :
    OverOrIn A t :=
  h.finish (fun _ => succeed_finished) (fun _ _ => raise_finished) hr

theorem endPoll_in {A : State → Prop} {o : PollOwner} {p : Proc} {t : State} (h : p.WaitsIn A) (hr : endPoll o p = .next t) :
    OverOrIn A t := by
  cases o with
  | refresh | get | online => exact h.finish (fun _ => succeed_finished) (fun _ _ => raise_finished) hr
  | read f n => exact h.finish (fun _ => readEnd_finished) (fun _ _ => raise_finished) hr

theorem closeSend_in {A : State → Prop} {o : SendOwner} {f : Proc} {t : State} (h : f.WaitsIn A)
    (ho : ∀ p, FetchIn A p) (hr : closeSend o f = .next t) : OverOrIn A t := by
  cases o with
  | host => exact endSend_in h hr
  | powercap v => exact endPowercap_in h hr
  | poll p => exact endPoll_in (afterSend_waitsIn h (ho p)) hr

theorem closeFetch_in {A : State → Prop} {o : FetchOwner} {f : Proc} {t : State} (h : f.WaitsIn A)
    (hr : closeFetch o f = .next t) : OverOrIn A t := by
  cases o with
  | host => exact endFetch_in h hr
  | poll p => exact endPoll_in (afterFetch_waitsIn h) hr

/-! ### SET_POWERCAP in a SEND (R277) -/

/-- The operation in progress is not in the SEND of a SET_POWERCAP of `v`. -/
def NotCapping (v : Half) (w : State) : Prop := w.activity ≠ .sending (.powercap v)

theorem notCapping_of_activity {v : Half} {a : Activity} (ha : a ≠ .sending (.powercap v)) (w : State) (h : w.activity = a) :
    NotCapping v w := fun hw => ha (h.symm.trans hw)

theorem notCapping_fetch (v : Half) (p : PollOwner) : FetchIn (NotCapping v) p :=
  fun w h _ => notCapping_of_activity (a := .fetching (.poll p)) nofun w h

/-- R277: an operation that waits in the SEND of a SET_POWERCAP is that operation. -/
theorem setPowercap_of_waits {i : Instr} {s t : State} {v : Half} (h : exec i s = .next t)
    (ht : t.activity = .sending (.powercap v)) : i = .setPowercap v := by
  have key : OverOrIn (NotCapping v) t → i = .setPowercap v := by
    rintro (⟨hidle, -⟩ | hne)
    · cases hidle.symm.trans ht
    · exact absurd ht hne
  obtain ⟨r, hform, hr⟩ := form_of_exec h
  cases hform with
  | publishes | encodes | releases | times | tearsDown => cases hr; exact key (.inl ⟨rfl, rfl⟩)
  | parses =>
    obtain ⟨u, hu⟩ | ⟨e, u, hu⟩ := parseProc_cases s
    · rw [execParse, hu] at hr
      exact key (.inl (succeed_finished hr))
    · rw [execParse, hu] at hr
      exact key (.inl (raise_finished hr))
  | sends => exact key (endSend_in (sendRun_waitsIn fun w hw _ => notCapping_of_activity (a := .sending .host) nofun w hw) hr)
  | fetches => exact key (endFetch_in (fetchRun_waitsIn fun w hw _ => notCapping_of_activity (a := .fetching .host) nofun w hw) hr)
  | @polls _ o hpoll =>
    rw [pollSend, pollBegin_eq] at hr
    have hsend : (sendRun (s.framedPoll.begun (.poll o))).WaitsIn (NotCapping v) :=
      sendRun_waitsIn fun w hw _ => notCapping_of_activity (a := .sending (.poll o)) nofun w hw
    exact key (endPoll_in (afterSend_waitsIn hsend (notCapping_fetch v o)) hr)
  | @caps w =>
    obtain ⟨hidle, -⟩ | hact := endPowercap_in (A := (·.activity = .sending (.powercap w))) (sendRun_waitsIn fun _ hw _ => hw) hr
    · cases hidle.symm.trans ht
    · cases hact.symm.trans ht
      rfl

/-! ### `user_powercap` (R277) -/

/-- R159: a SEND that is done has status 0. -/
theorem sendStatus_done {s u : State} (h : sendStatus s = .done u) : u.lastStatus = 0 := by
  unfold sendStatus at h
  simp only at h
  split at h
  next hst =>
    cases h
    exact hst
  next => cases h

theorem sendRun_begun_done {s u : State} {o : SendOwner} (h : sendRun (s.begun o) = .done u) : u.lastStatus = 0 := by
  obtain ⟨oks, b, rest, hl, ha⟩ | ⟨oks, rest, hl, ha⟩ | ⟨oks, hl, ha⟩ := send_answers s.answers
  · rw [sendRun_begun_ok s o oks b rest ⟨hl, ha⟩] at h
    split at h
    next hb =>
      cases h
      exact hb
    next => cases h
  · rw [sendRun_begun_err s o oks rest hl ha] at h
    cases h
  · rw [sendRun_begun_wait s o oks hl ha] at h
    cases h

/-- The value stands as in `s`. -/
def State.SameCap (s t : State) : Prop := t.userPowercap = s.userPowercap

theorem State.SameCap.of_aside {s t : State} (h : t.aside = s.aside) : s.SameCap t := congrArg Aside.userPowercap h

/-- The value is new, and a SET_POWERCAP of it is over with status 0. -/
structure State.Capped (t : State) (v : Half) : Prop where
  value : t.userPowercap = v
  finished : t.finished
  ok : t.err = 0
  status : t.lastStatus = 0

/-- R277, R278: the ends of a SET_POWERCAP. -/
theorem endPowercap_cases {v : Half} {s t : State} {p : Proc} (hp : p.All fun u => u.aside = s.aside)
    (hdone : ∀ u, p = .done u → u.lastStatus = 0) (hr : endPowercap v p = .next t) : s.SameCap t ∨ t.Capped v := by
  cases p with
  | done u =>
    cases hr
    exact .inr ⟨rfl, ⟨rfl, rfl⟩, rfl, hdone u rfl⟩
  | raised e u =>
    cases hr
    exact .inl (State.SameCap.of_aside hp)
  | waiting u =>
    cases hr
    exact .inl (State.SameCap.of_aside hp)
  | halted f => cases hr

theorem endSend_sameCap {s t : State} {p : Proc} (hp : p.All fun u => u.aside = s.aside) (hr : endSend p = .next t) : s.SameCap t :=
  endSend_keeps (fun _ _ _ hu => hu) (hp.imp fun _ => State.SameCap.of_aside) hr

theorem endFetch_sameCap {s t : State} {p : Proc} (hp : p.All fun u => u.aside = s.aside) (hr : endFetch p = .next t) :
    s.SameCap t :=
  endFetch_keeps (fun _ _ _ hu => hu) (hp.imp fun _ => State.SameCap.of_aside) hr

theorem endPoll_sameCap {o : PollOwner} {s t : State} {p : Proc} (hp : p.All fun u => u.aside = s.aside)
    (hr : endPoll o p = .next t) : s.SameCap t :=
  endPoll_keeps (fun _ _ _ hu => hu) (fun _ _ _ hu => hu) (hp.imp fun _ => State.SameCap.of_aside) hr

/-- R277: `exec` writes the value in one place. -/
theorem exec_userPowercap {i : Instr} {s t : State} (h : exec i s = .next t) :
    s.SameCap t ∨ ∃ v, i = .setPowercap v ∧ t.Capped v := by
  obtain ⟨r, hform, hr⟩ := form_of_exec h
  cases hform with
  | publishes | encodes | releases | times | tearsDown => cases hr; exact .inl rfl
  | parses =>
    have hparse : (parseProc s).All s.SameCap := (parseProc_aside s).imp fun _ => State.SameCap.of_aside
    have hc : ∀ (u : State) (r : DWord) (e : Word), s.SameCap u → s.SameCap (u.complete r e) := fun _ _ _ hu => hu
    exact .inl (hparse.finish (fun _ => succeed_keeps hc) (fun _ _ => raise_keeps hc) hr)
  | sends =>
    refine .inl (endSend_sameCap (s := s) ?_ hr)
    exact sendRun_aside _
  | fetches =>
    refine .inl (endFetch_sameCap (s := s) ?_ hr)
    exact fetchRun_aside _
  | @polls _ o hpoll => exact .inl (endPoll_sameCap (pollSend_aside o s) hr)
  | @caps v =>
    have haside : (sendRun ((s.framedPowercap v).begun (.powercap v))).All fun u => u.aside = s.aside := sendRun_aside _
    exact (endPowercap_cases haside (fun _ => sendRun_begun_done) hr).imp_right fun hcap => ⟨v, rfl, hcap⟩

theorem afterFetch_aside {s : State} {f : Proc} (h : f.All fun t => t.aside = s.aside) :
    (afterFetch f).All fun t => t.aside = s.aside :=
  (h.onRaise (g := State.pollFailed) fun _ ht => ht).andThen fun u hu =>
    pollParse_all (P := fun t => t.aside = s.aside) (fun _ _ _ ht => ht) (fun _ ht => ht) (fun _ ht => ht) u hu

theorem afterSend_aside {s : State} (o : PollOwner) {f : Proc} (h : f.All fun t => t.aside = s.aside) :
    (afterSend o f).All fun t => t.aside = s.aside :=
  (h.onRaise (g := State.pollFailed) fun _ ht => ht).andThen fun u hu =>
    afterFetch_aside ((fetchRun_aside (fetchBegin (.poll o) u)).imp fun _ ht => ht.trans hu)

theorem closeFetch_sameCap {o : FetchOwner} {s t : State} {f : Proc} (h : f.All fun u => u.aside = s.aside)
    (hr : closeFetch o f = .next t) : s.SameCap t := by
  cases o with
  | host => exact endFetch_sameCap h hr
  | poll p => exact endPoll_sameCap (afterFetch_aside h) hr

theorem closeSend_cap {o : SendOwner} {s t : State} {f : Proc} (h : f.All fun u => u.aside = s.aside)
    (hdone : ∀ u, f = .done u → u.lastStatus = 0) (hr : closeSend o f = .next t) :
    s.SameCap t ∨ ∃ v u, o = .powercap v ∧ f = .done u ∧ t.Capped v := by
  cases o with
  | host => exact .inl (endSend_sameCap h hr)
  | powercap v =>
    cases f with
    | done u => exact (endPowercap_cases (s := s) h hdone hr).imp_right fun hcap => ⟨v, u, rfl, rfl, hcap⟩
    | raised e u | waiting u => cases hr; exact .inl (State.SameCap.of_aside h)
    | halted f => cases hr
  | poll p => exact .inl (endPoll_sameCap (afterSend_aside p h) hr)

/-- Without an answer at hand, only a SEND with its eight calls made gets to the status. -/
theorem sendRun_silent_done {s u : State} (ha : s.answers = []) (h : sendRun s = .done u) : 8 ≤ s.seqStep ∧ u.lastStatus = 0 := by
  rw [sendRun_silent ha] at h
  split at h
  next => cases h
  next hge => exact ⟨Nat.le_of_not_lt hge, sendStatus_done h⟩

/-- R277: what an operation that goes on without an answer writes to the value. -/
theorem resume_userPowercap {s u : State} (ha : s.answers = []) (h : resume s = .next u) :
    s.SameCap u ∨ ∃ v, s.activity = .sending (.powercap v) ∧ 8 ≤ s.seqStep ∧ u.Capped v := by
  unfold resume at h
  split at h
  next => cases h
  next =>
    unfold runLatched at h
    split at h
    next i _ =>
      obtain hsame | ⟨v, rfl, hcap⟩ := exec_userPowercap h
      · exact .inl hsame
      · have hwaits : exec (.setPowercap v) s = .next ((s.framedPowercap v).begun (.powercap v)) := by
          have hfirst : ((s.framedPowercap v).begun (.powercap v)).seqStep < 8 := Nat.succ_pos 7
          have hsilent : ((s.framedPowercap v).begun (.powercap v)).answers = [] := ha
          rw [exec_setPowercap, sendRun_silent hsilent, if_pos hfirst]
          rfl
        rw [hwaits] at h
        cases h
        exact .inl rfl
    next => exact .inl (raise_keeps (P := s.SameCap) (fun _ _ _ hu => hu) rfl h)
  next o hact =>
    obtain hsame | ⟨v, w, rfl, hdone, hcap⟩ := closeSend_cap (sendRun_aside s) (fun _ hd => (sendRun_silent_done ha hd).2) h
    · exact .inl hsame
    · exact .inr ⟨v, hact, (sendRun_silent_done ha hdone).1, hcap⟩
  next o _ =>
    have hbroken : (sendBroken s).All fun t => t.aside = s.aside := rfl
    obtain hsame | ⟨v, w, -, hdone, -⟩ := closeSend_cap hbroken (fun _ hd => by cases hd) h
    · exact .inl hsame
    · cases hdone
  next o _ => exact .inl (closeFetch_sameCap (fetchRun_aside s) h)
  next o _ =>
    have hbroken : (fetchBroken s).All fun t => t.aside = s.aside := rfl
    exact .inl (closeFetch_sameCap hbroken h)

/-- R277: an operation comes to wait in the SEND of a SET_POWERCAP only when it begins. -/
theorem resume_setPowercap {s u : State} {v : Half} (h : resume s = .next u) (hu : u.activity = .sending (.powercap v))
    (hs : s.activity ≠ .sending (.powercap v)) : s.activity = .accepted ∧ decode s.opw s.imm = .ok (.setPowercap v) := by
  have key : ¬ OverOrIn (NotCapping v) u := by
    rintro (⟨hidle, -⟩ | hne)
    · cases hidle.symm.trans hu
    · exact hne hu
  have hfetching : ∀ p, FetchIn (NotCapping v) p := notCapping_fetch v
  unfold resume at h
  split at h
  next => cases h
  next hact =>
    unfold runLatched at h
    split at h
    next i hdec =>
      obtain rfl := setPowercap_of_waits h hu
      exact ⟨hact, hdec⟩
    next => exact absurd (.inl (raise_finished h)) key
  next o hact => exact absurd (closeSend_in (sendRun_waitsIn fun w hw _ => notCapping_of_activity hs w hw) hfetching h) key
  next o _ => exact absurd (closeSend_in (f := sendBroken s) True.intro hfetching h) key
  next o hact => exact absurd (closeFetch_in (fetchRun_waitsIn fun w hw _ => notCapping_of_activity hs w hw) h) key
  next o _ => exact absurd (closeFetch_in (f := fetchBroken s) True.intro h) key

/-- R9: a transaction leaves the value, and it ends in the SEND of a SET_POWERCAP only from there. -/
theorem transact_userPowercap {as : List Answer} {u t : State} (h : transact as (.next u) = .next t) :
    t.userPowercap = u.userPowercap ∧ ∀ v, t.activity = .sending (.powercap v) → u.activity = .sending (.powercap v) := by
  unfold transact at h
  simp only at h
  split at h
  next => cases h
  next => cases h
  next o a rest hact =>
    cases h
    unfold sendAnswered
    split
    · exact ⟨rfl, nofun⟩
    · split
      · exact ⟨rfl, fun _ ht => ht⟩
      · exact ⟨rfl, fun _ ht => ht⟩
  next o a rest hact =>
    unfold fetchAnswered at h
    split at h
    · cases h
      exact ⟨rfl, nofun⟩
    · split at h
      · cases h
        exact ⟨rfl, fun _ ht => ht⟩
      · cases h
  all_goals
    cases h
    exact ⟨rfl, fun _ ht => ht⟩

/-- Settles O54: acceptance writes neither the value nor that activity; a transaction is `resume` without an answer and one call. -/
theorem userPowercapHasOneWriter : Obligations.UserPowercapHasOneWriter := by
  unfold Obligations.UserPowercapHasOneWriter
  refine ⟨fun s t hstep => ?_, fun i s t h hne => ?_⟩
  · cases hb : s.busy with
    | false =>
      cases hq : s.requests with
      | nil =>
        cases (step_idle hb hq).symm.trans hstep
        exact ⟨fun hne => absurd rfl hne, fun v ht hs => absurd ht hs⟩
      | cons r rest =>
        cases (step_accept hb hq).symm.trans hstep
        exact ⟨fun hne => absurd rfl hne, nofun⟩
    | true =>
      have hadv : advance s = .next t := by rwa [step, if_pos hb] at hstep
      unfold advance at hadv
      obtain ⟨u, hu⟩ := transact_next hadv
      rw [hu] at hadv
      obtain ⟨hvalue, hactivity⟩ := transact_userPowercap hadv
      refine ⟨fun hne => ?_, fun v ht hs => ?_⟩
      · obtain hsame | ⟨v, hact, hcalls, hcap⟩ := resume_userPowercap rfl hu
        · exact absurd (hvalue.trans hsame) hne
        · rw [transact_finished hcap.finished] at hadv
          cases hadv
          exact ⟨rfl, hcap.value.symm ▸ hact, hcalls, hcap.finished, hcap.ok, hcap.status⟩
      · exact resume_setPowercap (s := { s with answers := [] }) hu (hactivity v ht) hs
  · obtain hsame | ⟨v, rfl, hcap⟩ := exec_userPowercap h
    · exact absurd hsame hne
    · exact ⟨congrArg Instr.setPowercap hcap.value.symm, hcap.finished, hcap.ok, hcap.status⟩

end Sys2Proof.Machine
end

section
/-! SUPPORT. An operation in steps and at once (00_scope.md R9, R23; 20_memory.md R76): with more answers an operation that is over leaves
them, and one that waits goes on with them; so one step for each call and one for the end come to what `exec` comes to. -/

namespace Sys2Proof.Machine

/-! ### More answers -/

/-- What an operation that came to `r` comes to when the answers `b` follow. -/
def continueWith (b : List Answer) : Result → Result
  | .next t =>
    match t.activity with
    | .idle => .next (t.withAnswers (t.answers ++ b))
    | .accepted | .sending _ | .fetching _ | .sendBroken _ | .fetchBroken _ => resume (t.withAnswers b)
  | .fault f => .fault f
  | .refused e => .refused e

theorem continueWith_idle {b : List Answer} {t : State} (h : t.activity = .idle) :
    continueWith b (.next t) = .next (t.withAnswers (t.answers ++ b)) := by
  simp only [continueWith, h]

theorem continueWith_busy {b : List Answer} {t : State} (h : t.activity ≠ .idle) :
    continueWith b (.next t) = resume (t.withAnswers b) := by
  simp only [continueWith]
  split
  next hidle => exact absurd hidle h
  all_goals rfl

section
variable (b : List Answer)

theorem readEnd_more (f : ReadField) (n : Nat) (t : State) :
    readEnd f n (t.withAnswers (t.answers ++ b)) = continueWith b (readEnd f n t) := by
  simp only [readEnd, State.withAnswers_dec]
  split
  · rfl
  · rfl

theorem endPoll_done_more (o : PollOwner) (t : State) :
    endPoll o (.done (t.withAnswers (t.answers ++ b))) = continueWith b (endPoll o (.done t)) := by
  cases o with
  | refresh | get | online => rfl
  | read f n => exact readEnd_more b f n t

theorem endPoll_raised_more (o : PollOwner) (e : Err) (t : State) :
    endPoll o (.raised e (t.withAnswers (t.answers ++ b))) = continueWith b (endPoll o (.raised e t)) := by
  cases o <;> rfl

theorem endPoll_pollParse_more (o : PollOwner) (t : State) :
    endPoll o (pollParse (t.withAnswers (t.answers ++ b))) = continueWith b (endPoll o (pollParse t)) := by
  simp only [pollParse_eq, State.withAnswers_cfg, State.withAnswers_raw, State.withAnswers_rawLen, State.withAnswers_work,
    State.withAnswers_dec]
  cases parseCore t.cfg t.raw t.rawLen.val ⟨t.work, t.dec⟩ with
  | ok q => exact endPoll_done_more b o (t.withParse q).markFresh
  | fail e q => exact endPoll_raised_more b o e (t.withParse q).invalidate

theorem closeFetch_more {o : FetchOwner} {f : Proc} (hw : f.WaitsIn fun w => w.activity = .fetching o) :
    closeFetch o (f.goOn b fetchRun) = continueWith b (closeFetch o f) := by
  cases f with
  | done t =>
    cases o with
    | host => rfl
    | poll p => exact endPoll_pollParse_more b p t
  | raised e t =>
    cases o with
    | host => rfl
    | poll p => exact endPoll_raised_more b p e t.pollFailed
  | waiting w =>
    have hact : w.activity = .fetching o := hw
    rw [closeFetch_waiting, continueWith_busy (by simp [hact])]
    simp only [Proc.goOn, resume, State.withAnswers_activity, hact]
  | halted h =>
    cases o with
    | host => rfl
    | poll p => cases p <;> rfl

theorem closeFetch_fetchRun_more {o : FetchOwner} {s : State} (hs : s.activity = .fetching o) (a : List Answer) :
    closeFetch o (fetchRun (s.withAnswers (a ++ b))) = continueWith b (closeFetch o (fetchRun (s.withAnswers a))) := by
  rw [fetchRun_split]
  exact closeFetch_more b (fetchRun_waitsIn fun w hw _ => hw.trans hs)

theorem closeSend_more {o : SendOwner} {f : Proc} (hw : f.WaitsIn fun w => w.activity = .sending o) :
    closeSend o (f.goOn b sendRun) = continueWith b (closeSend o f) := by
  cases f with
  | done t =>
    cases o with
    | host => rfl
    | powercap v => rfl
    | poll p => exact closeFetch_fetchRun_more b (o := .poll p) (s := fetchBegin (.poll p) t) rfl t.answers
  | raised e t =>
    cases o with
    | host => rfl
    | powercap v => rfl
    | poll p => exact endPoll_raised_more b p e t.pollFailed
  | waiting w =>
    have hact : w.activity = .sending o := hw
    rw [closeSend_waiting, continueWith_busy (by simp [hact])]
    simp only [Proc.goOn, resume, State.withAnswers_activity, hact]
  | halted h =>
    cases o with
    | host => rfl
    | powercap v => rfl
    | poll p => cases p <;> rfl

theorem closeSend_sendRun_more {o : SendOwner} {s : State} (hs : s.activity = .sending o) (a : List Answer) :
    closeSend o (sendRun (s.withAnswers (a ++ b))) = continueWith b (closeSend o (sendRun (s.withAnswers a))) := by
  rw [sendRun_split]
  exact closeSend_more b (sendRun_waitsIn fun w hw _ => hw.trans hs)

theorem runPoll_more (o : PollOwner) (s : State) (a : List Answer) :
    runPoll o (s.withAnswers (a ++ b)) = continueWith b (runPoll o (s.withAnswers a)) :=
  closeSend_sendRun_more b (o := .poll o) (s := pollBegin o s) rfl a

theorem consumerRead_more (f : ReadField) (n : Nat) (s : State) (a : List Answer) :
    consumerRead f n (s.withAnswers (a ++ b)) = continueWith b (consumerRead f n (s.withAnswers a)) := by
  have hread : ∀ x, consumerRead f n (s.withAnswers x) =
      if fresh s.cfg s.cache s.now then readEnd f n (s.withAnswers x) else runPoll (.read f n) (s.withAnswers x) := fun _ => rfl
  simp only [hread]
  split
  · exact readEnd_more b f n (s.withAnswers a)
  · exact runPoll_more b (.read f n) s a

/-- R9, R23: how the answers of an operation are split changes nothing. -/
theorem exec_more (i : Instr) (s : State) (a : List Answer) :
    exec i (s.withAnswers (a ++ b)) = continueWith b (exec i (s.withAnswers a)) := by
  cases i with
  | encode seq ctype len imm =>
    simp only [exec, execEncode]
    split
    · rfl
    · rfl
  | send seq ctype len imm =>
    simp only [exec, execSend]
    split
    · rfl
    next n _ =>
      exact closeSend_sendRun_more b (o := .host) (s := sendBegin .host seq ctype n (payload0 imm) (payload1 imm) s) rfl a
  | fetch =>
    have hfetch : ∀ x, exec .fetch (s.withAnswers x) = if s.rawLen.val < 8 then raiseIllegal (s.withAnswers x)
        else endFetch (fetchRun (fetchBegin .host (s.withAnswers x))) := fun _ => rfl
    simp only [hfetch]
    split
    · rfl
    · exact closeFetch_fetchRun_more b (o := .host) (s := fetchBegin .host s) rfl a
  | parse =>
    simp only [exec, execParse, parseProc, State.withAnswers_cfg, State.withAnswers_raw, State.withAnswers_rawLen,
      State.withAnswers_work, State.withAnswers_dec]
    cases parseCore s.cfg s.raw s.rawLen.val ⟨s.work, s.dec⟩ with
    | ok q => rfl
    | fail e q => rfl
  | deinit => rfl
  | refresh => exact runPoll_more b .refresh s a
  | get =>
    have hget : ∀ x, exec .get (s.withAnswers x) =
        if fresh s.cfg s.cache s.now then succeed (s.withAnswers x) 0 0 else runPoll .get (s.withAnswers x) := fun _ => rfl
    simp only [hget]
    split
    · rfl
    · exact runPoll_more b .get s a
  | rdTemp index | rdTempId index | rdFreq index | rdFreqId index
  | rdPowr index | rdPowrId index | rdPowrTag index | rdPowrAcc index => exact consumerRead_more b _ _ s a
  | rdCaps index =>
    simp only [exec, execRdCaps]
    split
    · rfl
    · exact consumerRead_more b _ _ s a
  | rdBlk index =>
    simp only [exec, execRdBlk, State.withAnswers_dec]
    split
    · rfl
    · rfl
  | rdHdr index =>
    simp only [exec, execRdHdr]
    split
    · rfl
    · rfl
  | setPowercap v =>
    exact closeSend_sendRun_more b (o := .powercap v)
      (s := sendBegin (.powercap v) s.cfg.bus.capSeq s.cfg.bus.capType 2 (highByte v) (lowByte v) s) rfl a
  | csrr csr =>
    have hvalue : ∀ x : List Answer, csrValue (s.withAnswers x) csr.toNat = csrValue s csr.toNat := fun _ => rfl
    simp only [exec, execCsrr, hvalue]
    split
    · rfl
    · rfl
  | csrw csr imm =>
    simp only [exec, execCsrw]
    split
    · rfl
    · unfold writeOnline
      split
      · exact runPoll_more b .online s a
      · rfl
    · rfl

/-- The same for an operation in progress. -/
theorem resume_more (s : State) (a : List Answer) : resume (s.withAnswers (a ++ b)) = continueWith b (resume (s.withAnswers a)) := by
  simp only [resume, State.withAnswers_activity]
  split
  next => rfl
  next =>
    have hdec : ∀ x : List Answer, decode (s.withAnswers x).opw (s.withAnswers x).imm = decode s.opw s.imm := fun _ => rfl
    simp only [runLatched, hdec]
    split
    · exact exec_more b _ s a
    · rfl
  next o hact => exact closeSend_sendRun_more b hact a
  next o _ => exact closeSend_more b (f := sendBroken (s.withAnswers a)) True.intro
  next o hact => exact closeFetch_fetchRun_more b hact a
  next o _ => exact closeFetch_more b (f := fetchBroken (s.withAnswers a)) True.intro

end

/-! ### A transaction and the rest of the operation -/

/-- A call of a SEND or of a FETCH is due (R9). -/
def State.Due (w : State) : Prop :=
  (∃ o, w.activity = .sending o ∧ w.seqStep < 8) ∨ ∃ o, w.activity = .fetching o ∧ w.work.foff < w.work.total

theorem sendRun_due {o : SendOwner} {s : State} (hs : s.activity = .sending o) : (sendRun s).WaitsIn State.Due :=
  sendRun_waitsIn fun _ hw hlt => .inl ⟨o, hw.trans hs, hlt⟩

theorem fetchRun_due {o : FetchOwner} {s : State} (hs : s.activity = .fetching o) : (fetchRun s).WaitsIn State.Due :=
  fetchRun_waitsIn fun _ hw hlt => .inr ⟨o, hw.trans hs, hlt⟩

theorem fetchIn_due (o : PollOwner) : FetchIn State.Due o := fun _ hw hlt => .inr ⟨.poll o, hw, hlt⟩

theorem exec_due {i : Instr} {s t : State} (h : exec i s = .next t) : OverOrIn State.Due t := by
  obtain ⟨r, hform, hr⟩ := form_of_exec h
  cases hform with
  | publishes | encodes | releases | times | tearsDown => cases hr; exact .inl ⟨rfl, rfl⟩
  | parses =>
    have hparse : (parseProc s).WaitsIn State.Due := by
      obtain ⟨u, hu⟩ | ⟨e, u, hu⟩ := parseProc_cases s
      · exact hu ▸ True.intro
      · exact hu ▸ True.intro
    exact hparse.finish (fun _ => succeed_finished) (fun _ _ => raise_finished) hr
  | sends => exact endSend_in (sendRun_due (o := .host) rfl) hr
  | fetches => exact endFetch_in (fetchRun_due (o := .host) rfl) hr
  | @polls _ o hpoll =>
    exact endPoll_in (afterSend_waitsIn (sendRun_due (o := .poll o) rfl) (fetchIn_due o)) hr
  | @caps v => exact endPowercap_in (sendRun_due (o := .powercap v) rfl) hr

/-- R9: an operation is over, or a call of it is due. -/
theorem resume_due {s u : State} (h : resume s = .next u) : OverOrIn State.Due u := by
  unfold resume at h
  split at h
  next => cases h
  next =>
    unfold runLatched at h
    split at h
    · exact exec_due h
    · exact .inl (raise_finished h)
  next o hact => exact closeSend_in (sendRun_due hact) fetchIn_due h
  next o _ => exact closeSend_in (f := sendBroken s) True.intro fetchIn_due h
  next o hact => exact closeFetch_in (fetchRun_due hact) h
  next o _ => exact closeFetch_in (f := fetchBroken s) True.intro h

/-- R164: bytes of an answer past the buffer end the read in the model's fault. -/
theorem fetchRun_overrun {s : State} {b : Vector Byte 8} {rest : List Answer} (h : s.work.foff < s.work.total)
    (h8 : ¬ s.work.foff + 8 ≤ occDataMax) (ha : s.answers = .ok b :: rest) : fetchRun s = .halted .rawOverrun := by
  rw [← fetchLoop_fuel (s.work.total - s.work.foff + 1) s (by omega)]
  simp [fetchLoop, h, ha, h8]

/-- A read past the buffer leaves no state. -/
theorem fetchAnswered_of_resume {o : FetchOwner} {u t : State} {a : Answer} {rest : List Answer} (hact : u.activity = .fetching o)
    (hlt : u.work.foff < u.work.total) (h : resume (u.withAnswers (a :: rest)) = .next t) : ∃ v, fetchAnswered o a rest u = .next v := by
  cases a with
  | err => exact ⟨_, rfl⟩
  | ok b =>
    by_cases h8 : u.work.foff + 8 ≤ occDataMax
    · exact ⟨_, if_pos h8⟩
    · have hclose : resume (u.withAnswers (.ok b :: rest)) = closeFetch o (.halted .rawOverrun) := by
        simp only [resume, State.withAnswers_activity, hact]
        exact congrArg (closeFetch o) (fetchRun_overrun (s := u.withAnswers (.ok b :: rest)) hlt h8 rfl)
      have hfault : closeFetch o (.halted .rawOverrun) = .fault .rawOverrun := by
        cases o with
        | host => rfl
        | poll p => cases p <;> rfl
      rw [hclose, hfault] at h
      cases h

/-- R9: where a call is due, the transaction is that call, and the operation then comes to what it comes to at once. -/
theorem transact_due {u t : State} {a : Answer} {rest : List Answer} (hu : u.Due) (h : resume (u.withAnswers (a :: rest)) = .next t) :
    ∃ v, transact (a :: rest) (.next u) = .next v ∧ u.AfterCall rest v ∧ resume v = .next t := by
  obtain ⟨o, hact, hlt⟩ | ⟨o, hact, hlt⟩ := hu
  · exact ⟨sendAnswered o a rest u, by simp only [transact, hact], sendAnswered_afterCall o a rest u,
      (resume_sendAnswered hact hlt).symm.trans h⟩
  · obtain ⟨v, hv⟩ := fetchAnswered_of_resume hact hlt h
    exact ⟨v, by simp only [transact, hact, hv], fetchAnswered_afterCall hv, (resume_fetchAnswered hact hlt hv).symm.trans h⟩

theorem transact_due_silent {u : State} (hu : u.Due) : transact [] (.next u) = .fault .transportSilent := by
  obtain ⟨o, hact, -⟩ | ⟨o, hact, -⟩ := hu
  · simp only [transact, hact]
  · simp only [transact, hact]

theorem State.Due.not_idle {u : State} (hu : u.Due) : u.activity ≠ .idle := by
  obtain ⟨o, hact, -⟩ | ⟨o, hact, -⟩ := hu
  · simp [hact]
  · simp [hact]

/-! ### Steps -/

theorem runSteps_succ_next {n : Nat} {s v : State} (h : step s = .next v) : runSteps (n + 1) s = runSteps n v := by
  simp only [runSteps, h]

theorem runSteps_succ_fault {n : Nat} {s : State} {f : Fault} (h : step s = .fault f) : runSteps (n + 1) s = .fault f := by
  simp only [runSteps, h]

/-- Calls are only added (20_memory.md R76). -/
theorem callsAtLeast_closed (n : Nat) : Closed fun t => n ≤ t.calls.length where
  answered t a rest c k h _ := by
    simp only [State.answered, List.length_append]
    exact Nat.le_add_right_of_le h
  head _ _ h := h
  status _ _ h := h
  chunk _ _ h _ := h
  setup _ _ _ _ _ h := h
  parse := parse_all (fun _ _ _ h => h) fun _ h => h
  pollParse := pollParse_all (fun _ _ _ h => h) (fun _ h => h) fun _ h => h
  pollFailed := pollFailed_keeps (P := fun t => n ≤ t.calls.length) (fun _ _ _ h => h) fun _ h => h
  interval _ _ h := h
  online _ _ h := h
  powercap _ _ h := h
  complete _ _ _ h := h

theorem resume_calls_le {s t : State} (h : resume s = .next t) : s.calls.length ≤ t.calls.length :=
  (callsAtLeast_closed _).resume (Nat.le_refl _) h

/-- What the steps of an operation come to that comes to `t` at once: `t` where it is over, else the silence of the transport (R357). -/
def stepsEnd (t : State) : Result := if t.activity = .idle then .next t else .fault .transportSilent

theorem stepsEnd_of_finished {t : State} (h : t.finished) : stepsEnd t = .next t := if_pos h.1

theorem stepsEnd_of_due {t : State} (h : t.Due) : stepsEnd t = .fault .transportSilent := if_neg h.not_idle

theorem stepsEnd_of_next {t : State} (h : OverOrIn State.Due t) :
    (t.finished → stepsEnd t = .next t) ∧ (¬ t.finished → stepsEnd t = .fault .transportSilent) := by
  obtain hf | hdue := h
  · exact ⟨stepsEnd_of_finished, fun hn => absurd hf hn⟩
  · exact ⟨stepsEnd_of_finished, fun _ => stepsEnd_of_due hdue⟩

/-- Where a call is due and no answer is left, the operation stands. -/
theorem resume_of_due_silent {u : State} (hu : u.Due) (ha : u.answers = []) : resume u = .next u := by
  obtain ⟨o, hact, hlt⟩ | ⟨o, hact, hlt⟩ := hu
  · simp only [resume, hact, sendRun_silent ha, if_pos hlt, closeSend_waiting]
  · simp only [resume, hact, fetchRun_silent ha, if_pos hlt, closeFetch_waiting]

/-- R9: an operation comes to its end, or to its next call, without an answer, and goes on from there. -/
theorem resume_through_silent {s t : State} (h : resume s = .next t) :
    ∃ u, resume (s.withAnswers []) = .next u ∧ s.NoCallSince u ∧ continueWith s.answers (.next u) = .next t := by
  have hmore : resume s = continueWith s.answers (resume (s.withAnswers [])) := resume_more s.answers s []
  rw [hmore] at h
  cases hu : resume (s.withAnswers []) with
  | next u =>
    obtain ⟨hsilent, hcalls⟩ := (noCallSince_closed (s.withAnswers [])).resume ⟨rfl, rfl⟩ hu
    exact ⟨u, rfl, ⟨hsilent, hcalls⟩, hu ▸ h⟩
  | fault f => rw [hu] at h; cases h
  | refused e => rw [hu] at h; cases h

theorem step_of_busy {s u : State} (hb : s.busy = true) (hu : resume (s.withAnswers []) = .next u) :
    step s = transact s.answers (.next u) := hu ▸ if_pos hb

theorem withAnswers_nil {u : State} (h : u.answers = []) : u.withAnswers [] = u := h ▸ rfl

/-- The operation ends without an answer: one step. -/
theorem runSteps_of_finished {s u t : State} (hb : s.busy = true) (hu : resume (s.withAnswers []) = .next u) (hcall : s.NoCallSince u)
    (hf : u.finished) (h : continueWith s.answers (.next u) = .next t) :
    runSteps (t.calls.length - s.calls.length + 1) s = stepsEnd t := by
  obtain ⟨hsilent, hcalls⟩ := hcall
  rw [continueWith_idle hf.1, hsilent] at h
  cases h
  have htf : (u.withAnswers s.answers).finished := hf
  rw [State.withAnswers_calls, hcalls, Nat.sub_self, runSteps_succ_next ((step_of_busy hb hu).trans (transact_finished hf))]
  exact (stepsEnd_of_finished htf).symm

/-- The operation waits for an answer and there is none: the transport is silent. -/
theorem runSteps_of_silence {s u t : State} (hb : s.busy = true) (has : s.answers = []) (hu : resume (s.withAnswers []) = .next u)
    (hcall : s.NoCallSince u) (hdue : u.Due) (h : continueWith s.answers (.next u) = .next t) :
    runSteps (t.calls.length - s.calls.length + 1) s = stepsEnd t := by
  obtain ⟨hsilent, -⟩ := hcall
  rw [continueWith_busy hdue.not_idle, has, withAnswers_nil hsilent, resume_of_due_silent hdue hsilent] at h
  cases h
  have hone : step s = transact [] (.next u) := has ▸ step_of_busy hb hu
  rw [runSteps_succ_fault (hone.trans (transact_due_silent hdue)), stepsEnd_of_due hdue]

/-- R9: one step for each call and one for the end, by the answers at hand: the operation ends without one, waits for one, or its next
call takes the first. -/
theorem runSteps_resume {s t : State} (hb : s.busy = true) (h : resume s = .next t) :
    runSteps (t.calls.length - s.calls.length + 1) s = stepsEnd t := by
  generalize has : s.answers = as
  induction as generalizing s with
  | nil =>
    obtain ⟨u, hu, hcall, hmore⟩ := resume_through_silent h
    obtain hf | hdue := resume_due hu
    · exact runSteps_of_finished hb hu hcall hf hmore
    · exact runSteps_of_silence hb has hu hcall hdue hmore
  | cons a rest ih =>
    obtain ⟨u, hu, hcall, hmore⟩ := resume_through_silent h
    obtain hf | hdue := resume_due hu
    · exact runSteps_of_finished hb hu hcall hf hmore
    · rw [continueWith_busy hdue.not_idle, has] at hmore
      obtain ⟨v, hv, ⟨⟨c, hc⟩, hans, hsame⟩, hrest⟩ := transact_due hdue hmore
      have hone : step s = .next v := (has ▸ step_of_busy hb hu).trans hv
      have hub : u.busy = s.busy := by
        obtain ⟨hidle, -⟩ | ⟨hsame, -⟩ := resume_endsOrWaits hu
        · exact absurd hidle hdue.not_idle
        · exact hsame.busy
      have hlen : v.calls.length = s.calls.length + 1 := by rw [hc, hcall.calls, List.length_append, List.length_singleton]
      have hle := resume_calls_le hrest
      have hn : t.calls.length - s.calls.length = t.calls.length - v.calls.length + 1 := by omega
      rw [hn, runSteps_succ_next hone]
      exact ih (hsame.busy.trans (hub.trans hb)) hrest hans

/-- Settles O11: `runSteps_resume` from the accepted state, and `exec_more`. -/
theorem stepsRunTheOperation : Obligations.StepsRunTheOperation := by
  unfold Obligations.StepsRunTheOperation
  refine ⟨fun i s t hb hact hdec h => ?_, fun i s t a b h => ?_⟩
  · have hresume : resume s = .next t := by simp only [resume, hact, runLatched, hdec, h]
    intro n
    have hrun : runSteps (n + 1) s = stepsEnd t := runSteps_resume hb hresume
    exact hrun ▸ stepsEnd_of_next (resume_due hresume)
  · have hmore := exec_more b i s a
    have ha : exec i (s.withAnswers a) = .next t := h
    rw [ha] at hmore
    exact ⟨fun hidle => hmore.trans (continueWith_idle hidle), fun hbusy => hmore.trans (continueWith_busy hbusy)⟩

end Sys2Proof.Machine
end

section
/-! SUPPORT. SEND that waits, the lengths of FETCH, and PARSE and REFRESH on a whole response (41_sequencer.md, 42_parser.md R203,
44_poll_cache.md R243): each is read off the closed form of its procedure. -/

namespace Sys2Proof.Machine

/-! ### SEND and FETCH -/

/-- Settles O26: `sendRun_begun_wait` after the frame. -/
theorem sendWaitsAtItsStep : Obligations.SendWaitsAtItsStep := by
  unfold Obligations.SendWaitsAtItsStep
  intro seq ctype len imm s oks hlen hoks hanswers
  have hframed : (s.framed seq ctype len (payload0 imm) (payload1 imm)).answers = oks.map .ok := hanswers
  rw [exec_send_of_legal imm s (Nat.lt_succ_of_le hlen), sendRun_begun_wait _ .host oks hoks hframed]
  rfl

/-- R162: a FETCH that completes without an error read every chunk. -/
theorem exec_fetch_ok {s t : State} (h : exec .fetch s = .next t) (ht : t.finished) (herr : t.err = 0) :
    ∃ (chunks : List (Vector Byte 8)) (rest : List Answer) (res : DWord), chunks.length = fetchReads (be16 s.raw 3) ∧
      t = (s.fetched chunks 0 rest).complete res 0 := by
  obtain hnone | hhead := Nat.lt_or_ge s.rawLen.val 8
  · rw [exec_fetch_of_noHead hnone, raiseIllegal_eq] at h
    cases h
    exact absurd herr (errReg_ne_zero (by decide))
  · rw [exec_fetch_of_head hhead] at h
    obtain ⟨chunks, rest, hcount, ha⟩ | ⟨chunks, rest, hcount, ha⟩ | ⟨chunks, hcount, ha⟩ :=
      fetch_answers (fetchReads (be16 s.raw 3)) s.answers
    · rw [fetchRun_begun_ok s .host chunks rest hcount ha, endFetch_done] at h
      cases h
      exact ⟨chunks, rest, _, hcount, rfl⟩
    · rw [fetchRun_begun_err s .host chunks rest hcount ha, endFetch_transport] at h
      cases h
      exact absurd herr (errReg_ne_zero (by decide))
    · rw [fetchRun_begun_wait s .host chunks hcount ha] at h
      cases h
      cases ht.1

/-- R163, R164, R166: the reads for a declared length, against `total`. -/
theorem fetchReads_law (len : Half) :
    min (len.toNat + 7) 4096 ≤ 8 + 8 * fetchReads len ∧ 8 + 8 * fetchReads len ≤ max 8 (min (len.toNat + 7) 4096 + 7) ∧
      (fetchReads len = 0 ↔ len.toNat ≤ 1) ∧ (fetchReads len = 511 ↔ 4082 ≤ len.toNat) := by
  unfold fetchReads
  omega

/-- Settles O29: `exec_fetch_ok` gives the state after the reads, and `fetchReads_law` their number. -/
theorem fetchLengthLaw : Obligations.FetchLengthLaw := by
  unfold Obligations.FetchLengthLaw
  intro s t h ht herr len
  obtain ⟨chunks, rest, res, hcount, rfl⟩ := exec_fetch_ok h ht herr
  have hbound : chunks.length ≤ 511 := hcount ▸ fetchReads_le _
  have hfits : 8 + 8 * chunks.length ≤ 4096 := by omega
  have hlen : ((s.fetched chunks 0 rest).complete res 0).rawLen.val = 8 + 8 * chunks.length := RawLen.ofNat_val hfits
  obtain ⟨hcovers, hclose, hnone, hall⟩ := fetchReads_law (be16 s.raw 3)
  rw [← hcount] at hcovers hclose hnone hall
  exact ⟨chunks.length, rfl, hbound, rfl, hlen, hlen ▸ hcovers, hlen ▸ hclose, hlen ▸ hfits, hnone, hall⟩

/-! ### PARSE -/

/-- Settles O30: `exec_parse_of_accepted`. -/
theorem parseRecoversResponse : Obligations.ParseRecoversResponse := exec_parse_of_accepted

/-- PARSE completes with `res` and `err`, and leaves a decoded response of `P`. -/
def State.ParsesTo (s : State) (res : DWord) (err : Word) (P : Decoded → Prop) : Prop :=
  ∀ t, exec .parse s = .next t → t.res = res ∧ t.err = err ∧ P t.dec

/-- The parameters and the response that a state gives to PARSE. -/
structure State.Receives (s : State) (cfg : Config) (m : Memory) (n : Nat) : Prop where
  consistent : s.dec.Consistent s.cfg
  cfg : s.cfg = cfg
  raw : s.raw = m
  len : s.rawLen.val = n

theorem parsesTo_of_next {s : State} {w : Work} {d : Decoded} {c : PollCache} {res : DWord} {err : Word} {P : Decoded → Prop}
    (h : exec .parse s = .next ({ s with work := w, dec := d, cache := c }.complete res err)) (hd : P d) : s.ParsesTo res err P := by
  intro t ht
  cases h.symm.trans ht
  exact ⟨rfl, rfl, hd⟩

theorem State.ParseEmptiedBy.parsesTo {s : State} {e : Err} (h : s.ParseEmptiedBy e) :
    s.ParsesTo 0 (errReg 0 e.info e.code) fun d => d.EnvelopeOf s.raw s.rawLen.val ∧ d.isEmpty = true := by
  obtain ⟨w, d, hempty, henv, hparse⟩ := h
  exact parsesTo_of_next hparse ⟨henv, hempty⟩

/-- R200: the error of a response rejected before the commit point. -/
theorem parsesTo_of_headRejected (cfg : Config) {m : Memory} {n : Nat} (hh : ¬ HeaderAccepted m n) :
    ∃ err, err ≠ 0 ∧ ∀ s : State, s.Receives cfg m n → s.ParsesTo 0 err (· = s.dec) := by
  obtain ⟨e, he, hcore⟩ := parseCore_head_fails (cfg := cfg) hh
  have hends : e.ofParse ∧ e.code ≠ 0 := by
    obtain rfl | rfl | rfl := he
    · exact ⟨True.intro, by decide⟩
    · exact ⟨True.intro, by decide⟩
    · exact ⟨True.intro, by decide⟩
  refine ⟨errReg 0 e.info e.code, errReg_ne_zero hends.2, fun s ⟨_, hcfg, hraw, hlen⟩ => ?_⟩
  subst hcfg hraw hlen
  obtain ⟨w, hw⟩ := hcore ⟨s.work, s.dec⟩
  exact parsesTo_of_next (execParse_fail s hw hends.1) rfl

/-- R203: RES, ERR and the decoded response are those that the received bytes determine, or the response before is kept with an error. -/
theorem parse_outcome (cfg : Config) (m : Memory) (n : Nat) :
    (∃ err, err ≠ 0 ∧ ∀ s : State, s.Receives cfg m n → s.ParsesTo 0 err (· = s.dec)) ∨
    ∃ res err, ∃ P : Decoded → Prop, (∀ d e, P d → P e → d = e) ∧ ∀ s : State, s.Receives cfg m n → s.ParsesTo res err P := by
  have hempty : ∀ d e : Decoded, d.EnvelopeOf m n ∧ d.isEmpty = true → e.EnvelopeOf m n ∧ e.isEmpty = true → d = e :=
    fun _ _ ⟨hd, hde⟩ ⟨he, hee⟩ => Decoded.empty_unique hd he hde hee
  obtain hh | ⟨hh, hmax⟩ | ⟨hh, hmax, b, e, hb, hpre, hf⟩ | ha := response_cases cfg m n
  · exact .inl (parsesTo_of_headRejected cfg hh)
  · refine .inr ⟨0, errReg 0 (Err.outOfMemory 0xFF).info (Err.outOfMemory 0xFF).code, _, hempty, fun s ⟨hc, hcfg, hraw, hlen⟩ => ?_⟩
    subst hcfg hraw hlen
    exact (parseEmptiedBy_of_table s hc hh hmax).parsesTo
  · refine .inr ⟨0, errReg 0 e.info e.code, _, hempty, fun s ⟨hc, hcfg, hraw, hlen⟩ => ?_⟩
    subst hcfg hraw hlen
    exact (parseEmptiedBy_of_block s hc hh hmax hb hpre hf).parsesTo
  · refine .inr ⟨BitVec.ofNat 32 (blockStart m (m.read offNblk).toNat) ++ BitVec.ofNat 32 (m.read offNblk).toNat, 0,
      (·.ParsedFrom m n), fun d e hd he => hd.unique he, fun s ⟨hc, hcfg, hraw, hlen⟩ => ?_⟩
    subst hcfg hraw hlen
    obtain ⟨w, d, hd, hparse⟩ := exec_parse_of_accepted s hc ha
    exact parsesTo_of_next hparse hd

/-- Settles O33: `parse_outcome` for the bytes of both states. -/
theorem parseIgnoresOldResponse : Obligations.ParseIgnoresOldResponse := by
  unfold Obligations.ParseIgnoresOldResponse
  intro s t s' t' hc hc' hcfg hraw hlen h h'
  have hs : s.Receives s.cfg s.raw s.rawLen.val := ⟨hc, rfl, rfl, rfl⟩
  have hs' : s'.Receives s.cfg s.raw s.rawLen.val := ⟨hc', hcfg.symm, hraw.symm, by rw [hlen]⟩
  obtain ⟨err, herr, hparse⟩ | ⟨res, err, P, hP, hparse⟩ := parse_outcome s.cfg s.raw s.rawLen.val
  · obtain ⟨hres, he, hd⟩ := hparse s hs t h
    obtain ⟨hres', he', hd'⟩ := hparse s' hs' t' h'
    exact ⟨hres.trans hres'.symm, he.trans he'.symm, .inr ⟨hd, hd', he ▸ herr⟩⟩
  · obtain ⟨hres, he, hd⟩ := hparse s hs t h
    obtain ⟨hres', he', hd'⟩ := hparse s' hs' t' h'
    exact ⟨hres.trans hres'.symm, he.trans he'.symm, .inl (hP _ _ hd hd')⟩

/-- PARSE reads the buffer in `parseCore` alone. -/
theorem execParse_withRaw {s t : State} {m : Memory}
    (hcore : ∀ p, parseCore s.cfg m s.rawLen.val p = parseCore s.cfg s.raw s.rawLen.val p) (h : execParse s = .next t) :
    execParse { s with raw := m } = .next { t with raw := m } := by
  have hproc : parseProc { s with raw := m } =
      match parseCore s.cfg s.raw s.rawLen.val ⟨s.work, s.dec⟩ with
      | .ok p => .done ({ s with raw := m }.withParse p)
      | .fail e p => .raised e ({ s with raw := m }.withParse p).invalidate := by
    rw [← hcore]
    rfl
  unfold execParse at h ⊢
  rw [hproc]
  unfold parseProc at h
  cases hp : parseCore s.cfg s.raw s.rawLen.val ⟨s.work, s.dec⟩ with
  | ok q =>
    rw [hp] at h
    cases h
    rfl
  | fail e q =>
    rw [hp] at h
    cases h
    rfl

/-- Settles O34: `parseCore_congr` below `raw_len`. -/
theorem parseReadsOnlyReceivedBytes : Obligations.ParseReadsOnlyReceivedBytes := by
  unfold Obligations.ParseReadsOnlyReceivedBytes
  intro s t m hsame h
  exact execParse_withRaw (fun p => parseCore_congr hsame s.cfg p) h

/-! ### REFRESH -/

theorem pollParse_ok {s : State} {q : ParseState} (h : parseCore s.cfg s.raw s.rawLen.val ⟨s.work, s.dec⟩ = .ok q) :
    pollParse s = .done (s.withParse q).markFresh := by
  rw [pollParse_eq, h]

/-- Settles O41: the poll comes to its Parse, which `parseCore_accepted` settles. -/
theorem refreshCompletes : Obligations.RefreshCompletes := by
  unfold Obligations.RefreshCompletes
  intro s oks b chunks rest hc hanswers p hacc
  obtain ⟨q, hq, hparsed, -⟩ := parseCore_accepted (p := ⟨p.work, s.dec⟩) hc.storesFit hacc
  have hpoll : exec .refresh s = endRefresh (pollParse { p with seqStep := 0, activity := .fetching (.poll .refresh) }) :=
    congrArg endRefresh (pollSend_parse .refresh s oks b chunks rest hanswers)
  refine ⟨q.work, q.dec, hparsed, ?_⟩
  rw [hpoll, pollParse_ok (s := { p with seqStep := 0, activity := .fetching (.poll .refresh) }) hq]
  rfl

end Sys2Proof.Machine
end

section
/-! SUPPORT. Consumer reads from a fresh cache (45_consumer_ops.md section 1): the lookup of the record, and its fields one by one. -/

namespace Sys2Proof.Machine

theorem Decoded.lookup_tracked {d : Decoded} {f : ReadField} {n : Nat} (h : d.idx.get f.sensor ≠ none) : d.lookup f n = d.scalar f n :=
  if_neg h

/-- R271: no tracked block, or no record of that number. -/
theorem Decoded.lookup_eq_none {d : Decoded} {f : ReadField} {n : Nat} (h : d.idx.get f.sensor = none ∨ d.recCount f.sensor ≤ n) :
    d.lookup f n = none := by
  obtain hidx | hcount := h
  · exact if_pos hidx
  · have hscalar : d.scalar f n = none := by
      cases f with
      | tempValue | tempId | freqValue | freqId | powrValue | powrId | powrTag | powrAcc | caps c =>
        exact Option.map_eq_none_iff.mpr (List.getElem?_eq_none hcount)
    simp only [Decoded.lookup, hscalar, ite_self]

theorem exec_read_of_fresh {i : Instr} {f : ReadField} {n : Nat} {s : State} (hread : readOf i = some (f, n))
    (hfresh : fresh s.cfg s.cache s.now = true) : exec i s = readEnd f n s :=
  (exec_of_readOf s hread).trans (consumerRead_of_fresh hfresh)

/-- R261: a read of a record that is there. -/
theorem exec_read_of_scalar {i : Instr} {f : ReadField} {n : Nat} {s : State} {w : Word} (hread : readOf i = some (f, n))
    (hfresh : fresh s.cfg s.cache s.now = true) (hidx : s.dec.idx.get f.sensor ≠ none) (hw : s.dec.scalar f n = some w) :
    exec i s = .next (s.complete (w.setWidth 64) 0) :=
  (exec_read_of_fresh hread hfresh).trans ((readEnd_cases f n s).1 w ((Decoded.lookup_tracked hidx).trans hw))

/-- R260, R261: a 16-bit value is zero-extended. -/
theorem exec_read_of_half {i : Instr} {f : ReadField} {n : Nat} {s : State} {v : Half} (hread : readOf i = some (f, n))
    (hfresh : fresh s.cfg s.cache s.now = true) (hidx : s.dec.idx.get f.sensor ≠ none)
    (hv : s.dec.scalar f n = some (v.setWidth 32)) : exec i s = .next (s.complete (v.setWidth 64) 0) := by
  have hwidth : (v.setWidth 32).setWidth 64 = v.setWidth 64 := BitVec.setWidth_setWidth (by decide)
  exact hwidth ▸ exec_read_of_scalar hread hfresh hidx hv

/-- R262: the product fits in 32 bits. -/
theorem milliDegree_setWidth (v : Half) : (milliDegree v).setWidth 64 = BitVec.ofNat 64 (v.toNat * 1000) := by
  apply BitVec.eq_of_toNat_eq
  have hfactor : (1000 : Word).toNat = 1000 := rfl
  have hv : v.toNat < 65536 := v.isLt
  simp (disch := omega) only [milliDegree, BitVec.toNat_setWidth, BitVec.toNat_mul, BitVec.toNat_ofNat, hfactor, Nat.mod_eq_of_lt]

/-- Settles O44: `exec_read_of_scalar` and `exec_read_of_half` with the record's fields. -/
theorem temperatureAndFrequencyReads : Obligations.TemperatureAndFrequencyReads := by
  unfold Obligations.TemperatureAndFrequencyReads
  intro s i r hfresh
  refine ⟨fun hidx hrec => ⟨?_, ?_⟩, fun hidx hrec => ⟨?_, ?_⟩⟩
  · rw [← milliDegree_setWidth]
    exact exec_read_of_scalar (f := .tempValue) rfl hfresh hidx (congrArg (Option.map _) hrec)
  · exact exec_read_of_half (f := .tempId) rfl hfresh hidx (congrArg (Option.map _) hrec)
  · exact exec_read_of_half (f := .freqValue) rfl hfresh hidx (congrArg (Option.map _) hrec)
  · exact exec_read_of_half (f := .freqId) rfl hfresh hidx (congrArg (Option.map _) hrec)

/-- Settles O45: the same for the four fields of a POWR record. -/
theorem powerReads : Obligations.PowerReads := by
  unfold Obligations.PowerReads
  intro s i r hfresh hidx hrec
  exact ⟨exec_read_of_half (f := .powrValue) rfl hfresh hidx (congrArg (Option.map _) hrec),
    exec_read_of_half (f := .powrId) rfl hfresh hidx (congrArg (Option.map _) hrec),
    exec_read_of_scalar (f := .powrTag) rfl hfresh hidx (congrArg (Option.map _) hrec),
    exec_read_of_scalar (f := .powrAcc) rfl hfresh hidx (congrArg (Option.map _) hrec)⟩

/-- R270: the field `c` of record 0. -/
theorem exec_rdCaps_of_fresh {s : State} {r : CapsRec} {i : Half} {c : CapsField} (hc : capsFieldOf i = some c)
    (hfresh : fresh s.cfg s.cache s.now = true) (hidx : s.dec.idx.caps ≠ none) (hrec : s.dec.caps[0]? = some r) :
    exec (.rdCaps i) s = .next (s.complete ((r.field c).setWidth 64) 0) := by
  have hread : readOf (.rdCaps i) = some (.caps c, 0) := by simp only [readOf, hc, Option.map_some]
  exact exec_read_of_half hread hfresh hidx (congrArg (Option.map _) hrec)

/-- Settles O46: `exec_rdCaps_of_fresh` for the six field numbers; any other number is an operand out of range. -/
theorem cappingReads : Obligations.CappingReads := by
  unfold Obligations.CappingReads
  refine ⟨fun s r hfresh hidx hrec => ?_, fun s f hf => ?_⟩
  · exact ⟨exec_rdCaps_of_fresh (c := .currCap) rfl hfresh hidx hrec, exec_rdCaps_of_fresh (c := .currReading) rfl hfresh hidx hrec,
      exec_rdCaps_of_fresh (c := .normCap) rfl hfresh hidx hrec, exec_rdCaps_of_fresh (c := .maxCap) rfl hfresh hidx hrec,
      exec_rdCaps_of_fresh (c := .minCap) rfl hfresh hidx hrec, exec_rdCaps_of_fresh (c := .userLimit) rfl hfresh hidx hrec⟩
  · have hrange : (Instr.rdCaps f).wellFormed = false := by simpa [Instr.wellFormed] using hf
    exact (exec_of_illFormed s hrange).trans (raiseIllegal_eq s)

/-- Settles O47: the lookup finds nothing. -/
theorem missingSensorIsUnavailable : Obligations.MissingSensorIsUnavailable := by
  unfold Obligations.MissingSensorIsUnavailable
  intro s i f n hread hfresh hmissing
  exact (exec_read_of_fresh hread hfresh).trans ((readEnd_cases f n s).2 (Decoded.lookup_eq_none hmissing))

end Sys2Proof.Machine
end
